-- ==== Sys2Proof/Word.lean ====
section
/-! DEFINITION. The word and byte types of the machine (spec/00_scope.md R8 `XLEN`, R9). -/

namespace Sys2Proof

/-- A 32-bit word: every register, every address while it is computed, every ARM-state instruction (R8, R20, R90). -/
abbrev Word := BitVec 32

/-- An 8-bit byte, the smallest addressable unit (R60). -/
abbrev Byte := BitVec 8

end Sys2Proof
end

