-- ==== Sys2Proof/Config.lean ====
section
/-! DEFINITION. The parameters the spec leaves OPEN (spec/00_scope.md R8, spec/92_eei_decisions.md), the types of
the environment's inputs, and the one free value of the model. The parameters and inputs are plain data held in
`State`, so that a statement about every state is a statement about every admitted value of them. -/

namespace Sys2Proof

/-- `VECTOR_BASE` (R8, D6): the table of vectors stands at 0x00000000 or at 0xFFFF0000. -/
inductive VectorBase where
  | low
  | high
  deriving DecidableEq, Repr

/-- The address of a vector base (R71). -/
def VectorBase.addr : VectorBase → Word
  | .low => 0x00000000
  | .high => 0xFFFF0000

/-- `PC_STORE_OFFSET` (R8, D16): what `STR` and `STM` store for r15, as an offset from the instruction's address. -/
inductive PcStoreOffset where
  | plus8
  | plus12
  deriving DecidableEq, Repr

/-- The value of a `PC_STORE_OFFSET`. -/
def PcStoreOffset.value : PcStoreOffset → Word
  | .plus8 => 8
  | .plus12 => 12

/-- `ABORT_BASE` (R8, D20): whether a base register write-back has happened when a Data Abort is taken. -/
inductive AbortBase where
  | restored
  | updated
  deriving DecidableEq, Repr

/-- A run of byte addresses, both ends included. -/
structure Region where
  first : Word
  last : Word
  deriving DecidableEq, Repr

/-- The parameters that are fixed for a run (R8). `memMap` is the set of byte addresses that hold memory
(`MEM_MAP`, D5), as a list of regions. No rule changes any of them. -/
structure Params where
  bigEndian : Bool
  vectorBase : VectorBase
  pcStoreOffset : PcStoreOffset
  abortBase : AbortBase
  memMap : List Region
  deriving DecidableEq, Repr

/-- The whole 2^32-byte address space (R60). -/
def Region.all : Region := ⟨0x00000000, 0xFFFFFFFF⟩

/-- The parameters of `State.reset`: the defaults of R8 where it gives one. DESIGN CHOICE (log 4): R8 gives no
default for `PC_STORE_OFFSET`, `ABORT_BASE` and `MEM_MAP`. -/
def Params.default : Params :=
  { bigEndian := false, vectorBase := .low, pcStoreOffset := .plus8, abortBase := .restored,
    memMap := [Region.all] }

/-- The kind of an access, as the `ABORT` oracle sees it (R70). -/
inductive AccessKind where
  | fetch
  | read
  | write
  deriving DecidableEq, Repr

/-- The width of an access (R66). -/
inductive Size where
  | byte
  | half
  | word
  deriving DecidableEq, Repr

/-- One row of the `ABORT` oracle as plain data (R70, D12): accesses of this kind and width whose address is in
`first..last` abort, in User mode if `inUser`, in the privileged modes if `inPrivileged` (R319 point 3).
Every oracle `ABORT(addr, n, kind)` is a list of such rows. -/
structure AbortRow where
  kind : AccessKind
  size : Size
  first : Word
  last : Word
  inUser : Bool
  inPrivileged : Bool
  deriving DecidableEq, Repr

/-- What the environment presents to the core during one step: the two interrupt request lines (R47, D13) and the
`ABORT` oracle (D12). -/
structure Env where
  irqLine : Bool
  fiqLine : Bool
  aborts : List AbortRow
  deriving DecidableEq, Repr

/-- The default environment: both lines low, nothing aborts (R8, R70). -/
def Env.quiet : Env := { irqLine := false, fiqLine := false, aborts := [] }

/-- DESIGN CHOICE (log 9). `DRAW(1)` of R10 and R208: the `n`-th bit the spec leaves free. It has no body, so
nothing can be proved of its values; `State.draws` counts the draws made. -/
opaque Config.freeBit : Nat → Bool

end Sys2Proof
end

