-- ==== Sys2Proof/Syntax.lean ====
section
/-! DEFINITION. The ARM-state instructions of spec/00_scope.md R7 as syntax: one constructor for each instruction of
spec/opcode_table.json. Rows of the table that share a mnemonic and differ in the operand form only are one
constructor whose operand type has one constructor per form; `MSR` has two formats and so two constructors. -/

namespace Sys2Proof

/-- A register name as an instruction gives it (R21). -/
inductive Reg where
  | r0 | r1 | r2 | r3 | r4 | r5 | r6 | r7 | r8 | r9 | r10 | r11 | r12 | r13 | r14 | r15
  deriving DecidableEq, Repr

/-- The fifteen conditions (R110, R132). -/
inductive Cond where
  | eq | ne | cs | cc | mi | pl | vs | vc | hi | ls | ge | lt | gt | le | al
  deriving DecidableEq, Repr

/-- The four shift codes of bits 6:5 (R95); `ROR` by an amount field of 0 is `RRX` (R106). -/
inductive ShiftKind where
  | lsl | lsr | asr | ror
  deriving DecidableEq, Repr

/-- The three forms of Operand2 (R95): a rotated immediate, a register shifted by an immediate amount field, a
register shifted by a register. -/
inductive Operand2 where
  | imm (rot : BitVec 4) (imm8 : BitVec 8)
  | shiftImm (rm : Reg) (kind : ShiftKind) (amount : BitVec 5)
  | shiftReg (rm : Reg) (kind : ShiftKind) (rs : Reg)
  deriving DecidableEq, Repr

/-- The three addressing forms of a single register transfer (R223). -/
inductive Index where
  | offset
  | preIndexed
  | postIndexed
  deriving DecidableEq, Repr

/-- The offset of a word or unsigned byte transfer (R221). -/
inductive Offset where
  | imm (imm12 : BitVec 12)
  | reg (rm : Reg) (kind : ShiftKind) (amount : BitVec 5)
  deriving DecidableEq, Repr

/-- The offset of a halfword or signed transfer (R222). -/
inductive HalfOffset where
  | imm (imm8 : BitVec 8)
  | reg (rm : Reg)
  deriving DecidableEq, Repr

/-- The instructions (R7). `c` is the condition field; `st` the `S` bit; `ix` the addressing form and `up` the `U`
bit of a transfer; `wb` the `!` of a block transfer and `list` its register list; `spsr` the `R` bit and `fields`
the field mask of a PSR transfer. -/
inductive Instr where
  | b (c : Cond) (offset : BitVec 24)
  | bl (c : Cond) (offset : BitVec 24)
  | and (c : Cond) (st : Bool) (rd rn : Reg) (op2 : Operand2)
  | eor (c : Cond) (st : Bool) (rd rn : Reg) (op2 : Operand2)
  | sub (c : Cond) (st : Bool) (rd rn : Reg) (op2 : Operand2)
  | rsb (c : Cond) (st : Bool) (rd rn : Reg) (op2 : Operand2)
  | add (c : Cond) (st : Bool) (rd rn : Reg) (op2 : Operand2)
  | adc (c : Cond) (st : Bool) (rd rn : Reg) (op2 : Operand2)
  | sbc (c : Cond) (st : Bool) (rd rn : Reg) (op2 : Operand2)
  | rsc (c : Cond) (st : Bool) (rd rn : Reg) (op2 : Operand2)
  | tst (c : Cond) (rn : Reg) (op2 : Operand2)
  | teq (c : Cond) (rn : Reg) (op2 : Operand2)
  | cmp (c : Cond) (rn : Reg) (op2 : Operand2)
  | cmn (c : Cond) (rn : Reg) (op2 : Operand2)
  | orr (c : Cond) (st : Bool) (rd rn : Reg) (op2 : Operand2)
  | mov (c : Cond) (st : Bool) (rd : Reg) (op2 : Operand2)
  | bic (c : Cond) (st : Bool) (rd rn : Reg) (op2 : Operand2)
  | mvn (c : Cond) (st : Bool) (rd : Reg) (op2 : Operand2)
  | mul (c : Cond) (st : Bool) (rd rm rs : Reg)
  | mla (c : Cond) (st : Bool) (rd rm rs rn : Reg)
  | umull (c : Cond) (st : Bool) (rdLo rdHi rm rs : Reg)
  | umlal (c : Cond) (st : Bool) (rdLo rdHi rm rs : Reg)
  | smull (c : Cond) (st : Bool) (rdLo rdHi rm rs : Reg)
  | smlal (c : Cond) (st : Bool) (rdLo rdHi rm rs : Reg)
  | ldr (c : Cond) (ix : Index) (up : Bool) (rd rn : Reg) (off : Offset)
  | str (c : Cond) (ix : Index) (up : Bool) (rd rn : Reg) (off : Offset)
  | ldrb (c : Cond) (ix : Index) (up : Bool) (rd rn : Reg) (off : Offset)
  | strb (c : Cond) (ix : Index) (up : Bool) (rd rn : Reg) (off : Offset)
  | ldrh (c : Cond) (ix : Index) (up : Bool) (rd rn : Reg) (off : HalfOffset)
  | strh (c : Cond) (ix : Index) (up : Bool) (rd rn : Reg) (off : HalfOffset)
  | ldrsb (c : Cond) (ix : Index) (up : Bool) (rd rn : Reg) (off : HalfOffset)
  | ldrsh (c : Cond) (ix : Index) (up : Bool) (rd rn : Reg) (off : HalfOffset)
  | ldmia (c : Cond) (wb : Bool) (rn : Reg) (list : BitVec 16)
  | ldmib (c : Cond) (wb : Bool) (rn : Reg) (list : BitVec 16)
  | ldmda (c : Cond) (wb : Bool) (rn : Reg) (list : BitVec 16)
  | ldmdb (c : Cond) (wb : Bool) (rn : Reg) (list : BitVec 16)
  | stmia (c : Cond) (wb : Bool) (rn : Reg) (list : BitVec 16)
  | stmib (c : Cond) (wb : Bool) (rn : Reg) (list : BitVec 16)
  | stmda (c : Cond) (wb : Bool) (rn : Reg) (list : BitVec 16)
  | stmdb (c : Cond) (wb : Bool) (rn : Reg) (list : BitVec 16)
  | swi (c : Cond) (number : BitVec 24)
  | mrs (c : Cond) (spsr : Bool) (rd : Reg)
  | msrReg (c : Cond) (spsr : Bool) (fields : BitVec 4) (rm : Reg)
  | msrImm (c : Cond) (spsr : Bool) (fields : BitVec 4) (rot : BitVec 4) (imm8 : BitVec 8)
  deriving DecidableEq, Repr

/-- The condition field of an instruction (R90). -/
def Instr.cond : Instr → Cond
  | .b c _ | .bl c _ | .swi c _ => c
  | .and c _ _ _ _ | .eor c _ _ _ _ | .sub c _ _ _ _ | .rsb c _ _ _ _ | .add c _ _ _ _ | .adc c _ _ _ _
  | .sbc c _ _ _ _ | .rsc c _ _ _ _ | .orr c _ _ _ _ | .bic c _ _ _ _ => c
  | .tst c _ _ | .teq c _ _ | .cmp c _ _ | .cmn c _ _ => c
  | .mov c _ _ _ | .mvn c _ _ _ => c
  | .mul c _ _ _ _ | .mla c _ _ _ _ _ => c
  | .umull c _ _ _ _ _ | .umlal c _ _ _ _ _ | .smull c _ _ _ _ _ | .smlal c _ _ _ _ _ => c
  | .ldr c _ _ _ _ _ | .str c _ _ _ _ _ | .ldrb c _ _ _ _ _ | .strb c _ _ _ _ _ => c
  | .ldrh c _ _ _ _ _ | .strh c _ _ _ _ _ | .ldrsb c _ _ _ _ _ | .ldrsh c _ _ _ _ _ => c
  | .ldmia c _ _ _ | .ldmib c _ _ _ | .ldmda c _ _ _ | .ldmdb c _ _ _ => c
  | .stmia c _ _ _ | .stmib c _ _ _ | .stmda c _ _ _ | .stmdb c _ _ _ => c
  | .mrs c _ _ | .msrReg c _ _ _ | .msrImm c _ _ _ _ => c

end Sys2Proof
end

