-- ==== Sys2Proof/Decode.lean ====
section
/-! DEFINITION. The decoder and the encoder of the ARM-state formats (spec/30_encoding.md R90 to R118). The decoder is
total: a word is an instruction, a word of the architecturally UNDEFINED space, or refused by name. -/

namespace Sys2Proof

/-- Why a word is no instruction of this model (R112, R114, R116, R118). -/
inductive Undecodable where
  /-- Condition field 0b1111 (R116). -/
  | conditionNever
  /-- An SBZ bit is 1 or an SBO bit is 0 (R114). -/
  | shouldBeBits
  /-- `SWP`, `SWPB` (R118). -/
  | swap
  /-- `BX` (R118). -/
  | branchExchange
  /-- Format LS with P = 0 and W = 1: `LDRT`, `STRT`, `LDRBT`, `STRBT` (R118). -/
  | userModeTransfer
  /-- Format LSH with P = 0 and W = 1 (R118). -/
  | halfPostIndexedW
  /-- Format LSH with L = 0 and S = 1 (R118). -/
  | signedStore
  /-- Format LSM with S = 1: the `^` forms (R118). -/
  | userBankBlock
  /-- The unallocated multiply space (R118). -/
  | multiplySpace
  /-- Opcode 10xx with S = 0 other than `MRS` and `MSR` (R118). -/
  | miscellaneous
  /-- The coprocessor space (R118). -/
  | coprocessor
  /-- Fewer than the four bytes of an instruction (R90). -/
  | tooShort
  deriving DecidableEq, Repr

/-- What the decoder makes of a word. -/
inductive Decoded where
  /-- A row of spec/opcode_table.json (R112). -/
  | instr (i : Instr)
  /-- The architecturally UNDEFINED space (R117). -/
  | undefined
  /-- No meaning (R114, R116, R118). -/
  | refused (why : Undecodable)
  deriving DecidableEq, Repr

/-! ### Register numbers, conditions and shift codes -/

/-- The 4-bit number of a register (R111). -/
def Reg.num (r : Reg) : BitVec 4 :=
  match r with
  | .r0 => 0 | .r1 => 1 | .r2 => 2 | .r3 => 3 | .r4 => 4 | .r5 => 5 | .r6 => 6 | .r7 => 7
  | .r8 => 8 | .r9 => 9 | .r10 => 10 | .r11 => 11 | .r12 => 12 | .r13 => 13 | .r14 => 14 | .r15 => 15

/-- The register a 4-bit field names (R111). -/
def Reg.ofNum (n : BitVec 4) : Reg :=
  match n.toNat with
  | 0 => .r0 | 1 => .r1 | 2 => .r2 | 3 => .r3 | 4 => .r4 | 5 => .r5 | 6 => .r6 | 7 => .r7
  | 8 => .r8 | 9 => .r9 | 10 => .r10 | 11 => .r11 | 12 => .r12 | 13 => .r13 | 14 => .r14 | _ => .r15

/-- The number of a condition (R110). -/
def Cond.num (c : Cond) : BitVec 4 :=
  match c with
  | .eq => 0 | .ne => 1 | .cs => 2 | .cc => 3 | .mi => 4 | .pl => 5 | .vs => 6 | .vc => 7
  | .hi => 8 | .ls => 9 | .ge => 10 | .lt => 11 | .gt => 12 | .le => 13 | .al => 14

/-- The condition a 4-bit field names; 0b1111 names none (R110, R116). -/
def Cond.ofNum (n : BitVec 4) : Option Cond :=
  match n.toNat with
  | 0 => some .eq | 1 => some .ne | 2 => some .cs | 3 => some .cc
  | 4 => some .mi | 5 => some .pl | 6 => some .vs | 7 => some .vc
  | 8 => some .hi | 9 => some .ls | 10 => some .ge | 11 => some .lt
  | 12 => some .gt | 13 => some .le | 14 => some .al | _ => none

/-- The code of a shift (R95). -/
def ShiftKind.num (k : ShiftKind) : BitVec 2 :=
  match k with
  | .lsl => 0 | .lsr => 1 | .asr => 2 | .ror => 3

/-- The shift a 2-bit code names (R95). -/
def ShiftKind.ofNum (n : BitVec 2) : ShiftKind :=
  match n.toNat with
  | 0 => .lsl | 1 => .lsr | 2 => .asr | _ => .ror

/-! ### Fields of a word (R9, R111) -/

/-- The field of `len` bits whose lowest bit is bit `lo`. -/
def field (w : Word) (lo len : Nat) : BitVec len := w.extractLsb' lo len

/-- Bit `k`. -/
def bitAt (w : Word) (k : Nat) : Bool := w.getLsbD k

/-- The register named by the 4-bit field whose lowest bit is bit `lo`. -/
def regAt (w : Word) (lo : Nat) : Reg := Reg.ofNum (field w lo 4)

/-- The condition field, bits 31:28 (R90). -/
def condOf (w : Word) : Option Cond := Cond.ofNum (field w 28 4)

/-! ### The decoder -/

/-- `i` if the SBZ and SBO bits are as they should be (R114). -/
def unlessBits (bad : Bool) (i : Instr) : Decoded := if bad then .refused .shouldBeBits else .instr i

/-- The sixteen data-processing instructions from their opcode field (R94). The comparisons are here with `S = 1`
only: `decodeOpcode` turns their `S = 0` words away first. -/
def decodeDp (w : Word) (c : Cond) (o : Operand2) : Decoded :=
  let st := bitAt w 20
  let rn := regAt w 16
  let rd := regAt w 12
  let noRn := field w 16 4 != 0
  let noRd := field w 12 4 != 0
  match (field w 21 4).toNat with
  | 0 => .instr (.and c st rd rn o)
  | 1 => .instr (.eor c st rd rn o)
  | 2 => .instr (.sub c st rd rn o)
  | 3 => .instr (.rsb c st rd rn o)
  | 4 => .instr (.add c st rd rn o)
  | 5 => .instr (.adc c st rd rn o)
  | 6 => .instr (.sbc c st rd rn o)
  | 7 => .instr (.rsc c st rd rn o)
  | 8 => unlessBits noRd (.tst c rn o)
  | 9 => unlessBits noRd (.teq c rn o)
  | 10 => unlessBits noRd (.cmp c rn o)
  | 11 => unlessBits noRd (.cmn c rn o)
  | 12 => .instr (.orr c st rd rn o)
  | 13 => unlessBits noRn (.mov c st rd o)
  | 14 => .instr (.bic c st rd rn o)
  | _ => unlessBits noRn (.mvn c st rd o)

/-- Whether a data-processing opcode field is 10xx with `S = 0`: the space of `MRS` and `MSR` (R94). -/
def isMisc (w : Word) : Bool := field w 23 2 == 0b10#2 && !bitAt w 20

/-- Format MRS and format MSRR (R101, R102) in the space `isMisc` with bit 25 = 0; the rest of it is refused (R118). -/
def decodeMiscReg (w : Word) (c : Cond) : Decoded :=
  if field w 4 4 == 0 then
    if bitAt w 21 then
      unlessBits (field w 12 4 != 0b1111#4 || field w 8 4 != 0) (.msrReg c (bitAt w 22) (field w 16 4) (regAt w 0))
    else
      unlessBits (field w 16 4 != 0b1111#4 || field w 8 4 != 0 || field w 0 4 != 0)
        (.mrs c (bitAt w 22) (regAt w 12))
  else if field w 4 4 == 0b0001#4 && field w 20 8 == 0b00010010#8 then .refused .branchExchange
  else .refused .miscellaneous

/-- Format MSRI (R102) in the space `isMisc` with bit 25 = 1; the rest of it is refused (R118). -/
def decodeMiscImm (w : Word) (c : Cond) : Decoded :=
  if bitAt w 21 then
    unlessBits (field w 12 4 != 0b1111#4) (.msrImm c (bitAt w 22) (field w 16 4) (field w 8 4) (field w 0 8))
  else .refused .miscellaneous

/-- Formats MUL and MULL (R96, R97): bits 27:25 = 0b000 and bits 7:4 = 0b1001. -/
def decodeMul (w : Word) (c : Cond) : Decoded :=
  let st := bitAt w 20
  let hi := regAt w 16
  let lo := regAt w 12
  let rs := regAt w 8
  let rm := regAt w 0
  match (field w 21 4).toNat with
  | 0 => unlessBits (field w 12 4 != 0) (.mul c st hi rm rs)
  | 1 => .instr (.mla c st hi rm rs lo)
  | 4 => .instr (.umull c st lo hi rm rs)
  | 5 => .instr (.umlal c st lo hi rm rs)
  | 6 => .instr (.smull c st lo hi rm rs)
  | 7 => .instr (.smlal c st lo hi rm rs)
  | _ => if field w 23 5 == 0b00010#5 && field w 20 2 == 0 then .refused .swap else .refused .multiplySpace

/-- The addressing form of the P and W bits; P = 0 with W = 1 is none (R98, R223). -/
def indexOf (w : Word) : Option Index :=
  match bitAt w 24, bitAt w 21 with
  | true, false => some .offset
  | true, true => some .preIndexed
  | false, false => some .postIndexed
  | false, true => none

/-- Format LSH (R99): bits 27:25 = 0b000, bit 7 = bit 4 = 1 and S, H not both 0. -/
def decodeHalf (w : Word) (c : Cond) : Decoded :=
  let up := bitAt w 23
  let imm := bitAt w 22
  let rn := regAt w 16
  let rd := regAt w 12
  let off := if imm then HalfOffset.imm (field w 8 4 ++ field w 0 4) else HalfOffset.reg (regAt w 0)
  let bad := !imm && field w 8 4 != 0
  match indexOf w with
  | none => .refused .halfPostIndexedW
  | some ix =>
    match bitAt w 20, bitAt w 6, bitAt w 5 with
    | false, false, _ => unlessBits bad (.strh c ix up rd rn off)
    | false, true, _ => .refused .signedStore
    | true, false, _ => unlessBits bad (.ldrh c ix up rd rn off)
    | true, true, false => unlessBits bad (.ldrsb c ix up rd rn off)
    | true, true, true => unlessBits bad (.ldrsh c ix up rd rn off)

/-- Format LS (R98): bits 27:26 = 0b01. -/
def decodeSingle (w : Word) (c : Cond) (off : Offset) : Decoded :=
  let up := bitAt w 23
  let rn := regAt w 16
  let rd := regAt w 12
  match indexOf w with
  | none => .refused .userModeTransfer
  | some ix =>
    match bitAt w 22, bitAt w 20 with
    | false, true => .instr (.ldr c ix up rd rn off)
    | false, false => .instr (.str c ix up rd rn off)
    | true, true => .instr (.ldrb c ix up rd rn off)
    | true, false => .instr (.strb c ix up rd rn off)

/-- Format LSM (R100): bits 27:25 = 0b100. -/
def decodeBlock (w : Word) (c : Cond) : Decoded :=
  let wb := bitAt w 21
  let rn := regAt w 16
  let list := field w 0 16
  if bitAt w 22 then .refused .userBankBlock
  else
    match bitAt w 20, bitAt w 24, bitAt w 23 with
    | true, false, true => .instr (.ldmia c wb rn list)
    | true, true, true => .instr (.ldmib c wb rn list)
    | true, false, false => .instr (.ldmda c wb rn list)
    | true, true, false => .instr (.ldmdb c wb rn list)
    | false, false, true => .instr (.stmia c wb rn list)
    | false, true, true => .instr (.stmib c wb rn list)
    | false, false, false => .instr (.stmda c wb rn list)
    | false, true, false => .instr (.stmdb c wb rn list)

/-- Operand2 in form 2 or form 3, by bit 4 (R95). -/
def regOperand2 (w : Word) : Operand2 :=
  let kind := ShiftKind.ofNum (field w 5 2)
  if bitAt w 4 then .shiftReg (regAt w 0) kind (regAt w 8)
  else .shiftImm (regAt w 0) kind (field w 7 5)

/-- Decoding (R112, R113), by bits 27:25, of a word whose condition is `c`. -/
def decodeOpcode (w : Word) (c : Cond) : Decoded :=
  match (field w 25 3).toNat with
  | 0 =>
    if bitAt w 4 && bitAt w 7 then
      if field w 5 2 == 0 then decodeMul w c else decodeHalf w c
    else if isMisc w then decodeMiscReg w c
    else decodeDp w c (regOperand2 w)
  | 1 => if isMisc w then decodeMiscImm w c else decodeDp w c (.imm (field w 8 4) (field w 0 8))
  | 2 => decodeSingle w c (.imm (field w 0 12))
  | 3 =>
    if bitAt w 4 then .undefined
    else decodeSingle w c (.reg (regAt w 0) (ShiftKind.ofNum (field w 5 2)) (field w 7 5))
  | 4 => decodeBlock w c
  | 5 => if bitAt w 24 then .instr (.bl c (field w 0 24)) else .instr (.b c (field w 0 24))
  | 6 => .refused .coprocessor
  | _ => if bitAt w 24 then .instr (.swi c (field w 0 24)) else .refused .coprocessor

/-- Decoding of a word (R112); a word with `cond = 0b1111` is refused first (R116). -/
def decode (w : Word) : Decoded :=
  match condOf w with
  | none => .refused .conditionNever
  | some c => decodeOpcode w c

/-! ### Bytes of a word (spec/20_memory.md R62) -/

/-- The bits `8k+7:8k` of a word. -/
def laneOf (w : Word) (k : Nat) : Byte := w.extractLsb' (8 * k) 8

/-- Which of the `n` bytes of a value, counted from its least significant, lies at offset `k` (R62). -/
def lane (bigEndian : Bool) (n k : Nat) : Nat := if bigEndian then n - 1 - k else k

/-- The value whose byte at offset `k` is `get k`, for `k` in `0..n-1`, zero-extended to a word (R62). -/
def assemble (bigEndian : Bool) (n : Nat) (get : Nat → Byte) : Word :=
  (List.range n).foldl (fun acc k => acc ||| ((get k).setWidth 32 <<< (8 * lane bigEndian n k))) 0

/-- The bytes of a word as they lie in memory, the lowest address first (R62). -/
def bytesOf (bigEndian : Bool) (w : Word) : List Byte :=
  (List.range 4).map fun k => laneOf w (lane bigEndian 4 k)

/-- Decoding of bytes as they lie in memory: any bytes, of which the first four are the instruction (R62, R90). -/
def decodeBytes (bigEndian : Bool) (bytes : List Byte) : Decoded :=
  match bytes with
  | b0 :: b1 :: b2 :: b3 :: _ => decode (assemble bigEndian 4 fun k => [b0, b1, b2, b3].getD k 0)
  | _ => .refused .tooShort

/-- The instruction the decoder reads from an instruction whose bits are `w`, of which the table gives `nbits`; the
bits above are 0. The word is laid out in memory order (little-endian, the default of D3) and decoded from there. -/
def decodeTableWord (nbits w : Nat) : Option Instr :=
  match decodeBytes false (bytesOf false (BitVec.ofNat 32 (w % 2 ^ nbits))) with
  | .instr i => some i
  | _ => none

/-! ### The encoder (R92 to R102) -/

/-- Fields put side by side, the first highest, as a word. -/
def packed {n : Nat} (fields : BitVec n) : Word := fields.setWidth 32

/-- Bits 11:0 of format DP (R95). -/
def Operand2.bits (o : Operand2) : BitVec 12 :=
  match o with
  | .imm rot imm8 => rot ++ imm8
  | .shiftImm rm kind amount => amount ++ kind.num ++ 0#1 ++ rm.num
  | .shiftReg rm kind rs => rs.num ++ 0#1 ++ kind.num ++ 1#1 ++ rm.num

/-- The `I` bit of format DP (R94). -/
def Operand2.isImm (o : Operand2) : Bool :=
  match o with
  | .imm _ _ => true
  | _ => false

/-- Format DP (R94). -/
def encodeDp (c : Cond) (op : BitVec 4) (st : Bool) (rn rd : BitVec 4) (o : Operand2) : Word :=
  packed (c.num ++ (if o.isImm then 0b001#3 else 0b000#3) ++ op ++ BitVec.ofBool st ++ rn ++ rd ++ o.bits)

/-- Formats MUL and MULL (R96, R97), `op` being bits 24:21. -/
def encodeMul (c : Cond) (op : BitVec 4) (st : Bool) (hi lo : BitVec 4) (rs rm : Reg) : Word :=
  packed (c.num ++ 0b000#3 ++ op ++ BitVec.ofBool st ++ hi ++ lo ++ rs.num ++ 0b1001#4 ++ rm.num)

/-- The `P` bit of an addressing form (R223). -/
def Index.p (ix : Index) : BitVec 1 :=
  match ix with
  | .offset | .preIndexed => 1
  | .postIndexed => 0

/-- The `W` bit of an addressing form (R223). -/
def Index.w (ix : Index) : BitVec 1 :=
  match ix with
  | .preIndexed => 1
  | .offset | .postIndexed => 0

/-- Bit 25 of format LS: 1 for a register offset (R98). -/
def Offset.isReg (off : Offset) : Bool :=
  match off with
  | .imm _ => false
  | .reg _ _ _ => true

/-- Bits 11:0 of format LS (R98). -/
def Offset.bits (off : Offset) : BitVec 12 :=
  match off with
  | .imm imm12 => imm12
  | .reg rm kind amount => amount ++ kind.num ++ 0#1 ++ rm.num

/-- Format LS (R98), `byte` being bit 22 and `load` bit 20. -/
def encodeSingle (c : Cond) (byte load : Bool) (ix : Index) (up : Bool) (rd rn : Reg) (off : Offset) : Word :=
  packed (c.num ++ (if off.isReg then 0b011#3 else 0b010#3) ++ ix.p ++ BitVec.ofBool up ++ BitVec.ofBool byte ++
    ix.w ++ BitVec.ofBool load ++ rn.num ++ rd.num ++ off.bits)

/-- Bit 22 of format LSH: 1 for an immediate offset (R99). -/
def HalfOffset.isImm (off : HalfOffset) : Bool :=
  match off with
  | .imm _ => true
  | .reg _ => false

/-- Bits 11:8 of format LSH (R99). -/
def HalfOffset.high (off : HalfOffset) : BitVec 4 :=
  match off with
  | .imm imm8 => imm8.extractLsb' 4 4
  | .reg _ => 0

/-- Bits 3:0 of format LSH (R99). -/
def HalfOffset.low (off : HalfOffset) : BitVec 4 :=
  match off with
  | .imm imm8 => imm8.extractLsb' 0 4
  | .reg rm => rm.num

/-- Format LSH (R99), `load` being bit 20 and `sh` bits 6:5. -/
def encodeHalf (c : Cond) (load : Bool) (sh : BitVec 2) (ix : Index) (up : Bool) (rd rn : Reg) (off : HalfOffset) :
    Word :=
  packed (c.num ++ 0b000#3 ++ ix.p ++ BitVec.ofBool up ++ BitVec.ofBool off.isImm ++ ix.w ++ BitVec.ofBool load ++
    rn.num ++ rd.num ++ off.high ++ 1#1 ++ sh ++ 1#1 ++ off.low)

/-- Format LSM (R100), `p`, `u` and `load` being bits 24, 23 and 20. -/
def encodeBlock (c : Cond) (p u load wb : Bool) (rn : Reg) (list : BitVec 16) : Word :=
  packed (c.num ++ 0b100#3 ++ BitVec.ofBool p ++ BitVec.ofBool u ++ 0#1 ++ BitVec.ofBool wb ++ BitVec.ofBool load ++
    rn.num ++ list)

/-- The word of an instruction, from the formats of R92 to R102 with the SBZ and SBO bits as they should be (R114). -/
def encode (i : Instr) : Word :=
  match i with
  | .b c off => packed (c.num ++ 0b1010#4 ++ off)
  | .bl c off => packed (c.num ++ 0b1011#4 ++ off)
  | .and c st rd rn o => encodeDp c 0b0000#4 st rn.num rd.num o
  | .eor c st rd rn o => encodeDp c 0b0001#4 st rn.num rd.num o
  | .sub c st rd rn o => encodeDp c 0b0010#4 st rn.num rd.num o
  | .rsb c st rd rn o => encodeDp c 0b0011#4 st rn.num rd.num o
  | .add c st rd rn o => encodeDp c 0b0100#4 st rn.num rd.num o
  | .adc c st rd rn o => encodeDp c 0b0101#4 st rn.num rd.num o
  | .sbc c st rd rn o => encodeDp c 0b0110#4 st rn.num rd.num o
  | .rsc c st rd rn o => encodeDp c 0b0111#4 st rn.num rd.num o
  | .tst c rn o => encodeDp c 0b1000#4 true rn.num 0 o
  | .teq c rn o => encodeDp c 0b1001#4 true rn.num 0 o
  | .cmp c rn o => encodeDp c 0b1010#4 true rn.num 0 o
  | .cmn c rn o => encodeDp c 0b1011#4 true rn.num 0 o
  | .orr c st rd rn o => encodeDp c 0b1100#4 st rn.num rd.num o
  | .mov c st rd o => encodeDp c 0b1101#4 st 0 rd.num o
  | .bic c st rd rn o => encodeDp c 0b1110#4 st rn.num rd.num o
  | .mvn c st rd o => encodeDp c 0b1111#4 st 0 rd.num o
  | .mul c st rd rm rs => encodeMul c 0b0000#4 st rd.num 0 rs rm
  | .mla c st rd rm rs rn => encodeMul c 0b0001#4 st rd.num rn.num rs rm
  | .umull c st lo hi rm rs => encodeMul c 0b0100#4 st hi.num lo.num rs rm
  | .umlal c st lo hi rm rs => encodeMul c 0b0101#4 st hi.num lo.num rs rm
  | .smull c st lo hi rm rs => encodeMul c 0b0110#4 st hi.num lo.num rs rm
  | .smlal c st lo hi rm rs => encodeMul c 0b0111#4 st hi.num lo.num rs rm
  | .ldr c ix up rd rn off => encodeSingle c false true ix up rd rn off
  | .str c ix up rd rn off => encodeSingle c false false ix up rd rn off
  | .ldrb c ix up rd rn off => encodeSingle c true true ix up rd rn off
  | .strb c ix up rd rn off => encodeSingle c true false ix up rd rn off
  | .ldrh c ix up rd rn off => encodeHalf c true 0b01#2 ix up rd rn off
  | .strh c ix up rd rn off => encodeHalf c false 0b01#2 ix up rd rn off
  | .ldrsb c ix up rd rn off => encodeHalf c true 0b10#2 ix up rd rn off
  | .ldrsh c ix up rd rn off => encodeHalf c true 0b11#2 ix up rd rn off
  | .ldmia c wb rn list => encodeBlock c false true true wb rn list
  | .ldmib c wb rn list => encodeBlock c true true true wb rn list
  | .ldmda c wb rn list => encodeBlock c false false true wb rn list
  | .ldmdb c wb rn list => encodeBlock c true false true wb rn list
  | .stmia c wb rn list => encodeBlock c false true false wb rn list
  | .stmib c wb rn list => encodeBlock c true true false wb rn list
  | .stmda c wb rn list => encodeBlock c false false false wb rn list
  | .stmdb c wb rn list => encodeBlock c true false false wb rn list
  | .swi c number => packed (c.num ++ 0b1111#4 ++ number)
  | .mrs c spsr rd =>
      packed (c.num ++ 0b00010#5 ++ BitVec.ofBool spsr ++ 0b00#2 ++ 0b1111#4 ++ rd.num ++ 0#12)
  | .msrReg c spsr fields rm =>
      packed (c.num ++ 0b00010#5 ++ BitVec.ofBool spsr ++ 0b10#2 ++ fields ++ 0b1111#4 ++ 0#8 ++ rm.num)
  | .msrImm c spsr fields rot imm8 =>
      packed (c.num ++ 0b00110#5 ++ BitVec.ofBool spsr ++ 0b10#2 ++ fields ++ 0b1111#4 ++ rot ++ imm8)

end Sys2Proof
end

