-- ==== Sys2Proof/Machine/State.lean ====
section
/-! DEFINITION. The state of the machine as plain data (spec/10_state.md), the ways a step can stop, and the state
after reset (R48). -/

namespace Sys2Proof.Machine

/-- The seven processor modes (R39). -/
inductive Mode where
  | user | fiq | irq | supervisor | abort | undef | system
  deriving DecidableEq, Repr

/-- The exceptions a step can take (R300, R306). Reset is the initial state only (R305). -/
inductive Exc where
  | undefinedInstruction | softwareInterrupt | prefetchAbort | dataAbort | irq | fiq
  deriving DecidableEq, Repr

/-- The thirty general purpose registers (R22): the User bank under the plain names, the others under the name of
the mode that sees them. -/
inductive PhysReg where
  | r0 | r1 | r2 | r3 | r4 | r5 | r6 | r7 | r8 | r9 | r10 | r11 | r12
  | r8_fiq | r9_fiq | r10_fiq | r11_fiq | r12_fiq
  | r13 | r14
  | r13_fiq | r14_fiq
  | r13_irq | r14_irq
  | r13_svc | r14_svc
  | r13_und | r14_und
  | r13_abt | r14_abt
  deriving DecidableEq, Repr

/-- The contents of the thirty general purpose registers (R20, R22). -/
structure Regs where
  (r0 r1 r2 r3 r4 r5 r6 r7 r8 r9 r10 r11 r12 : Word)
  (r8_fiq r9_fiq r10_fiq r11_fiq r12_fiq : Word)
  (r13 r14 : Word)
  (r13_fiq r14_fiq : Word)
  (r13_irq r14_irq : Word)
  (r13_svc r14_svc : Word)
  (r13_und r14_und : Word)
  (r13_abt r14_abt : Word)
  deriving DecidableEq, Repr

/-- The five saved program status registers (R22, R40). -/
structure Spsrs where
  (fiq irq svc und abt : Word)
  deriving DecidableEq, Repr

/-- Memory: the listed bytes, addresses strictly rising, no listed byte equal to what an unlisted one reads as. -/
abbrev Memory := List Host.Cell

/-- The state: the 37 registers (R20), the memory (R60) and the environment's inputs (R47); `storedTo`, `draws`,
`params` and `envToCome` are the model's own fields, each with a log entry. -/
structure State where
  /-- The thirty general purpose registers (R22). -/
  regs : Regs
  /-- r15, the address of the instruction being executed (R28). -/
  pc : Word
  /-- The current program status register (R32, R33). -/
  cpsr : Word
  /-- The five saved program status registers (R40). -/
  spsr : Spsrs
  /-- The memory, launch image and stores (R48, R60, R73). -/
  mem : Memory
  /-- The addresses a store has written since the launch, strictly rising (R76; log 14). -/
  storedTo : List Nat
  /-- How many free bits have been drawn (R208; log 9). -/
  draws : Nat
  /-- The parameters of R8 that are fixed for a run (log 5). -/
  params : Params
  /-- What the environment presents during the coming step (R47, R70; log 6). -/
  env : Env
  /-- What the environment will present after that, one entry a step; with none left it stays as it is (log 6). -/
  envToCome : List Env
  deriving DecidableEq, Repr

/-- The machine stops because of where it reaches in the address space. -/
inductive Fault where
  /-- An access that does not abort to an address outside `MEM_MAP`, raised by a fetch, a load, a store or a block
  transfer (R68, D5). Safe. -/
  | unmapped (addr : Word)
  /-- A block transfer whose words would pass the top of the address space (R69, R261). Safe. -/
  | blockPastTop (start : Word)
  /-- An instruction at 0xFFFFFFFC that does not write r15: execution would run off the top (R31). Safe. -/
  | pcPastTop
  deriving DecidableEq, Repr

/-- The spec gives the case no meaning (R12 `REFUSE`). Every one is safe: the model stops where a chip may go on. -/
inductive Refusal where
  /-- An instruction whose meaning is not written; raised by `exec`. Safe. -/
  | notModelled (mnemonic : String)
  /-- The word at the pc is no instruction of the model; raised by `step` (R112, R114, R116, R118). Safe. -/
  | undecodable (why : Undecodable)
  /-- `CPSR[4:0]` is none of the seven modes (R49); raised by `step` and by every meaning. Safe. -/
  | illegalMode
  /-- `CPSR.T = 1` at the start of a step (R36, R45). Safe. -/
  | thumbState
  /-- `CPSR.J = 1` at the start of a step (R38, R45). Safe. -/
  | jazelleState
  /-- The pc is not word aligned at the start of a step (R28, R45). Safe. -/
  | pcMisaligned
  /-- A fetch of a byte that a store has written (R76). Safe. -/
  | fetchOfStored (addr : Word)
  /-- r15 in a data-processing instruction whose shift amount is in a register (R153). Safe. -/
  | pcInRegisterShift
  /-- A data-processing result with its low two bits not 0 would go to r15 (R31, R157, R158). Safe. -/
  | pcResultMisaligned
  /-- The `spsr` of User or System mode (R157, R285). Safe. -/
  | noSpsr
  /-- A write would set `CPSR.T` (R36, R157, R288). Safe. -/
  | wouldSetThumb
  /-- An exception return would set `CPSR.J` (R38, R157). Safe. -/
  | wouldSetJazelle
  /-- A write would put an illegal mode into `CPSR[4:0]` (R39, R157, R288). Safe. -/
  | wouldSetIllegalMode
  /-- A write would change a reserved bit of the `cpsr` (R42, R157, R288). Safe. -/
  | wouldChangeReserved
  /-- The operands of a multiply (R207). Safe. -/
  | multiplyOperands
  /-- The operands of a single register transfer (R227). Safe. -/
  | transferOperands
  /-- The operands of a block transfer (R264). Safe. -/
  | blockOperands
  /-- r15 as the general register of a PSR transfer (R287, R290). Safe. -/
  | psrTransferOfPc
  /-- A data access that is not naturally aligned (R65, R261). Safe. -/
  | misalignedAccess (addr : Word)
  deriving DecidableEq, Repr

/-- What a meaning answers. -/
abbrev Out := Host.Outcome State Fault Refusal

/-- The general registers after reset. DESIGN CHOICE (log 1): R48 gives them no value. -/
def Regs.zero : Regs :=
  { r0 := 0, r1 := 0, r2 := 0, r3 := 0, r4 := 0, r5 := 0, r6 := 0, r7 := 0,
    r8 := 0, r9 := 0, r10 := 0, r11 := 0, r12 := 0, r8_fiq := 0, r9_fiq := 0, r10_fiq := 0,
    r11_fiq := 0, r12_fiq := 0, r13 := 0, r14 := 0, r13_fiq := 0, r14_fiq := 0, r13_irq := 0, r14_irq := 0,
    r13_svc := 0, r14_svc := 0, r13_und := 0, r14_und := 0, r13_abt := 0, r14_abt := 0 }

/-- The saved status registers after reset. DESIGN CHOICE (log 1): R48 gives them no value. -/
def Spsrs.zero : Spsrs := { fiq := 0, irq := 0, svc := 0, und := 0, abt := 0 }

/-- The state after reset (R48, R350) under given parameters, environment and launch image: Supervisor mode, I = F = 1,
T = 0, the reserved bits 0, the pc at the Reset vector. N, Z, C and V are 0 by DESIGN CHOICE (log 1). -/
def State.resetFor (p : Params) (image : Memory) (env : Env) (toCome : List Env) : State :=
  { regs := Regs.zero, pc := p.vectorBase.addr + 0x00, cpsr := 0x000000D3, spsr := Spsrs.zero, mem := image,
    storedTo := [], draws := 0, params := p, env := env, envToCome := toCome }

/-- The state after reset with the defaults of R8, memory listing nothing and a quiet environment. -/
def State.reset : State := State.resetFor Params.default [] Env.quiet []

end Sys2Proof.Machine
end

