-- ==== Sys2Proof/Machine/Memory.lean ====
section
/-! DEFINITION. The named operations over memory: one byte read and written, the canonical form, and the set of
addresses stored to (spec/20_memory.md). -/

namespace Sys2Proof.Machine

/-- What a byte that is not listed reads as. DESIGN CHOICE (log 2): R48 and D5 leave the launch image to the
environment. -/
def unlisted : Byte := 0

/-- The byte at an address (R68, R73). -/
def Memory.read : Memory → Nat → Byte
  | [], _ => unlisted
  | (k, v) :: rest, a => if k = a then v else Memory.read rest a

/-- Memory with a byte written; the canonical form is kept. -/
def Memory.write : Memory → Nat → Byte → Memory
  | [], a, v => if v = unlisted then [] else [(a, v)]
  | (k, w) :: rest, a, v =>
    if a < k then (if v = unlisted then (k, w) :: rest else (a, v) :: (k, w) :: rest)
    else if a = k then (if v = unlisted then rest else (a, v) :: rest)
    else (k, w) :: Memory.write rest a v

/-- Whether every listed address of a memory is above `a`. -/
def Memory.above (a : Nat) : Memory → Bool
  | [] => true
  | (k, _) :: _ => decide (a < k)

/-- The canonical form: addresses in the address space (R60) and strictly rising, no listed byte equal to what an
unlisted one reads as. -/
def Memory.wf : Memory → Bool
  | [] => true
  | (k, v) :: rest => decide (k < 2 ^ 32) && v != unlisted && Memory.above k rest && Memory.wf rest

/-- A set of addresses, strictly rising, with one more address. -/
def insertAddr (a : Nat) : List Nat → List Nat
  | [] => [a]
  | k :: rest => if a < k then a :: k :: rest else if a = k then k :: rest else k :: insertAddr a rest

/-- Whether every listed address of a set is above `a`. -/
def addrsAbove (a : Nat) : List Nat → Bool
  | [] => true
  | k :: _ => decide (a < k)

/-- The canonical form of a set of addresses: in the address space and strictly rising. -/
def addrsWf : List Nat → Bool
  | [] => true
  | k :: rest => decide (k < 2 ^ 32) && addrsAbove k rest && addrsWf rest

/-- The `n` bytes of a value stored at `a` and up, `get k` at `a + k` (R62). -/
def Memory.writeBytes (m : Memory) (a n : Nat) (get : Nat → Byte) : Memory :=
  (List.range n).foldl (fun acc k => acc.write (a + k) (get k)) m

/-- The addresses `a` to `a + n - 1` put into a set. -/
def insertAddrs (a n : Nat) (l : List Nat) : List Nat :=
  (List.range n).foldl (fun acc k => insertAddr (a + k) acc) l

end Sys2Proof.Machine
end

