-- ==== Sys2Proof/Machine/Psr.lean ====
section
/-! DEFINITION. The fields of a program status register (spec/10_state.md R33 to R42). -/

namespace Sys2Proof.Machine

/-- The N flag, bit 31 (R33). -/
def psrN (p : Word) : Bool := p.getLsbD 31

/-- The Z flag, bit 30 (R33). -/
def psrZ (p : Word) : Bool := p.getLsbD 30

/-- The C flag, bit 29 (R33). -/
def psrC (p : Word) : Bool := p.getLsbD 29

/-- The V flag, bit 28 (R33). -/
def psrV (p : Word) : Bool := p.getLsbD 28

/-- The J bit, bit 24 (R38). -/
def psrJ (p : Word) : Bool := p.getLsbD 24

/-- The I bit, bit 7: IRQ disabled (R35). -/
def psrI (p : Word) : Bool := p.getLsbD 7

/-- The F bit, bit 6: FIQ disabled (R35). -/
def psrF (p : Word) : Bool := p.getLsbD 6

/-- The T bit, bit 5 (R36). -/
def psrT (p : Word) : Bool := p.getLsbD 5

/-- The mode bits 4:0 (R39). -/
def psrModeBits (p : Word) : BitVec 5 := p.extractLsb' 0 5

/-- The five-bit value of a mode (R39). -/
def Mode.bits (m : Mode) : BitVec 5 :=
  match m with
  | .user => 0b10000#5
  | .fiq => 0b10001#5
  | .irq => 0b10010#5
  | .supervisor => 0b10011#5
  | .abort => 0b10111#5
  | .undef => 0b11011#5
  | .system => 0b11111#5

/-- The mode of a five-bit value; any other value is an illegal mode (R39). -/
def Mode.ofBits (b : BitVec 5) : Option Mode :=
  match b.toNat with
  | 0b10000 => some .user
  | 0b10001 => some .fiq
  | 0b10010 => some .irq
  | 0b10011 => some .supervisor
  | 0b10111 => some .abort
  | 0b11011 => some .undef
  | 0b11111 => some .system
  | _ => none

/-- The mode of a status register, if its mode bits are legal (R39). -/
def psrMode (p : Word) : Option Mode := Mode.ofBits (psrModeBits p)

/-- Whether a mode has an `spsr` (R39, R40). -/
def Mode.hasSpsr (m : Mode) : Bool :=
  match m with
  | .user | .system => false
  | _ => true

/-- The reserved bits of a status register: 27, 26:25, 24 and 23:8 (R42). -/
def psrReserved (p : Word) : BitVec 20 := p.extractLsb' 8 20

/-- A status register with its flags replaced (R33). -/
def psrSetFlags (n z c v : Bool) (p : Word) : Word :=
  packed (BitVec.ofBool n ++ BitVec.ofBool z ++ BitVec.ofBool c ++ BitVec.ofBool v ++ p.extractLsb' 0 28)

/-- The bytes of a status register that a field mask names (R41, R286): `f`, `s`, `x`, `c` from bit 3 down. -/
def byteMask (fields : BitVec 4) : Word :=
  (if fields.getLsbD 3 then 0xFF000000#32 else 0) ||| (if fields.getLsbD 2 then 0x00FF0000#32 else 0) |||
    (if fields.getLsbD 1 then 0x0000FF00#32 else 0) ||| (if fields.getLsbD 0 then 0x000000FF#32 else 0)

/-- A status register with the bits of a mask taken from an operand (R288, R289). -/
def psrMerge (p operand mask : Word) : Word := (p &&& ~~~mask) ||| (operand &&& mask)

end Sys2Proof.Machine
end

