-- ==== Sys2Proof/Machine/Registers.lean ====
section
/-! DEFINITION. The register file: which physical register a name means in a mode, and the one operation that reads
and the one that writes it (spec/10_state.md R22 to R25). -/

namespace Sys2Proof.Machine

/-- The physical register that a register name means in a mode; r15 is not banked and is none of the thirty (R24). -/
def physReg (r : Reg) (m : Mode) : Option PhysReg :=
  match r, m with
  | .r0, _ => some .r0
  | .r1, _ => some .r1
  | .r2, _ => some .r2
  | .r3, _ => some .r3
  | .r4, _ => some .r4
  | .r5, _ => some .r5
  | .r6, _ => some .r6
  | .r7, _ => some .r7
  | .r8, .fiq => some .r8_fiq
  | .r8, _ => some .r8
  | .r9, .fiq => some .r9_fiq
  | .r9, _ => some .r9
  | .r10, .fiq => some .r10_fiq
  | .r10, _ => some .r10
  | .r11, .fiq => some .r11_fiq
  | .r11, _ => some .r11
  | .r12, .fiq => some .r12_fiq
  | .r12, _ => some .r12
  | .r13, .user => some .r13
  | .r13, .system => some .r13
  | .r13, .fiq => some .r13_fiq
  | .r13, .irq => some .r13_irq
  | .r13, .supervisor => some .r13_svc
  | .r13, .undef => some .r13_und
  | .r13, .abort => some .r13_abt
  | .r14, .user => some .r14
  | .r14, .system => some .r14
  | .r14, .fiq => some .r14_fiq
  | .r14, .irq => some .r14_irq
  | .r14, .supervisor => some .r14_svc
  | .r14, .undef => some .r14_und
  | .r14, .abort => some .r14_abt
  | .r15, _ => none

/-- The contents of a physical register. -/
def Regs.read (s : Regs) (p : PhysReg) : Word :=
  match p with
  | .r0 => s.r0
  | .r1 => s.r1
  | .r2 => s.r2
  | .r3 => s.r3
  | .r4 => s.r4
  | .r5 => s.r5
  | .r6 => s.r6
  | .r7 => s.r7
  | .r8 => s.r8
  | .r9 => s.r9
  | .r10 => s.r10
  | .r11 => s.r11
  | .r12 => s.r12
  | .r8_fiq => s.r8_fiq
  | .r9_fiq => s.r9_fiq
  | .r10_fiq => s.r10_fiq
  | .r11_fiq => s.r11_fiq
  | .r12_fiq => s.r12_fiq
  | .r13 => s.r13
  | .r14 => s.r14
  | .r13_fiq => s.r13_fiq
  | .r14_fiq => s.r14_fiq
  | .r13_irq => s.r13_irq
  | .r14_irq => s.r14_irq
  | .r13_svc => s.r13_svc
  | .r14_svc => s.r14_svc
  | .r13_und => s.r13_und
  | .r14_und => s.r14_und
  | .r13_abt => s.r13_abt
  | .r14_abt => s.r14_abt

/-- The register file with one physical register written. -/
def Regs.write (s : Regs) (p : PhysReg) (v : Word) : Regs :=
  match p with
  | .r0 => { s with r0 := v }
  | .r1 => { s with r1 := v }
  | .r2 => { s with r2 := v }
  | .r3 => { s with r3 := v }
  | .r4 => { s with r4 := v }
  | .r5 => { s with r5 := v }
  | .r6 => { s with r6 := v }
  | .r7 => { s with r7 := v }
  | .r8 => { s with r8 := v }
  | .r9 => { s with r9 := v }
  | .r10 => { s with r10 := v }
  | .r11 => { s with r11 := v }
  | .r12 => { s with r12 := v }
  | .r8_fiq => { s with r8_fiq := v }
  | .r9_fiq => { s with r9_fiq := v }
  | .r10_fiq => { s with r10_fiq := v }
  | .r11_fiq => { s with r11_fiq := v }
  | .r12_fiq => { s with r12_fiq := v }
  | .r13 => { s with r13 := v }
  | .r14 => { s with r14 := v }
  | .r13_fiq => { s with r13_fiq := v }
  | .r14_fiq => { s with r14_fiq := v }
  | .r13_irq => { s with r13_irq := v }
  | .r14_irq => { s with r14_irq := v }
  | .r13_svc => { s with r13_svc := v }
  | .r14_svc => { s with r14_svc := v }
  | .r13_und => { s with r13_und := v }
  | .r14_und => { s with r14_und := v }
  | .r13_abt => { s with r13_abt := v }
  | .r14_abt => { s with r14_abt := v }

/-- The `spsr` of a mode; User and System mode have none (R24, R40). -/
def Spsrs.read (s : Spsrs) (m : Mode) : Option Word :=
  match m with
  | .fiq => some s.fiq
  | .irq => some s.irq
  | .supervisor => some s.svc
  | .undef => some s.und
  | .abort => some s.abt
  | .user | .system => none

/-- The saved status registers with that of a mode written; User and System mode have none to write (R24). -/
def Spsrs.write (s : Spsrs) (m : Mode) (v : Word) : Spsrs :=
  match m with
  | .fiq => { s with fiq := v }
  | .irq => { s with irq := v }
  | .supervisor => { s with svc := v }
  | .undef => { s with und := v }
  | .abort => { s with abt := v }
  | .user | .system => s

end Sys2Proof.Machine
end

