-- ==== Sys2Proof/Machine/Ops.lean ====
section
/-! DEFINITION. The named operations the meanings share: state updates, registers as the current mode sees them, the
pc, memory accesses, taking an exception and returning from one. -/

namespace Sys2Proof.Machine

/-! ### State updates -/

/-- The state with another register file. -/
def State.setRegs (s : State) (v : Regs) : State := { s with regs := v }

/-- The state with another pc. -/
def State.setPc (s : State) (v : Word) : State := { s with pc := v }

/-- The state with another `cpsr`. -/
def State.setCpsr (s : State) (v : Word) : State := { s with cpsr := v }

/-- The state with other saved status registers. -/
def State.setSpsr (s : State) (v : Spsrs) : State := { s with spsr := v }

/-- The state with another memory and another set of addresses stored to. -/
def State.setMem (s : State) (m : Memory) (stored : List Nat) : State := { s with mem := m, storedTo := stored }

/-- The state with another count of drawn bits. -/
def State.setDraws (s : State) (n : Nat) : State := { s with draws := n }

/-- The state with another environment. -/
def State.setEnv (s : State) (e : Env) (es : List Env) : State := { s with env := e, envToCome := es }

/-! ### Registers as the current mode sees them -/

/-- The current mode (R39); a state with illegal mode bits has none (R49). -/
def State.mode (s : State) : Option Mode := psrMode s.cpsr

/-- The operand read `rd(i)` of R10: the register the mode sees, and `pc + 8` for r15 (R24, R29), modulo 2^32 (DEDUCED,
log 12). -/
def State.rd (s : State) (m : Mode) (r : Reg) : Word :=
  match physReg r m with
  | some p => s.regs.read p
  | none => s.pc + 8

/-- The write `x[i] <- v` of R10 to the register the mode sees (R24). No rule writes r15 this way. -/
def State.setReg (s : State) (m : Mode) (r : Reg) (v : Word) : State :=
  match physReg r m with
  | some p => s.setRegs (s.regs.write p v)
  | none => s

/-! ### The pc -/

/-- The end of an instruction that does not write r15: `pc <- pc + 4`, which may not pass the top (R30, R31). -/
def State.advance (s : State) : Out :=
  if s.pc.toNat + 4 < 2 ^ 32 then .next (s.setPc (s.pc + 4)) else .fault .pcPastTop

/-- A word address: the two low bits cleared (R31, R232, R266). -/
def wordAligned (v : Word) : Word := v &&& 0xFFFFFFFC#32

/-- Whether an address is aligned to a number of bytes (R64). -/
def isAligned (addr : Word) (n : Nat) : Bool := addr.toNat % n == 0

/-! ### Taking an exception (R301, R306) -/

/-- The mode an exception enters. -/
def Exc.mode (e : Exc) : Mode :=
  match e with
  | .undefinedInstruction => .undef
  | .softwareInterrupt => .supervisor
  | .prefetchAbort | .dataAbort => .abort
  | .irq => .irq
  | .fiq => .fiq

/-- What is added to the instruction's address to give the link value. -/
def Exc.lrOffset (e : Exc) : Word :=
  match e with
  | .dataAbort => 8
  | _ => 4

/-- The offset of an exception's vector. -/
def Exc.vector (e : Exc) : Word :=
  match e with
  | .undefinedInstruction => 0x04
  | .softwareInterrupt => 0x08
  | .prefetchAbort => 0x0C
  | .dataAbort => 0x10
  | .irq => 0x18
  | .fiq => 0x1C

/-- The `cpsr` an exception leaves: its mode, T = 0, I = 1, F = 1 for FIQ only, every other bit as it was. -/
def entryPsr (e : Exc) (old : Word) : Word :=
  packed (old.extractLsb' 8 24 ++ 1#1 ++ BitVec.ofBool (psrF old || e == .fiq) ++ 0#1 ++ e.mode.bits)

/-- `raise E` (R302, R306): the link value into the r14 and the old `cpsr` into the `spsr` of the mode entered, the new
`cpsr`, and the pc at the vector. The link value is taken modulo 2^32 (DEDUCED, log 12). -/
def State.raise (s : State) (e : Exc) : State :=
  (((s.setReg e.mode .r14 (s.pc + e.lrOffset)).setSpsr (s.spsr.write e.mode s.cpsr)).setCpsr
    (entryPsr e s.cpsr)).setPc (s.params.vectorBase.addr + e.vector)

/-! ### Returning from an exception (R157, R303, R316) -/

/-- A data-processing instruction with `S = 1` and destination r15: the `spsr` of the current mode becomes the `cpsr`
and the result the pc (R157). -/
def State.exceptionReturn (s : State) (m : Mode) (result : Word) : Out :=
  match s.spsr.read m with
  | none => .refused .noSpsr
  | some new =>
    if psrT new then .refused .wouldSetThumb
    else if psrJ new then .refused .wouldSetJazelle
    else if (psrMode new).isNone then .refused .wouldSetIllegalMode
    else if psrReserved new != psrReserved s.cpsr then .refused .wouldChangeReserved
    else if !isAligned result 4 then .refused .pcResultMisaligned
    else .next ((s.setCpsr new).setPc result)

/-! ### Memory accesses (spec/20_memory.md) -/

/-- The number of bytes of an access (R66). -/
def sizeBytes (sz : Size) : Nat :=
  match sz with
  | .byte => 1
  | .half => 2
  | .word => 4

/-- The oracle `ABORT(addr, n, kind)` in the current privilege (R70, R319). -/
def State.aborts (s : State) (kind : AccessKind) (addr : Word) (sz : Size) : Bool :=
  s.env.aborts.any fun row =>
    row.kind == kind && row.size == sz && decide (row.first.toNat ≤ addr.toNat) &&
      decide (addr.toNat ≤ row.last.toNat) &&
      (if s.mode == some .user then row.inUser else row.inPrivileged)

/-- Whether `MEM_MAP` admits one byte address (R68, D5). -/
def mapAdmits (map : List Region) (a : Nat) : Bool :=
  map.any fun r => decide (r.first.toNat ≤ a) && decide (a ≤ r.last.toNat)

/-- Whether `MEM_MAP` admits the `n` bytes from an address up. -/
def State.admits (s : State) (addr : Word) (n : Nat) : Bool :=
  (List.range n).all fun k => mapAdmits s.params.memMap (addr.toNat + k)

/-- What an access comes to: done, aborted (R70), or stopped (R68). -/
inductive Attempt (α : Type) where
  | done (a : α)
  | abort
  | fault (f : Fault)
  deriving DecidableEq, Repr

/-- The value of `n` bytes from an address up, in the byte order of the machine, zero-extended (R62). -/
def State.peek (s : State) (addr : Word) (n : Nat) : Word :=
  assemble s.params.bigEndian n fun k => s.mem.read (addr.toNat + k)

/-- The state with `n` bytes of a value stored from an address up (R62), which the fetch will know of (R76). -/
def State.poke (s : State) (addr : Word) (n : Nat) (v : Word) : State :=
  s.setMem (s.mem.writeBytes addr.toNat n fun k => laneOf v (lane s.params.bigEndian n k))
    (insertAddrs addr.toNat n s.storedTo)

/-- `MemRead` of R10 for a load: the oracle first (R70), then `MEM_MAP` (R68). -/
def State.load (s : State) (addr : Word) (sz : Size) : Attempt Word :=
  if s.aborts .read addr sz then .abort
  else if s.admits addr (sizeBytes sz) then .done (s.peek addr (sizeBytes sz))
  else .fault (.unmapped addr)

/-- `MemWrite` of R10: the oracle first (R70), then `MEM_MAP` (R68). -/
def State.store (s : State) (addr : Word) (sz : Size) (v : Word) : Attempt State :=
  if s.aborts .write addr sz then .abort
  else if s.admits addr (sizeBytes sz) then .done (s.poke addr (sizeBytes sz) v)
  else .fault (.unmapped addr)

/-- The value stored for a register: for r15 the instruction's address plus `PC_STORE_OFFSET` (R231, R267). DESIGN CHOICE
(log 18): the two rules do not say what the sum is where it passes the top of the address space; it is taken modulo
2^32. -/
def State.storeValue (s : State) (m : Mode) (r : Reg) : Word :=
  if r = .r15 then s.pc + s.params.pcStoreOffset.value else s.rd m r

end Sys2Proof.Machine
end

