-- ==== Sys2Proof/Machine/Flags.lean ====
section
/-! DEFINITION. The condition test and every flag computation (spec/40_conditional_execution.md,
spec/42_data_processing.md R156, spec/43_multiply.md R208). -/

namespace Sys2Proof.Machine

/-- `ConditionPassed(c)` on the flags of a `cpsr` (R132). -/
def conditionPassed (c : Cond) (p : Word) : Bool :=
  match c with
  | .eq => psrZ p
  | .ne => !psrZ p
  | .cs => psrC p
  | .cc => !psrC p
  | .mi => psrN p
  | .pl => !psrN p
  | .vs => psrV p
  | .vc => !psrV p
  | .hi => psrC p && !psrZ p
  | .ls => !psrC p || psrZ p
  | .ge => psrN p == psrV p
  | .lt => psrN p != psrV p
  | .gt => !psrZ p && psrN p == psrV p
  | .le => psrZ p || psrN p != psrV p
  | .al => true

/-- What every instruction does first (R131): in a legal mode (R49), with its condition passed, `body`; with its
condition failed, nothing but `pc <- pc + 4`. -/
def whenPassed (c : Cond) (s : State) (body : Mode → Out) : Out :=
  match s.mode with
  | none => .refused .illegalMode
  | some m => if conditionPassed c s.cpsr then body m else s.advance

/-- A result with the C and V flags that go with it. -/
structure AluOut where
  result : Word
  carry : Bool
  overflow : Bool
  deriving DecidableEq, Repr

/-- `AddWithCarry(x, y, cin)` over the integers (R156). -/
def addWithCarry (x y : Word) (cin : Bool) : AluOut :=
  let usum := x.toNat + y.toNat + cin.toNat
  let ssum := x.toInt + y.toInt + (cin.toNat : Int)
  let result := BitVec.ofNat 32 usum
  { result := result, carry := decide (2 ^ 32 ≤ usum), overflow := decide (result.toInt ≠ ssum) }

/-- A logical operation's result: C is the shifter's carry-out and V stays (R156). -/
def logical (result : Word) (shifterCarry : Bool) (p : Word) : AluOut :=
  { result := result, carry := shifterCarry, overflow := psrV p }

/-- The flags of a data-processing instruction written into the `cpsr` (R44, R156). -/
def State.setAluFlags (s : State) (o : AluOut) : State :=
  s.setCpsr (psrSetFlags o.result.msb (o.result == 0) o.carry o.overflow s.cpsr)

/-- The flags of `MULS` and `MLAS`: N and Z from the result, C drawn, V unchanged (R208). -/
def State.setMulFlags (s : State) (result : Word) : State :=
  (s.setCpsr (psrSetFlags result.msb (result == 0) (Config.freeBit s.draws) (psrV s.cpsr) s.cpsr)).setDraws
    (s.draws + 1)

/-- The flags of a long multiply with `S`: N and Z from the 64-bit result, C and V drawn (R208). -/
def State.setMulLongFlags (s : State) (result : BitVec 64) : State :=
  (s.setCpsr (psrSetFlags result.msb (result == 0) (Config.freeBit s.draws) (Config.freeBit (s.draws + 1))
    s.cpsr)).setDraws (s.draws + 2)

end Sys2Proof.Machine
end

