-- ==== Sys2Proof/Machine/Restrictions.lean ====
section
/-! DEFINITION. The operand restrictions of the instruction rules: the combinations the spec calls UNPREDICTABLE
and refuses (spec/92_eei_decisions.md D14). Each predicate is true of a combination that is refused. -/

namespace Sys2Proof

/-- Operand2 in form 3 with r15 as its `Rm`, its `Rs` or one of the other registers `others` the instruction names
(R153: `Rd`, `Rn`, `Rm` or `Rs`). Forms 1 and 2 have no restriction (R155). -/
def Operand2.pcMisuse (others : List Reg) : Operand2 → Bool
  | .shiftReg rm _ rs => rm == .r15 || rs == .r15 || others.contains .r15
  | _ => false

/-- `MUL` and `MLA` (R207): a register field is 15, or `Rd = Rm`. `accumulate` is `MLA`'s `Rn`. -/
def mulMisuse (rd rm rs : Reg) (accumulate : Option Reg) : Bool :=
  rd == .r15 || rm == .r15 || rs == .r15 || accumulate == some .r15 || rd == rm

/-- The long multiplies (R207): a register field is 15, or `RdHi = RdLo`, `RdHi = Rm` or `RdLo = Rm`. -/
def mulLongMisuse (rdLo rdHi rm rs : Reg) : Bool :=
  rdLo == .r15 || rdHi == .r15 || rm == .r15 || rs == .r15 || rdHi == rdLo || rdHi == rm || rdLo == rm

/-- Whether an addressing form writes the base register back (R223, R224). -/
def Index.writesBack : Index → Bool
  | .offset => false
  | .preIndexed | .postIndexed => true

/-- The offset register of a word or byte transfer, if it has one. -/
def Offset.reg? : Offset → Option Reg
  | .imm _ => none
  | .reg rm _ _ => some rm

/-- The offset register of a halfword or signed transfer, if it has one. -/
def HalfOffset.reg? : HalfOffset → Option Reg
  | .imm _ => none
  | .reg rm => some rm

/-- The single register transfers (R227), the last row apart: write-back with `Rn = 15` or `Rn = Rd`, a register
offset with `Rm = 15`, write-back and a register offset with `Rm = Rn`. -/
def transferMisuse (ix : Index) (rd rn : Reg) (rm : Option Reg) : Bool :=
  (ix.writesBack && (rn == .r15 || rn == rd || rm == some rn)) || rm == some .r15

/-- The byte, halfword and signed transfers (R227): those of `transferMisuse`, and `Rd = 15`. -/
def narrowTransferMisuse (ix : Index) (rd rn : Reg) (rm : Option Reg) : Bool :=
  transferMisuse ix rd rn rm || rd == .r15

/-- All register names, ascending. -/
def Reg.all : List Reg :=
  [.r0, .r1, .r2, .r3, .r4, .r5, .r6, .r7, .r8, .r9, .r10, .r11, .r12, .r13, .r14, .r15]

/-- The position of a register's bit in a register list, and its number (R100, R111). -/
def Reg.index : Reg → Nat
  | .r0 => 0 | .r1 => 1 | .r2 => 2 | .r3 => 3 | .r4 => 4 | .r5 => 5 | .r6 => 6 | .r7 => 7
  | .r8 => 8 | .r9 => 9 | .r10 => 10 | .r11 => 11 | .r12 => 12 | .r13 => 13 | .r14 => 14 | .r15 => 15

/-- Whether a register is in a register list (R100). -/
def inList (list : BitVec 16) (r : Reg) : Bool := list.getLsbD r.index

/-- The registers of a list, ascending (R107, R262). -/
def regsOf (list : BitVec 16) : List Reg := Reg.all.filter (inList list)

/-- `LDM` (R264): an empty list, `Rn = 15`, or write-back with `Rn` in the list. -/
def ldmMisuse (wb : Bool) (rn : Reg) (list : BitVec 16) : Bool :=
  list == 0 || rn == .r15 || (wb && inList list rn)

/-- `STM` (R264): an empty list, `Rn = 15`, or write-back with `Rn` in the list and not the lowest in it. -/
def stmMisuse (wb : Bool) (rn : Reg) (list : BitVec 16) : Bool :=
  list == 0 || rn == .r15 || (wb && inList list rn && (regsOf list).head? != some rn)

end Sys2Proof
end

