-- ==== Sys2Proof/Machine/Operands.lean ====
section
/-! DEFINITION. Every operand form: the barrel shifter and Operand2 (spec/42_data_processing.md R151 to R154), the
offsets and addresses of the single transfers (spec/44_load_store.md R221 to R224), the addresses of the block
transfers (spec/45_block_transfer.md R261), the branch offset (R104). -/

namespace Sys2Proof.Machine

/-- A shifted value and the carry the shifter puts out. -/
structure Shifted where
  value : Word
  carry : Bool
  deriving DecidableEq, Repr

/-- A word of 32 equal bits. -/
def fill (b : Bool) : Word := if b then 0xFFFFFFFF else 0

/-- A rotated 8-bit immediate (R103, R109). -/
def rotatedImm (rot : BitVec 4) (imm8 : BitVec 8) : Word := (imm8.setWidth 32).rotateRight (2 * rot.toNat)

/-- Operand2 in form 1 (R151). -/
def shiftOfImm (rot : BitVec 4) (imm8 : BitVec 8) (carryIn : Bool) : Shifted :=
  let v := rotatedImm rot imm8
  { value := v, carry := if rot == 0 then carryIn else v.msb }

/-- Operand2 in form 2, by the table of R152. -/
def shiftByImm (kind : ShiftKind) (v : Word) (amount : BitVec 5) (carryIn : Bool) : Shifted :=
  let n := amount.toNat
  match kind with
  | .lsl => if n = 0 then ⟨v, carryIn⟩ else ⟨v <<< n, v.getLsbD (32 - n)⟩
  | .lsr => if n = 0 then ⟨0, v.msb⟩ else ⟨v >>> n, v.getLsbD (n - 1)⟩
  | .asr => if n = 0 then ⟨fill v.msb, v.msb⟩ else ⟨v.sshiftRight n, v.getLsbD (n - 1)⟩
  | .ror =>
    if n = 0 then ⟨packed (BitVec.ofBool carryIn ++ v.extractLsb' 1 31), v.getLsbD 0⟩
    else ⟨v.rotateRight n, v.getLsbD (n - 1)⟩

/-- Operand2 in form 3, by the table of R153; `n` is the low byte of `Rs`. -/
def shiftByReg (kind : ShiftKind) (v : Word) (n : Nat) (carryIn : Bool) : Shifted :=
  if n = 0 then ⟨v, carryIn⟩
  else
    match kind with
    | .lsl =>
      if n < 32 then ⟨v <<< n, v.getLsbD (32 - n)⟩ else if n = 32 then ⟨0, v.getLsbD 0⟩ else ⟨0, false⟩
    | .lsr => if n < 32 then ⟨v >>> n, v.getLsbD (n - 1)⟩ else if n = 32 then ⟨0, v.msb⟩ else ⟨0, false⟩
    | .asr => if n < 32 then ⟨v.sshiftRight n, v.getLsbD (n - 1)⟩ else ⟨fill v.msb, v.msb⟩
    | .ror => if n % 32 = 0 then ⟨v, v.msb⟩ else ⟨v.rotateRight (n % 32), v.getLsbD (n % 32 - 1)⟩

/-- Operand2 and its carry-out (R151 to R153, R155). -/
def State.operand2 (s : State) (m : Mode) (o : Operand2) : Shifted :=
  match o with
  | .imm rot imm8 => shiftOfImm rot imm8 (psrC s.cpsr)
  | .shiftImm rm kind amount => shiftByImm kind (s.rd m rm) amount (psrC s.cpsr)
  | .shiftReg rm kind rs => shiftByReg kind (s.rd m rm) ((s.rd m rs).toNat % 256) (psrC s.cpsr)

/-- The offset of a word or unsigned byte transfer (R105, R221). -/
def State.offset (s : State) (m : Mode) (off : Offset) : Word :=
  match off with
  | .imm imm12 => imm12.setWidth 32
  | .reg rm kind amount => (shiftByImm kind (s.rd m rm) amount (psrC s.cpsr)).value

/-- The offset of a halfword or signed transfer (R105, R222). -/
def State.halfOffset (s : State) (m : Mode) (off : HalfOffset) : Word :=
  match off with
  | .imm imm8 => imm8.setWidth 32
  | .reg rm => s.rd m rm

/-- The base with the offset added or subtracted (R224). -/
def indexed (up : Bool) (base off : Word) : Word := if up then base + off else base - off

/-- The address accessed: `sum` before, or the base after (R223, R224). -/
def accessAddr (ix : Index) (base sum : Word) : Word :=
  match ix with
  | .offset | .preIndexed => sum
  | .postIndexed => base

/-- The four block addressing modes (R260). -/
inductive BlockMode where
  | ia | ib | da | db
  deriving DecidableEq, Repr

/-- The lowest address of a block of `n` words (R261). -/
def blockStart (bm : BlockMode) (b : Word) (n : Nat) : Word :=
  match bm with
  | .ia => b
  | .ib => b + 4
  | .da => b - BitVec.ofNat 32 (4 * n) + 4
  | .db => b - BitVec.ofNat 32 (4 * n)

/-- The value a block transfer of `n` words writes back (R261, R263). -/
def blockWriteBack (bm : BlockMode) (b : Word) (n : Nat) : Word :=
  match bm with
  | .ia | .ib => b + BitVec.ofNat 32 (4 * n)
  | .da | .db => b - BitVec.ofNat 32 (4 * n)

/-- The target of a branch at `pc` (R104, R143). -/
def branchTarget (pc : Word) (offset : BitVec 24) : Word := pc + 8 + (offset ++ 0b00#2).signExtend 32

end Sys2Proof.Machine
end

