-- ==== Sys2Proof/Machine/BlockTransfer.lean ====
section
/-! DEFINITION. The meanings of the eight block transfers (spec/45_block_transfer.md). -/

namespace Sys2Proof.Machine

/-- How the loop of R265 ends: all words transferred, with the word for r15 if it was loaded; aborted with the words
below transferred (R268); or stopped by an address outside `MEM_MAP` (R68). -/
inductive BlockEnd where
  | done (s : State) (newPc : Option Word)
  | abort (s : State)
  | fault (f : Fault)
  deriving DecidableEq, Repr

/-- The loop of R265 for `LDM`, over the listed registers ascending: one word each, at ascending addresses (R262);
r15 is kept for the end (R266). -/
def loadWords (m : Mode) : List Reg → Word → State → BlockEnd
  | [], _, s => .done s none
  | r :: rest, addr, s =>
    match s.load addr .word with
    | .abort => .abort s
    | .fault f => .fault f
    | .done v =>
      if r = .r15 then .done s (some (wordAligned v))
      else loadWords m rest (addr + 4) (s.setReg m r v)

/-- The loop of R265 for `STM`, over the listed registers ascending: one word each, at ascending addresses (R262). -/
def storeWords (m : Mode) : List Reg → Word → State → BlockEnd
  | [], _, s => .done s none
  | r :: rest, addr, s =>
    match s.store addr .word (s.storeValue m r) with
    | .abort => .abort s
    | .fault f => .fault f
    | .done t => storeWords m rest (addr + 4) t

/-- The base register at the entry of a Data Abort (R268): with `W = 1` as `ABORT_BASE` says, otherwise its original
value, also where an `LDM` had loaded it. -/
def abortBaseValue (ab : AbortBase) (wb : Bool) (b written : Word) : Word :=
  match ab with
  | .restored => b
  | .updated => if wb then written else b

/-- The end of a block transfer (R265, R266, R268): Data Abort, or the write-back and then the pc. -/
def finishBlock (m : Mode) (wb : Bool) (rn : Reg) (b written : Word) (e : BlockEnd) : Out :=
  match e with
  | .fault f => .fault f
  | .abort t => .next ((t.setReg m rn (abortBaseValue t.params.abortBase wb b written)).raise .dataAbort)
  | .done t newPc =>
    let u := if wb then t.setReg m rn written else t
    match newPc with
    | some a => .next (u.setPc a)
    | none => u.advance

/-- A block transfer (R261, R265): the restrictions, the alignment of the base and the top of the address space, then
the loop over the listed registers from the lowest address, then its end. -/
def blockTransfer (c : Cond) (bm : BlockMode) (wb : Bool) (rn : Reg) (list : BitVec 16) (misuse : Bool) (s : State)
    (loop : Mode → List Reg → Word → State → BlockEnd) : Out :=
  whenPassed c s fun m =>
    if misuse then .refused .blockOperands
    else
      let b := s.rd m rn
      let rs := regsOf list
      let start := blockStart bm b rs.length
      if !isAligned b 4 then .refused (.misalignedAccess b)
      else if 2 ^ 32 < start.toNat + 4 * rs.length then .fault (.blockPastTop start)
      else finishBlock m wb rn b (blockWriteBack bm b rs.length) (loop m rs start s)

/-- `LDMIA` (R270): load, increment after. -/
def execLdmia (c : Cond) (wb : Bool) (rn : Reg) (list : BitVec 16) (s : State) : Out :=
  blockTransfer c .ia wb rn list (ldmMisuse wb rn list) s loadWords

/-- `LDMIB` (R271): load, increment before. -/
def execLdmib (c : Cond) (wb : Bool) (rn : Reg) (list : BitVec 16) (s : State) : Out :=
  blockTransfer c .ib wb rn list (ldmMisuse wb rn list) s loadWords

/-- `LDMDA` (R272): load, decrement after. -/
def execLdmda (c : Cond) (wb : Bool) (rn : Reg) (list : BitVec 16) (s : State) : Out :=
  blockTransfer c .da wb rn list (ldmMisuse wb rn list) s loadWords

/-- `LDMDB` (R273): load, decrement before. -/
def execLdmdb (c : Cond) (wb : Bool) (rn : Reg) (list : BitVec 16) (s : State) : Out :=
  blockTransfer c .db wb rn list (ldmMisuse wb rn list) s loadWords

/-- `STMIA` (R274): store, increment after. -/
def execStmia (c : Cond) (wb : Bool) (rn : Reg) (list : BitVec 16) (s : State) : Out :=
  blockTransfer c .ia wb rn list (stmMisuse wb rn list) s storeWords

/-- `STMIB` (R275): store, increment before. -/
def execStmib (c : Cond) (wb : Bool) (rn : Reg) (list : BitVec 16) (s : State) : Out :=
  blockTransfer c .ib wb rn list (stmMisuse wb rn list) s storeWords

/-- `STMDA` (R276): store, decrement after. -/
def execStmda (c : Cond) (wb : Bool) (rn : Reg) (list : BitVec 16) (s : State) : Out :=
  blockTransfer c .da wb rn list (stmMisuse wb rn list) s storeWords

/-- `STMDB` (R277): store, decrement before. -/
def execStmdb (c : Cond) (wb : Bool) (rn : Reg) (list : BitVec 16) (s : State) : Out :=
  blockTransfer c .db wb rn list (stmMisuse wb rn list) s storeWords

end Sys2Proof.Machine
end

