-- ==== Sys2Proof/Machine/Branch.lean ====
section
/-! DEFINITION. The meanings of `B` and `BL` (spec/41_branch.md) and of `SWI` (spec/46_swi.md). -/

namespace Sys2Proof.Machine

/-- `B` (R141): the pc at the target. -/
def execB (c : Cond) (offset : BitVec 24) (s : State) : Out :=
  whenPassed c s fun _ => .next (s.setPc (branchTarget s.pc offset))

/-- `BL` (R142): the address of the next instruction, modulo 2^32 (DEDUCED, log 12), into r14 of the current mode, then
the pc at the target. -/
def execBl (c : Cond) (offset : BitVec 24) (s : State) : Out :=
  whenPassed c s fun m => .next ((s.setReg m .r14 (s.pc + 4)).setPc (branchTarget s.pc offset))

/-- `SWI` (R280, R308): the Software Interrupt exception; the number is ignored by the processor (R108). -/
def execSwi (c : Cond) (_number : BitVec 24) (s : State) : Out :=
  whenPassed c s fun _ => .next (s.raise .softwareInterrupt)

end Sys2Proof.Machine
end

