-- ==== Sys2Proof/Machine/DataProcessing.lean ====
section
/-! DEFINITION. The meanings of the sixteen data-processing instructions (spec/42_data_processing.md R156 to R175). -/

namespace Sys2Proof.Machine

/-- The destination of a data-processing instruction (R156): r15 with `S` is an exception return (R157), r15 without
`S` a jump to a word-aligned result (R158), any other register takes the result and, with `S`, the flags are set. -/
def State.putResult (s : State) (m : Mode) (st : Bool) (rd : Reg) (o : AluOut) : Out :=
  if rd = .r15 then
    if st then s.exceptionReturn m o.result
    else if isAligned o.result 4 then .next (s.setPc o.result)
    else .refused .pcResultMisaligned
  else if st then ((s.setReg m rd o.result).setAluFlags o).advance
  else (s.setReg m rd o.result).advance

/-- A data-processing instruction with `Rd` and `Rn` (R156); `f` computes from `rd(Rn)`, Operand2 and its carry. -/
def dataProcess (c : Cond) (st : Bool) (rd rn : Reg) (op2 : Operand2) (s : State)
    (f : Word → Word → Bool → AluOut) : Out :=
  whenPassed c s fun m =>
    if op2.pcMisuse [rd, rn] then .refused .pcInRegisterShift
    else
      let o := s.operand2 m op2
      s.putResult m st rd (f (s.rd m rn) o.value o.carry)

/-- A comparison (R156): no destination, the flags always. -/
def compareOp (c : Cond) (rn : Reg) (op2 : Operand2) (s : State) (f : Word → Word → Bool → AluOut) : Out :=
  whenPassed c s fun m =>
    if op2.pcMisuse [rn] then .refused .pcInRegisterShift
    else
      let o := s.operand2 m op2
      (s.setAluFlags (f (s.rd m rn) o.value o.carry)).advance

/-- A move (R156): `Rn` is not read. -/
def moveOp (c : Cond) (st : Bool) (rd : Reg) (op2 : Operand2) (s : State) (f : Word → Bool → AluOut) : Out :=
  whenPassed c s fun m =>
    if op2.pcMisuse [rd] then .refused .pcInRegisterShift
    else
      let o := s.operand2 m op2
      s.putResult m st rd (f o.value o.carry)

/-- `AND` (R160): bitwise AND. -/
def execAnd (c : Cond) (st : Bool) (rd rn : Reg) (op2 : Operand2) (s : State) : Out :=
  dataProcess c st rd rn op2 s fun a b sco => logical (a &&& b) sco s.cpsr

/-- `EOR` (R161): bitwise exclusive OR. -/
def execEor (c : Cond) (st : Bool) (rd rn : Reg) (op2 : Operand2) (s : State) : Out :=
  dataProcess c st rd rn op2 s fun a b sco => logical (a ^^^ b) sco s.cpsr

/-- `SUB` (R162): subtract. -/
def execSub (c : Cond) (st : Bool) (rd rn : Reg) (op2 : Operand2) (s : State) : Out :=
  dataProcess c st rd rn op2 s fun a b _ => addWithCarry a (~~~b) true

/-- `RSB` (R163): reverse subtract. -/
def execRsb (c : Cond) (st : Bool) (rd rn : Reg) (op2 : Operand2) (s : State) : Out :=
  dataProcess c st rd rn op2 s fun a b _ => addWithCarry b (~~~a) true

/-- `ADD` (R164): add. -/
def execAdd (c : Cond) (st : Bool) (rd rn : Reg) (op2 : Operand2) (s : State) : Out :=
  dataProcess c st rd rn op2 s fun a b _ => addWithCarry a b false

/-- `ADC` (R165): add with carry. -/
def execAdc (c : Cond) (st : Bool) (rd rn : Reg) (op2 : Operand2) (s : State) : Out :=
  dataProcess c st rd rn op2 s fun a b _ => addWithCarry a b (psrC s.cpsr)

/-- `SBC` (R166): subtract with carry. -/
def execSbc (c : Cond) (st : Bool) (rd rn : Reg) (op2 : Operand2) (s : State) : Out :=
  dataProcess c st rd rn op2 s fun a b _ => addWithCarry a (~~~b) (psrC s.cpsr)

/-- `RSC` (R167): reverse subtract with carry. -/
def execRsc (c : Cond) (st : Bool) (rd rn : Reg) (op2 : Operand2) (s : State) : Out :=
  dataProcess c st rd rn op2 s fun a b _ => addWithCarry b (~~~a) (psrC s.cpsr)

/-- `TST` (R168): test bits. -/
def execTst (c : Cond) (rn : Reg) (op2 : Operand2) (s : State) : Out :=
  compareOp c rn op2 s fun a b sco => logical (a &&& b) sco s.cpsr

/-- `TEQ` (R169): test equivalence. -/
def execTeq (c : Cond) (rn : Reg) (op2 : Operand2) (s : State) : Out :=
  compareOp c rn op2 s fun a b sco => logical (a ^^^ b) sco s.cpsr

/-- `CMP` (R170): compare. -/
def execCmp (c : Cond) (rn : Reg) (op2 : Operand2) (s : State) : Out :=
  compareOp c rn op2 s fun a b _ => addWithCarry a (~~~b) true

/-- `CMN` (R171): compare negative. -/
def execCmn (c : Cond) (rn : Reg) (op2 : Operand2) (s : State) : Out :=
  compareOp c rn op2 s fun a b _ => addWithCarry a b false

/-- `ORR` (R172): bitwise OR. -/
def execOrr (c : Cond) (st : Bool) (rd rn : Reg) (op2 : Operand2) (s : State) : Out :=
  dataProcess c st rd rn op2 s fun a b sco => logical (a ||| b) sco s.cpsr

/-- `MOV` (R173): move. -/
def execMov (c : Cond) (st : Bool) (rd : Reg) (op2 : Operand2) (s : State) : Out :=
  moveOp c st rd op2 s fun b sco => logical b sco s.cpsr

/-- `BIC` (R174): bit clear. -/
def execBic (c : Cond) (st : Bool) (rd rn : Reg) (op2 : Operand2) (s : State) : Out :=
  dataProcess c st rd rn op2 s fun a b sco => logical (a &&& ~~~b) sco s.cpsr

/-- `MVN` (R175): move NOT. -/
def execMvn (c : Cond) (st : Bool) (rd : Reg) (op2 : Operand2) (s : State) : Out :=
  moveOp c st rd op2 s fun b sco => logical (~~~b) sco s.cpsr

end Sys2Proof.Machine
end

