-- ==== Sys2Proof/Machine/LoadStore.lean ====
section
/-! DEFINITION. The meanings of the eight single register transfers (spec/44_load_store.md). -/

namespace Sys2Proof.Machine

/-- The base write-back of a single transfer (R223, R224). -/
def State.writeBack (s : State) (m : Mode) (ix : Index) (rn : Reg) (sum : Word) : State :=
  if ix.writesBack then s.setReg m rn sum else s

/-- Taking Data Abort from a single transfer (R225): the base written back only where `ABORT_BASE` is `updated`. -/
def State.transferAbort (s : State) (m : Mode) (ix : Index) (rn : Reg) (sum : Word) : State :=
  (match s.params.abortBase with
   | .restored => s
   | .updated => s.writeBack m ix rn sum).raise .dataAbort

/-- The procedure of R224 for a load of width `sz`: `extend` makes a word of the value read; r15 is loaded with its two
low bits cleared (R232). -/
def loadSingle (c : Cond) (ix : Index) (up : Bool) (rd rn : Reg) (misuse : Bool) (sz : Size)
    (extend : Word → Word) (s : State) (offset : Mode → Word) : Out :=
  whenPassed c s fun m =>
    if misuse then .refused .transferOperands
    else
      let base := s.rd m rn
      let sum := indexed up base (offset m)
      let addr := accessAddr ix base sum
      if !isAligned addr (sizeBytes sz) then .refused (.misalignedAccess addr)
      else
        match s.load addr sz with
        | .abort => .next (s.transferAbort m ix rn sum)
        | .fault f => .fault f
        | .done v =>
          if rd = .r15 then .next ((s.writeBack m ix rn sum).setPc (wordAligned (extend v)))
          else ((s.setReg m rd (extend v)).writeBack m ix rn sum).advance

/-- The procedure of R224 for a store of width `sz` of a register's low bits (R231, R239). -/
def storeSingle (c : Cond) (ix : Index) (up : Bool) (rd rn : Reg) (misuse : Bool) (sz : Size) (s : State)
    (offset : Mode → Word) : Out :=
  whenPassed c s fun m =>
    if misuse then .refused .transferOperands
    else
      let base := s.rd m rn
      let sum := indexed up base (offset m)
      let addr := accessAddr ix base sum
      if !isAligned addr (sizeBytes sz) then .refused (.misalignedAccess addr)
      else
        match s.store addr sz (s.storeValue m rd) with
        | .abort => .next (s.transferAbort m ix rn sum)
        | .fault f => .fault f
        | .done t => (t.writeBack m ix rn sum).advance

/-- A byte sign-extended to a word (R66, R237). -/
def signedByte (v : Word) : Word := (v.setWidth 8).signExtend 32

/-- A halfword sign-extended to a word (R66, R238). -/
def signedHalf (v : Word) : Word := (v.setWidth 16).signExtend 32

/-- `LDR` (R230, R232): load word. -/
def execLdr (c : Cond) (ix : Index) (up : Bool) (rd rn : Reg) (off : Offset) (s : State) : Out :=
  loadSingle c ix up rd rn (transferMisuse ix rd rn off.reg?) .word id s fun m => s.offset m off

/-- `STR` (R231): store word. -/
def execStr (c : Cond) (ix : Index) (up : Bool) (rd rn : Reg) (off : Offset) (s : State) : Out :=
  storeSingle c ix up rd rn (transferMisuse ix rd rn off.reg?) .word s fun m => s.offset m off

/-- `LDRB` (R233): load unsigned byte. -/
def execLdrb (c : Cond) (ix : Index) (up : Bool) (rd rn : Reg) (off : Offset) (s : State) : Out :=
  loadSingle c ix up rd rn (narrowTransferMisuse ix rd rn off.reg?) .byte id s fun m => s.offset m off

/-- `STRB` (R234): store byte. -/
def execStrb (c : Cond) (ix : Index) (up : Bool) (rd rn : Reg) (off : Offset) (s : State) : Out :=
  storeSingle c ix up rd rn (narrowTransferMisuse ix rd rn off.reg?) .byte s fun m => s.offset m off

/-- `LDRH` (R235): load unsigned halfword. -/
def execLdrh (c : Cond) (ix : Index) (up : Bool) (rd rn : Reg) (off : HalfOffset) (s : State) : Out :=
  loadSingle c ix up rd rn (narrowTransferMisuse ix rd rn off.reg?) .half id s fun m => s.halfOffset m off

/-- `STRH` (R236): store halfword. -/
def execStrh (c : Cond) (ix : Index) (up : Bool) (rd rn : Reg) (off : HalfOffset) (s : State) : Out :=
  storeSingle c ix up rd rn (narrowTransferMisuse ix rd rn off.reg?) .half s fun m => s.halfOffset m off

/-- `LDRSB` (R237): load signed byte. -/
def execLdrsb (c : Cond) (ix : Index) (up : Bool) (rd rn : Reg) (off : HalfOffset) (s : State) : Out :=
  loadSingle c ix up rd rn (narrowTransferMisuse ix rd rn off.reg?) .byte signedByte s fun m => s.halfOffset m off

/-- `LDRSH` (R238): load signed halfword. -/
def execLdrsh (c : Cond) (ix : Index) (up : Bool) (rd rn : Reg) (off : HalfOffset) (s : State) : Out :=
  loadSingle c ix up rd rn (narrowTransferMisuse ix rd rn off.reg?) .half signedHalf s fun m => s.halfOffset m off

end Sys2Proof.Machine
end

