-- ==== Sys2Proof/Machine/Multiply.lean ====
section
/-! DEFINITION. The meanings of the six multiplies (spec/43_multiply.md). -/

namespace Sys2Proof.Machine

/-- A 32-bit multiply (R200): the result into `Rd`, with `S` the flags of R208. -/
def multiply (c : Cond) (st : Bool) (rd : Reg) (misuse : Bool) (s : State) (f : Mode → Word) : Out :=
  whenPassed c s fun m =>
    if misuse then .refused .multiplyOperands
    else
      let t := s.setReg m rd (f m)
      if st then (t.setMulFlags (f m)).advance else t.advance

/-- A long multiply (R200): bits 31:0 of the result into `RdLo` and bits 63:32 into `RdHi`, with `S` the flags of
R208. -/
def multiplyLong (c : Cond) (st : Bool) (rdLo rdHi rm rs : Reg) (s : State) (f : Mode → BitVec 64) : Out :=
  whenPassed c s fun m =>
    if mulLongMisuse rdLo rdHi rm rs then .refused .multiplyOperands
    else
      let p := f m
      let t := (s.setReg m rdLo (p.extractLsb' 0 32)).setReg m rdHi (p.extractLsb' 32 32)
      if st then (t.setMulLongFlags p).advance else t.advance

/-- `RdHi : RdLo`, the 64-bit accumulator of a long multiply (R204, R206, R209). -/
def State.pair (s : State) (m : Mode) (rdLo rdHi : Reg) : BitVec 64 := s.rd m rdHi ++ s.rd m rdLo

/-- The product of two words read as unsigned (R203, R204), modulo 2^64. -/
def unsignedProduct (a b : Word) : BitVec 64 := BitVec.ofNat 64 (a.toNat * b.toNat)

/-- The product of two words read as two's complement (R205, R206), modulo 2^64. -/
def signedProduct (a b : Word) : BitVec 64 := BitVec.ofInt 64 (a.toInt * b.toInt)

/-- `MUL` (R201): `Rd = Rm * Rs`. -/
def execMul (c : Cond) (st : Bool) (rd rm rs : Reg) (s : State) : Out :=
  multiply c st rd (mulMisuse rd rm rs none) s fun m => s.rd m rm * s.rd m rs

/-- `MLA` (R202): `Rd = (Rm * Rs) + Rn`. -/
def execMla (c : Cond) (st : Bool) (rd rm rs rn : Reg) (s : State) : Out :=
  multiply c st rd (mulMisuse rd rm rs (some rn)) s fun m => s.rd m rm * s.rd m rs + s.rd m rn

/-- `UMULL` (R203): `RdHi,RdLo := Rm*Rs`, unsigned. -/
def execUmull (c : Cond) (st : Bool) (rdLo rdHi rm rs : Reg) (s : State) : Out :=
  multiplyLong c st rdLo rdHi rm rs s fun m => unsignedProduct (s.rd m rm) (s.rd m rs)

/-- `UMLAL` (R204): `RdHi,RdLo := (Rm*Rs)+RdHi,RdLo`, unsigned. -/
def execUmlal (c : Cond) (st : Bool) (rdLo rdHi rm rs : Reg) (s : State) : Out :=
  multiplyLong c st rdLo rdHi rm rs s fun m => unsignedProduct (s.rd m rm) (s.rd m rs) + s.pair m rdLo rdHi

/-- `SMULL` (R205): `RdHi,RdLo := Rm*Rs`, signed. -/
def execSmull (c : Cond) (st : Bool) (rdLo rdHi rm rs : Reg) (s : State) : Out :=
  multiplyLong c st rdLo rdHi rm rs s fun m => signedProduct (s.rd m rm) (s.rd m rs)

/-- `SMLAL` (R206): `RdHi,RdLo := (Rm*Rs)+RdHi,RdLo`, signed. -/
def execSmlal (c : Cond) (st : Bool) (rdLo rdHi rm rs : Reg) (s : State) : Out :=
  multiplyLong c st rdLo rdHi rm rs s fun m => signedProduct (s.rd m rm) (s.rd m rs) + s.pair m rdLo rdHi

end Sys2Proof.Machine
end

