-- ==== Sys2Proof/Machine/PsrTransfer.lean ====
section
/-! DEFINITION. The meanings of `MRS` and the two forms of `MSR` (spec/47_psr_transfer.md). -/

namespace Sys2Proof.Machine

/-- The mask of an `MSR` to the `cpsr`: in User mode the `f` byte only (R43, R288). -/
def cpsrMask (m : Mode) (fields : BitVec 4) : Word :=
  if m = .user then byteMask fields &&& 0xFF000000#32 else byteMask fields

/-- `MSR` to the `cpsr` (R288). -/
def State.msrCpsr (s : State) (m : Mode) (fields : BitVec 4) (operand : Word) : Out :=
  let new := psrMerge s.cpsr operand (cpsrMask m fields)
  if psrReserved new != psrReserved s.cpsr then .refused .wouldChangeReserved
  else if psrT new then .refused .wouldSetThumb
  else if (psrMode new).isNone then .refused .wouldSetIllegalMode
  else (s.setCpsr new).advance

/-- `MSR` to the `spsr` of the current mode (R289). -/
def State.msrSpsr (s : State) (m : Mode) (fields : BitVec 4) (operand : Word) : Out :=
  match s.spsr.read m with
  | none => .refused .noSpsr
  | some old => (s.setSpsr (s.spsr.write m (psrMerge old operand (byteMask fields)))).advance

/-- `MSR` to the register that the `R` bit selects (R285). -/
def State.msr (s : State) (m : Mode) (spsr : Bool) (fields : BitVec 4) (operand : Word) : Out :=
  if spsr then s.msrSpsr m fields operand else s.msrCpsr m fields operand

/-- `MRS` (R287): all 32 bits of the `cpsr`, or of the `spsr` of the current mode, into `Rd`. -/
def execMrs (c : Cond) (spsr : Bool) (rd : Reg) (s : State) : Out :=
  whenPassed c s fun m =>
    if rd = .r15 then .refused .psrTransferOfPc
    else if spsr then
      match s.spsr.read m with
      | none => .refused .noSpsr
      | some v => (s.setReg m rd v).advance
    else (s.setReg m rd s.cpsr).advance

/-- `MSR`, register form (R290). -/
def execMsrReg (c : Cond) (spsr : Bool) (fields : BitVec 4) (rm : Reg) (s : State) : Out :=
  whenPassed c s fun m =>
    if rm = .r15 then .refused .psrTransferOfPc else s.msr m spsr fields (s.rd m rm)

/-- `MSR`, immediate form (R291). -/
def execMsrImm (c : Cond) (spsr : Bool) (fields rot : BitVec 4) (imm8 : BitVec 8) (s : State) : Out :=
  whenPassed c s fun m => s.msr m spsr fields (rotatedImm rot imm8)

end Sys2Proof.Machine
end

