-- ==== Sys2Proof/Machine/Dispatch.lean ====
section
/-! DEFINITION. The dispatch: one arm for each constructor of `Instr`, each one call of its meaning. -/

namespace Sys2Proof.Machine

def exec (i : Instr) (s : State) : Host.Outcome State Fault Refusal :=
  match i with
  | .b c offset => Sys2Proof.Machine.execB c offset s
  | .bl c offset => Sys2Proof.Machine.execBl c offset s
  | .and c st rd rn op2 => Sys2Proof.Machine.execAnd c st rd rn op2 s
  | .eor c st rd rn op2 => Sys2Proof.Machine.execEor c st rd rn op2 s
  | .sub c st rd rn op2 => Sys2Proof.Machine.execSub c st rd rn op2 s
  | .rsb c st rd rn op2 => Sys2Proof.Machine.execRsb c st rd rn op2 s
  | .add c st rd rn op2 => Sys2Proof.Machine.execAdd c st rd rn op2 s
  | .adc c st rd rn op2 => Sys2Proof.Machine.execAdc c st rd rn op2 s
  | .sbc c st rd rn op2 => Sys2Proof.Machine.execSbc c st rd rn op2 s
  | .rsc c st rd rn op2 => Sys2Proof.Machine.execRsc c st rd rn op2 s
  | .tst c rn op2 => Sys2Proof.Machine.execTst c rn op2 s
  | .teq c rn op2 => Sys2Proof.Machine.execTeq c rn op2 s
  | .cmp c rn op2 => Sys2Proof.Machine.execCmp c rn op2 s
  | .cmn c rn op2 => Sys2Proof.Machine.execCmn c rn op2 s
  | .orr c st rd rn op2 => Sys2Proof.Machine.execOrr c st rd rn op2 s
  | .mov c st rd op2 => Sys2Proof.Machine.execMov c st rd op2 s
  | .bic c st rd rn op2 => Sys2Proof.Machine.execBic c st rd rn op2 s
  | .mvn c st rd op2 => Sys2Proof.Machine.execMvn c st rd op2 s
  | .mul c st rd rm rs => Sys2Proof.Machine.execMul c st rd rm rs s
  | .mla c st rd rm rs rn => Sys2Proof.Machine.execMla c st rd rm rs rn s
  | .umull c st rdLo rdHi rm rs => Sys2Proof.Machine.execUmull c st rdLo rdHi rm rs s
  | .umlal c st rdLo rdHi rm rs => Sys2Proof.Machine.execUmlal c st rdLo rdHi rm rs s
  | .smull c st rdLo rdHi rm rs => Sys2Proof.Machine.execSmull c st rdLo rdHi rm rs s
  | .smlal c st rdLo rdHi rm rs => Sys2Proof.Machine.execSmlal c st rdLo rdHi rm rs s
  | .ldr c ix up rd rn off => Sys2Proof.Machine.execLdr c ix up rd rn off s
  | .str c ix up rd rn off => Sys2Proof.Machine.execStr c ix up rd rn off s
  | .ldrb c ix up rd rn off => Sys2Proof.Machine.execLdrb c ix up rd rn off s
  | .strb c ix up rd rn off => Sys2Proof.Machine.execStrb c ix up rd rn off s
  | .ldrh c ix up rd rn off => Sys2Proof.Machine.execLdrh c ix up rd rn off s
  | .strh c ix up rd rn off => Sys2Proof.Machine.execStrh c ix up rd rn off s
  | .ldrsb c ix up rd rn off => Sys2Proof.Machine.execLdrsb c ix up rd rn off s
  | .ldrsh c ix up rd rn off => Sys2Proof.Machine.execLdrsh c ix up rd rn off s
  | .ldmia c wb rn list => Sys2Proof.Machine.execLdmia c wb rn list s
  | .ldmib c wb rn list => Sys2Proof.Machine.execLdmib c wb rn list s
  | .ldmda c wb rn list => Sys2Proof.Machine.execLdmda c wb rn list s
  | .ldmdb c wb rn list => Sys2Proof.Machine.execLdmdb c wb rn list s
  | .stmia c wb rn list => Sys2Proof.Machine.execStmia c wb rn list s
  | .stmib c wb rn list => Sys2Proof.Machine.execStmib c wb rn list s
  | .stmda c wb rn list => Sys2Proof.Machine.execStmda c wb rn list s
  | .stmdb c wb rn list => Sys2Proof.Machine.execStmdb c wb rn list s
  | .swi c number => Sys2Proof.Machine.execSwi c number s
  | .mrs c spsr rd => Sys2Proof.Machine.execMrs c spsr rd s
  | .msrReg c spsr fields rm => Sys2Proof.Machine.execMsrReg c spsr fields rm s
  | .msrImm c spsr fields rot imm8 => Sys2Proof.Machine.execMsrImm c spsr fields rot imm8 s

end Sys2Proof.Machine
end

