-- ==== Sys2Proof/Machine/Fetch.lean ====
section
/-! DEFINITION. The parts of a step around an instruction (spec/10_state.md R45): the interrupt sample, the fetch, what
the word at the pc asks for, and the environment's move to its next entry. -/

namespace Sys2Proof.Machine

/-- The interrupt taken at step 2 of R45: FIQ before IRQ, each only where its mask bit is 0 (R311 to R315). -/
def State.interrupt (s : State) : Option Exc :=
  if s.env.fiqLine && !psrF s.cpsr then some .fiq
  else if s.env.irqLine && !psrI s.cpsr then some .irq
  else none

/-- What a fetch comes to. -/
inductive Fetched where
  /-- The word at the pc. -/
  | word (w : Word)
  /-- The fetch aborts (R309). -/
  | abort
  /-- The pc is outside `MEM_MAP` (R68). -/
  | fault (f : Fault)
  /-- The state has no step, or the bytes were stored by the program (R45 step 3, R76). -/
  | refused (r : Refusal)
  deriving DecidableEq, Repr

/-- Whether a store has written one of the `n` bytes from an address up (R76). -/
def State.wasStored (s : State) (addr : Word) (n : Nat) : Bool :=
  (List.range n).any fun k => s.storedTo.contains (addr.toNat + k)

/-- Steps 3 to 5 of R45: ARM state and an aligned pc are required (and a legal mode, R49), then the oracle, then the
read. -/
def State.fetch (s : State) : Fetched :=
  if psrT s.cpsr then .refused .thumbState
  else if psrJ s.cpsr then .refused .jazelleState
  else if !isAligned s.pc 4 then .refused .pcMisaligned
  else if s.mode.isNone then .refused .illegalMode
  else if s.aborts .fetch s.pc .word then .abort
  else if !s.admits s.pc 4 then .fault (.unmapped s.pc)
  else if s.wasStored s.pc 4 then .refused (.fetchOfStored s.pc)
  else .word (s.peek s.pc 4)

/-- What a fetched word asks for. -/
inductive Issue where
  /-- Its condition fails: a no-op, whatever its other bits are (R131). -/
  | skip
  /-- An instruction to execute. -/
  | run (i : Instr)
  /-- The Undefined Instruction exception (R117, R307). -/
  | undefined
  /-- No meaning (R114, R116, R118). -/
  | refused (why : Undecodable)
  deriving DecidableEq, Repr

/-- Steps 6 to 8 of R45: the condition field, the condition, then the row. -/
def issue (w : Word) (p : Word) : Issue :=
  match condOf w with
  | none => .refused .conditionNever
  | some c =>
    if !conditionPassed c p then .skip
    else
      match decodeOpcode w c with
      | .instr i => .run i
      | .undefined => .undefined
      | .refused why => .refused why

/-- The environment's move between two steps (R47, R314; log 6): its next entry, or the same again. -/
def State.tick (s : State) : State :=
  match s.envToCome with
  | [] => s
  | e :: es => s.setEnv e es

/-- An outcome with its next state ticked. -/
def tickOut (o : Out) : Out :=
  match o with
  | .next t => .next t.tick
  | .fault f => .fault f
  | .refused r => .refused r

/-- The state with a word placed at the pc as the launch image would place it: its bytes in memory in the byte order of
the machine and not marked as stored. -/
def State.placeWord (s : State) (w : Word) : State :=
  s.setMem (s.mem.writeBytes s.pc.toNat 4 fun k => laneOf w (lane s.params.bigEndian 4 k))
    (s.storedTo.filter fun a => !(decide (s.pc.toNat ≤ a) && decide (a < s.pc.toNat + 4)))

/-- The state with the pc's word admitted by `MEM_MAP`, left alone where it is already. -/
def State.admitPc (s : State) : State :=
  if s.admits s.pc 4 then s
  else { s with params := { s.params with memMap := ⟨s.pc, s.pc + 3⟩ :: s.params.memMap } }

/-- The state with an environment that neither interrupts nor aborts the coming fetch, left alone where it is one. -/
def State.quietForFetch (s : State) : State :=
  if s.interrupt.isNone && !s.aborts .fetch s.pc .word then s else s.setEnv Env.quiet s.envToCome

end Sys2Proof.Machine
end

