-- ==== Sys2Proof/Machine/Step.lean ====
section
/-! DEFINITION. One step of the core (spec/10_state.md R45). -/

namespace Sys2Proof.Machine

/-- Steps 2 to 9 of R45, before the environment moves on. -/
def stepCore (s : State) : Out :=
  match s.interrupt with
  | some e => .next (s.raise e)
  | none =>
    match s.fetch with
    | .refused r => .refused r
    | .abort => .next (s.raise .prefetchAbort)
    | .fault f => .fault f
    | .word w =>
      match issue w s.cpsr with
      | .skip => s.advance
      | .run i => exec i s
      | .undefined => .next (s.raise .undefinedInstruction)
      | .refused why => .refused (.undecodable why)

/-- One step (R45). Step 1, the end of a run, is `runUntil` of Safety.lean (R362; log 8). -/
def step (s : State) : Host.Outcome State Fault Refusal := tickOut (stepCore s)

/-- `s` with an instruction of `nbits` bits stored where the next step fetches (log 15). -/
def State.withFetchWord (s : State) (nbits w : Nat) : State :=
  ((s.placeWord (BitVec.ofNat 32 (w % 2 ^ nbits))).admitPc).quietForFetch

end Sys2Proof.Machine
end

