-- ==== Sys2Proof/Safety.lean ====
section
/-! DEFINITION. The terms claims use: the states of the model (spec/70_reset_and_hazards.md R354), runs that end where a
`HALT` predicate holds (R362), and safe runs. -/

namespace Sys2Proof.Machine

/-- A state of the model (R28, R42, R49, R354): the pc aligned, a legal mode, T = 0 and the reserved bits 0 (J among
them). -/
def State.legal (s : State) : Bool :=
  isAligned s.pc 4 && s.mode.isSome && !psrT s.cpsr && psrReserved s.cpsr == 0

/-- Memory and the set of addresses stored to are in canonical form. -/
def State.memOk (s : State) : Bool := Memory.wf s.mem && addrsWf s.storedTo

/-- A run of at most `k` steps that ends at the first state where `halt` holds, tested before each step (R45 step 1,
R362, D18). -/
def runUntil (halt : State → Bool) : Nat → State → Out
  | 0, s => .next s
  | k + 1, s =>
    if halt s then .next s
    else
      match step s with
      | .next t => runUntil halt k t
      | .fault f => .fault f
      | .refused r => .refused r

/-- A run of at most `k` steps to a `HALT` state meets no fault and no refusal (R362: a refusal ends a run as no
claim). -/
def SafeUntil (halt : State → Bool) (k : Nat) (s : State) : Prop := ∃ t, runUntil halt k s = .next t

end Sys2Proof.Machine
end

