-- ==== Sys2Proof/WellFormed.lean ====
section
/-! DEFINITION. Which instructions the spec gives a meaning: the operand combinations it calls UNPREDICTABLE are
ill formed (spec/93_implementation_defined.md U6, U9, U12, U14, U21). An ill-formed instruction decodes (R112 selects
the row first) and is refused when its condition passes. -/

namespace Sys2Proof

/-- An instruction whose operands no rule turns away (R153, R207, R227, R264, R287, R290). -/
def Instr.wellFormed : Instr → Bool
  | .b _ _ | .bl _ _ | .swi _ _ => true
  | .and _ _ rd rn o => !o.pcMisuse [rd, rn]
  | .eor _ _ rd rn o => !o.pcMisuse [rd, rn]
  | .sub _ _ rd rn o => !o.pcMisuse [rd, rn]
  | .rsb _ _ rd rn o => !o.pcMisuse [rd, rn]
  | .add _ _ rd rn o => !o.pcMisuse [rd, rn]
  | .adc _ _ rd rn o => !o.pcMisuse [rd, rn]
  | .sbc _ _ rd rn o => !o.pcMisuse [rd, rn]
  | .rsc _ _ rd rn o => !o.pcMisuse [rd, rn]
  | .orr _ _ rd rn o => !o.pcMisuse [rd, rn]
  | .bic _ _ rd rn o => !o.pcMisuse [rd, rn]
  | .tst _ rn o => !o.pcMisuse [rn]
  | .teq _ rn o => !o.pcMisuse [rn]
  | .cmp _ rn o => !o.pcMisuse [rn]
  | .cmn _ rn o => !o.pcMisuse [rn]
  | .mov _ _ rd o => !o.pcMisuse [rd]
  | .mvn _ _ rd o => !o.pcMisuse [rd]
  | .mul _ _ rd rm rs => !mulMisuse rd rm rs none
  | .mla _ _ rd rm rs rn => !mulMisuse rd rm rs (some rn)
  | .umull _ _ lo hi rm rs => !mulLongMisuse lo hi rm rs
  | .umlal _ _ lo hi rm rs => !mulLongMisuse lo hi rm rs
  | .smull _ _ lo hi rm rs => !mulLongMisuse lo hi rm rs
  | .smlal _ _ lo hi rm rs => !mulLongMisuse lo hi rm rs
  | .ldr _ ix _ rd rn off => !transferMisuse ix rd rn off.reg?
  | .str _ ix _ rd rn off => !transferMisuse ix rd rn off.reg?
  | .ldrb _ ix _ rd rn off => !narrowTransferMisuse ix rd rn off.reg?
  | .strb _ ix _ rd rn off => !narrowTransferMisuse ix rd rn off.reg?
  | .ldrh _ ix _ rd rn off => !narrowTransferMisuse ix rd rn off.reg?
  | .strh _ ix _ rd rn off => !narrowTransferMisuse ix rd rn off.reg?
  | .ldrsb _ ix _ rd rn off => !narrowTransferMisuse ix rd rn off.reg?
  | .ldrsh _ ix _ rd rn off => !narrowTransferMisuse ix rd rn off.reg?
  | .ldmia _ wb rn list => !ldmMisuse wb rn list
  | .ldmib _ wb rn list => !ldmMisuse wb rn list
  | .ldmda _ wb rn list => !ldmMisuse wb rn list
  | .ldmdb _ wb rn list => !ldmMisuse wb rn list
  | .stmia _ wb rn list => !stmMisuse wb rn list
  | .stmib _ wb rn list => !stmMisuse wb rn list
  | .stmda _ wb rn list => !stmMisuse wb rn list
  | .stmdb _ wb rn list => !stmMisuse wb rn list
  | .mrs _ _ rd => rd != .r15
  | .msrReg _ _ _ rm => rm != .r15
  | .msrImm _ _ _ _ _ => true

end Sys2Proof
end

