-- ==== Sys2Proof/Certificates/Slice0/Obligations.lean ====
section
/-! DEFINITION. The statements for the provers, from the numbered rules of spec/. Each statement's docstring cites the
rules it comes from and names the instructions it covers. The words they share stand first, in `Sys2Proof.Claims`.
Where a statement reads r15 as an operand (`State.rd`) in the last two words of the address space, the sum `pc + 8` is
taken modulo 2^32, which the model deduced (log 12). -/

namespace Sys2Proof.Claims

open Machine

/-! ### Hypotheses on the state -/

/-- The state is in mode `m` and condition `c` passes (R39, R131). -/
abbrev Passes (s : State) (m : Mode) (c : Cond) : Prop := s.mode = some m ∧ conditionPassed c s.cpsr = true

/-- The instruction is not the last of the address space, so that `pc + 4` is an address (R31). -/
abbrev Room (s : State) : Prop := s.pc.toNat + 4 < 2 ^ 32

/-- An access can be made: aligned (R64), not aborted (R70), all its bytes in `MEM_MAP` (R68). -/
abbrev Accessible (s : State) (kind : AccessKind) (addr : Word) (sz : Size) : Prop :=
  isAligned addr (sizeBytes sz) = true ∧ s.aborts kind addr sz = false ∧ s.admits addr (sizeBytes sz) = true

/-- No interrupt is taken and the word at the pc is fetched (R45 steps 2 to 5). -/
abbrev Fetches (s : State) (w : Word) : Prop := s.interrupt = none ∧ s.fetch = .word w

/-! ### What stays as it is -/

/-- Every byte of memory, and the set of addresses stored to. -/
def SameMemory (s t : State) : Prop := (∀ a, t.mem.read a = s.mem.read a) ∧ t.storedTo = s.storedTo

/-- The parameters and the environment's inputs. -/
def SameInputs (s t : State) : Prop := t.params = s.params ∧ t.env = s.env ∧ t.envToCome = s.envToCome

/-- Everything but the general registers, the pc and the `cpsr`. -/
def SameRest (s t : State) : Prop :=
  t.spsr = s.spsr ∧ SameMemory s t ∧ t.draws = s.draws ∧ SameInputs s t

/-- Every general register of every bank. -/
def SameRegs (s t : State) : Prop := ∀ p, t.regs.read p = s.regs.read p

/-- The `cpsr` below its flags: the reserved bits, I, F, T and the mode. -/
def SameControl (s t : State) : Prop := t.cpsr.extractLsb' 0 28 = s.cpsr.extractLsb' 0 28

/-! ### What changes -/

/-- The flags of a state (R33). -/
def Flags (t : State) (n z c v : Bool) : Prop :=
  psrN t.cpsr = n ∧ psrZ t.cpsr = z ∧ psrC t.cpsr = c ∧ psrV t.cpsr = v

/-- The register that `r` names in mode `m` holds `v`; every other general register of every bank is as before. -/
def Writes (s t : State) (m : Mode) (r : Reg) (v : Word) : Prop :=
  ∀ p, t.regs.read p = if physReg r m = some p then v else s.regs.read p

/-- `Writes` for two registers that are not the same. -/
def WritesTwo (s t : State) (m : Mode) (r : Reg) (v : Word) (r' : Reg) (v' : Word) : Prop :=
  ∀ p, t.regs.read p = if physReg r m = some p then v else if physReg r' m = some p then v' else s.regs.read p

/-- `Writes` where `yes` holds, and no register changed where it does not. -/
def WritesIf (yes : Bool) (s t : State) (m : Mode) (r : Reg) (v : Word) : Prop :=
  ∀ p, t.regs.read p = if yes = true ∧ physReg r m = some p then v else s.regs.read p

/-! ### Taking an exception (R306) -/

/-- The mode an exception enters, the bits of that mode, the r14 and what is added to the instruction's address for it,
and the offset of the vector: the rows of the table of R306. -/
def entryRow (e : Exc) : Mode × BitVec 5 × PhysReg × Word × Word :=
  match e with
  | .undefinedInstruction => (.undef, 0b11011#5, .r14_und, 4, 0x04)
  | .softwareInterrupt => (.supervisor, 0b10011#5, .r14_svc, 4, 0x08)
  | .prefetchAbort => (.abort, 0b10111#5, .r14_abt, 4, 0x0C)
  | .dataAbort => (.abort, 0b10111#5, .r14_abt, 8, 0x10)
  | .irq => (.irq, 0b10010#5, .r14_irq, 4, 0x18)
  | .fiq => (.fiq, 0b10001#5, .r14_fiq, 4, 0x1C)

/-- `t` is `s` after the entry procedure of R306 for `e`: the link value, the `spsr`, the `cpsr`, the pc, and
everything else as it was. The link value past the top of the address space is taken modulo 2^32, which the model
deduced (log 12). -/
def Entered (s t : State) (e : Exc) : Prop :=
  (∀ p, t.regs.read p = if p = (entryRow e).2.2.1 then s.pc + (entryRow e).2.2.2.1 else s.regs.read p) ∧
  (∀ k, t.spsr.read k = if k = (entryRow e).1 then some s.cpsr else s.spsr.read k) ∧
  t.cpsr.extractLsb' 0 5 = (entryRow e).2.1 ∧ t.mode = some (entryRow e).1 ∧ psrT t.cpsr = false ∧
  psrI t.cpsr = true ∧ psrF t.cpsr = (if e = .fiq then true else psrF s.cpsr) ∧
  t.cpsr.extractLsb' 8 24 = s.cpsr.extractLsb' 8 24 ∧
  t.pc = s.params.vectorBase.addr + (entryRow e).2.2.2.2 ∧ SameMemory s t ∧ t.draws = s.draws ∧ SameInputs s t

/-! ### The data-processing instructions, by how they set the flags (R156) -/

/-- The logical instructions with a destination: AND, EOR, ORR, BIC, MOV, MVN. -/
inductive Logical where
  | and | eor | orr | bic | mov | mvn
  deriving DecidableEq, Repr

/-- The instruction; MOV and MVN have no `Rn`. -/
def Logical.instr (k : Logical) (c : Cond) (st : Bool) (rd rn : Reg) (o : Operand2) : Instr :=
  match k with
  | .and => .and c st rd rn o
  | .eor => .eor c st rd rn o
  | .orr => .orr c st rd rn o
  | .bic => .bic c st rd rn o
  | .mov => .mov c st rd o
  | .mvn => .mvn c st rd o

/-- The registers it names beside those of Operand2. -/
def Logical.regs (k : Logical) (rd rn : Reg) : List Reg :=
  match k with
  | .mov | .mvn => [rd]
  | _ => [rd, rn]

/-- Its result, bit by bit, from a bit of `rd(Rn)` and a bit of Operand2 (R160, R161, R172 to R175). -/
def Logical.bit (k : Logical) (a b : Bool) : Bool :=
  match k with
  | .and => a && b
  | .eor => a != b
  | .orr => a || b
  | .bic => a && !b
  | .mov => b
  | .mvn => !b

/-- The arithmetic instructions with a destination: ADD, ADC, SUB, SBC, RSB, RSC. -/
inductive Arith where
  | add | adc | sub | sbc | rsb | rsc
  deriving DecidableEq, Repr

/-- The instruction. -/
def Arith.instr (k : Arith) (c : Cond) (st : Bool) (rd rn : Reg) (o : Operand2) : Instr :=
  match k with
  | .add => .add c st rd rn o
  | .adc => .adc c st rd rn o
  | .sub => .sub c st rd rn o
  | .sbc => .sbc c st rd rn o
  | .rsb => .rsb c st rd rn o
  | .rsc => .rsc c st rd rn o

/-- Its exact value over the integers for operands `a` and `b` and the C flag, the same formula for both readings of
the operands: R162 to R167 and R176. `ADC` adds C, `SBC` and `RSC` take away `1 - C`. -/
def Arith.exact (k : Arith) (a b : Int) (carry : Bool) : Int :=
  match k with
  | .add => a + b
  | .adc => a + b + carry.toNat
  | .sub => a - b
  | .sbc => a - b - (1 - carry.toNat)
  | .rsb => b - a
  | .rsc => b - a - (1 - carry.toNat)

/-- C: the exact unsigned value does not fit for an addition, no borrow for a subtraction (R156, R176). -/
def Arith.carry (k : Arith) (a b : Word) (carry : Bool) : Bool :=
  match k with
  | .add | .adc => decide ((2 : Int) ^ 32 ≤ k.exact a.toNat b.toNat carry)
  | _ => decide (0 ≤ k.exact a.toNat b.toNat carry)

/-- V: the exact signed value does not fit (R156, R176). -/
def Arith.overflow (k : Arith) (a b : Word) (carry : Bool) : Bool :=
  let x := k.exact a.toInt b.toInt carry
  !(decide (-(2 : Int) ^ 31 ≤ x) && decide (x < (2 : Int) ^ 31))

/-- The twelve data-processing instructions with a destination. -/
inductive Dest where
  | logical (k : Logical)
  | arith (k : Arith)
  deriving DecidableEq, Repr

/-- The instruction. -/
def Dest.instr (k : Dest) (c : Cond) (st : Bool) (rd rn : Reg) (o : Operand2) : Instr :=
  match k with
  | .logical k => k.instr c st rd rn o
  | .arith k => k.instr c st rd rn o

/-- The registers it names beside those of Operand2. -/
def Dest.regs (k : Dest) (rd rn : Reg) : List Reg :=
  match k with
  | .logical k => k.regs rd rn
  | .arith _ => [rd, rn]

/-- `v` is its result for operands `a` and `b` and the C flag. -/
def Dest.Result (k : Dest) (a b : Word) (carry : Bool) (v : Word) : Prop :=
  match k with
  | .logical k => ∀ i < 32, v.getLsbD i = k.bit (a.getLsbD i) (b.getLsbD i)
  | .arith k => (v.toNat : Int) = k.exact a.toNat b.toNat carry % 2 ^ 32

/-- The comparisons: TST and TEQ are logical, CMP and CMN arithmetic. -/
inductive Comparison where
  | tst | teq | cmp | cmn
  deriving DecidableEq, Repr

/-- The instruction. -/
def Comparison.instr (k : Comparison) (c : Cond) (rn : Reg) (o : Operand2) : Instr :=
  match k with
  | .tst => .tst c rn o
  | .teq => .teq c rn o
  | .cmp => .cmp c rn o
  | .cmn => .cmn c rn o

/-- The instruction whose flags it sets (R168 to R171). -/
def Comparison.like (k : Comparison) : Dest :=
  match k with
  | .tst => .logical .and
  | .teq => .logical .eor
  | .cmp => .arith .sub
  | .cmn => .arith .add

/-- The flags an instruction sets from its operands, its result `v`, the shifter's carry-out and the flags before: the
two rows of R156. -/
def Dest.SetsFlags (k : Dest) (s t : State) (a b : Word) (shifterCarry : Bool) (v : Word) : Prop :=
  match k with
  | .logical _ => Flags t (v.getLsbD 31) (decide (v = 0)) shifterCarry (psrV s.cpsr)
  | .arith k => Flags t (v.getLsbD 31) (decide (v = 0)) (k.carry a b (psrC s.cpsr)) (k.overflow a b (psrC s.cpsr))

/-! ### Memory as bytes -/

/-- The number that `n` bytes from address `a` up make in the byte order of the machine (R62). -/
def numberAt (s : State) (a n : Nat) : Nat :=
  ((List.range n).map fun k =>
    (s.mem.read (a + k)).toNat * 256 ^ (if s.params.bigEndian then n - 1 - k else k)).sum

/-- A number of `bits` bits read as two's complement. -/
def signedOf (bits v : Nat) : Int := if v < 2 ^ (bits - 1) then v else (v : Int) - 2 ^ bits

/-- The byte that a store of `n` bytes of `v` puts at offset `k` (R62). -/
def storedByte (s : State) (v : Word) (n k : Nat) : Byte :=
  v.extractLsb' (8 * (if s.params.bigEndian then n - 1 - k else k)) 8

/-- `t` is `s` with the `n` low bytes of `v` stored from address `a` up: every other byte as before, and the addresses
marked as stored to (R76). -/
def Stores (s t : State) (a n : Nat) (v : Word) : Prop :=
  (∀ x, t.mem.read x = if a ≤ x ∧ x < a + n then storedByte s v n (x - a) else s.mem.read x) ∧
  (∀ x, x ∈ t.storedTo ↔ (a ≤ x ∧ x < a + n) ∨ x ∈ s.storedTo)

/-- The base with the offset (R224), for a word or unsigned byte transfer. -/
def sumOf (s : State) (m : Mode) (up : Bool) (rn : Reg) (off : Offset) : Word :=
  indexed up (s.rd m rn) (s.offset m off)

/-- The base with the offset (R224), for a halfword or signed transfer. -/
def halfSumOf (s : State) (m : Mode) (up : Bool) (rn : Reg) (off : HalfOffset) : Word :=
  indexed up (s.rd m rn) (s.halfOffset m off)

/-- What a store stores for a register: its value, or for r15 the instruction's address plus `PC_STORE_OFFSET` (R231,
R267), modulo 2^32 by the model's choice (log 18). -/
def storedValue (s : State) (m : Mode) (r : Reg) : Word :=
  if r = .r15 then s.pc + (if s.params.pcStoreOffset = .plus8 then 8 else 12) else s.rd m r

/-- `u` is `s` with the base register changed as `ABORT_BASE` says, and nothing else (R225). -/
def AbortBaseDone (s u : State) (m : Mode) (writesBack : Bool) (rn : Reg) (v : Word) : Prop :=
  WritesIf (writesBack && s.params.abortBase == .updated) s u m rn v ∧ u.pc = s.pc ∧ u.cpsr = s.cpsr ∧ SameRest s u

/-! ### Block transfers -/

/-- How many registers a list holds (R261). -/
def listSize (list : BitVec 16) : Nat := (List.range 16).countP fun i => list.getLsbD i

/-- How many registers of a list lie below `r`: the position of its word in the block (R262). -/
def rankIn (list : BitVec 16) (r : Reg) : Nat := (List.range r.index).countP fun i => list.getLsbD i

/-- The `LDM` of an addressing mode. -/
def ldm (bm : BlockMode) (c : Cond) (wb : Bool) (rn : Reg) (list : BitVec 16) : Instr :=
  match bm with
  | .ia => .ldmia c wb rn list
  | .ib => .ldmib c wb rn list
  | .da => .ldmda c wb rn list
  | .db => .ldmdb c wb rn list

/-- The `STM` of an addressing mode. -/
def stm (bm : BlockMode) (c : Cond) (wb : Bool) (rn : Reg) (list : BitVec 16) : Instr :=
  match bm with
  | .ia => .stmia c wb rn list
  | .ib => .stmib c wb rn list
  | .da => .stmda c wb rn list
  | .db => .stmdb c wb rn list

/-- The address of the `k`-th word of a block. -/
def wordAt (start : Word) (k : Nat) : Word := start + BitVec.ofNat 32 (4 * k)

/-- `n` words from `start` up can be accessed, and do not pass the top of the address space. -/
abbrev BlockAccessible (s : State) (kind : AccessKind) (start : Word) (n : Nat) : Prop :=
  start.toNat + 4 * n ≤ 2 ^ 32 ∧ ∀ k < n, s.aborts kind (wordAt start k) .word = false ∧
    s.admits (wordAt start k) 4 = true

/-! ### The opcode table -/

/-- A row of spec/opcode_table.json: its mnemonic, its mask and match, and the bits that should be 0 and 1 (R112). -/
structure OpcodeRow where
  mnemonic : String
  mask : Word
  value : Word
  sbz : Word
  sbo : Word
  deriving DecidableEq, Repr

/-- A word matches a row (R112). -/
abbrev OpcodeRow.Matches (r : OpcodeRow) (w : Word) : Prop := w &&& r.mask = r.value

/-- Part 1 of `opcodeTable`. -/
def opcodeRows1 : List OpcodeRow :=
  [⟨"B", 0x0F000000, 0x0A000000, 0, 0⟩, ⟨"BL", 0x0F000000, 0x0B000000, 0, 0⟩, ⟨"SWI", 0x0F000000, 0x0F000000, 0, 0⟩,
   ⟨"AND", 0x0FE00000, 0x02000000, 0, 0⟩, ⟨"AND", 0x0FE00010, 0x00000000, 0, 0⟩,
   ⟨"AND", 0x0FE00090, 0x00000010, 0, 0⟩, ⟨"EOR", 0x0FE00000, 0x02200000, 0, 0⟩,
   ⟨"EOR", 0x0FE00010, 0x00200000, 0, 0⟩, ⟨"EOR", 0x0FE00090, 0x00200010, 0, 0⟩,
   ⟨"SUB", 0x0FE00000, 0x02400000, 0, 0⟩, ⟨"SUB", 0x0FE00010, 0x00400000, 0, 0⟩,
   ⟨"SUB", 0x0FE00090, 0x00400010, 0, 0⟩, ⟨"RSB", 0x0FE00000, 0x02600000, 0, 0⟩,
   ⟨"RSB", 0x0FE00010, 0x00600000, 0, 0⟩, ⟨"RSB", 0x0FE00090, 0x00600010, 0, 0⟩,
   ⟨"ADD", 0x0FE00000, 0x02800000, 0, 0⟩, ⟨"ADD", 0x0FE00010, 0x00800000, 0, 0⟩,
   ⟨"ADD", 0x0FE00090, 0x00800010, 0, 0⟩, ⟨"ADC", 0x0FE00000, 0x02A00000, 0, 0⟩,
   ⟨"ADC", 0x0FE00010, 0x00A00000, 0, 0⟩]

/-- Part 2 of `opcodeTable`. -/
def opcodeRows2 : List OpcodeRow :=
  [⟨"ADC", 0x0FE00090, 0x00A00010, 0, 0⟩, ⟨"SBC", 0x0FE00000, 0x02C00000, 0, 0⟩,
   ⟨"SBC", 0x0FE00010, 0x00C00000, 0, 0⟩, ⟨"SBC", 0x0FE00090, 0x00C00010, 0, 0⟩,
   ⟨"RSC", 0x0FE00000, 0x02E00000, 0, 0⟩, ⟨"RSC", 0x0FE00010, 0x00E00000, 0, 0⟩,
   ⟨"RSC", 0x0FE00090, 0x00E00010, 0, 0⟩, ⟨"TST", 0x0FF00000, 0x03100000, 0x0000F000, 0⟩,
   ⟨"TST", 0x0FF00010, 0x01100000, 0x0000F000, 0⟩, ⟨"TST", 0x0FF00090, 0x01100010, 0x0000F000, 0⟩,
   ⟨"TEQ", 0x0FF00000, 0x03300000, 0x0000F000, 0⟩, ⟨"TEQ", 0x0FF00010, 0x01300000, 0x0000F000, 0⟩,
   ⟨"TEQ", 0x0FF00090, 0x01300010, 0x0000F000, 0⟩, ⟨"CMP", 0x0FF00000, 0x03500000, 0x0000F000, 0⟩,
   ⟨"CMP", 0x0FF00010, 0x01500000, 0x0000F000, 0⟩, ⟨"CMP", 0x0FF00090, 0x01500010, 0x0000F000, 0⟩,
   ⟨"CMN", 0x0FF00000, 0x03700000, 0x0000F000, 0⟩, ⟨"CMN", 0x0FF00010, 0x01700000, 0x0000F000, 0⟩,
   ⟨"CMN", 0x0FF00090, 0x01700010, 0x0000F000, 0⟩, ⟨"ORR", 0x0FE00000, 0x03800000, 0, 0⟩]

/-- Part 3 of `opcodeTable`. -/
def opcodeRows3 : List OpcodeRow :=
  [⟨"ORR", 0x0FE00010, 0x01800000, 0, 0⟩, ⟨"ORR", 0x0FE00090, 0x01800010, 0, 0⟩,
   ⟨"MOV", 0x0FE00000, 0x03A00000, 0x000F0000, 0⟩, ⟨"MOV", 0x0FE00010, 0x01A00000, 0x000F0000, 0⟩,
   ⟨"MOV", 0x0FE00090, 0x01A00010, 0x000F0000, 0⟩, ⟨"BIC", 0x0FE00000, 0x03C00000, 0, 0⟩,
   ⟨"BIC", 0x0FE00010, 0x01C00000, 0, 0⟩, ⟨"BIC", 0x0FE00090, 0x01C00010, 0, 0⟩,
   ⟨"MVN", 0x0FE00000, 0x03E00000, 0x000F0000, 0⟩, ⟨"MVN", 0x0FE00010, 0x01E00000, 0x000F0000, 0⟩,
   ⟨"MVN", 0x0FE00090, 0x01E00010, 0x000F0000, 0⟩, ⟨"MUL", 0x0FE000F0, 0x00000090, 0x0000F000, 0⟩,
   ⟨"MLA", 0x0FE000F0, 0x00200090, 0, 0⟩, ⟨"UMULL", 0x0FE000F0, 0x00800090, 0, 0⟩,
   ⟨"UMLAL", 0x0FE000F0, 0x00A00090, 0, 0⟩, ⟨"SMULL", 0x0FE000F0, 0x00C00090, 0, 0⟩,
   ⟨"SMLAL", 0x0FE000F0, 0x00E00090, 0, 0⟩, ⟨"LDR", 0x0F700000, 0x05100000, 0, 0⟩,
   ⟨"LDR", 0x0F700010, 0x07100000, 0, 0⟩, ⟨"LDR", 0x0F700000, 0x05300000, 0, 0⟩]

/-- Part 4 of `opcodeTable`. -/
def opcodeRows4 : List OpcodeRow :=
  [⟨"LDR", 0x0F700010, 0x07300000, 0, 0⟩, ⟨"LDR", 0x0F700000, 0x04100000, 0, 0⟩,
   ⟨"LDR", 0x0F700010, 0x06100000, 0, 0⟩, ⟨"STR", 0x0F700000, 0x05000000, 0, 0⟩,
   ⟨"STR", 0x0F700010, 0x07000000, 0, 0⟩, ⟨"STR", 0x0F700000, 0x05200000, 0, 0⟩,
   ⟨"STR", 0x0F700010, 0x07200000, 0, 0⟩, ⟨"STR", 0x0F700000, 0x04000000, 0, 0⟩,
   ⟨"STR", 0x0F700010, 0x06000000, 0, 0⟩, ⟨"LDRB", 0x0F700000, 0x05500000, 0, 0⟩,
   ⟨"LDRB", 0x0F700010, 0x07500000, 0, 0⟩, ⟨"LDRB", 0x0F700000, 0x05700000, 0, 0⟩,
   ⟨"LDRB", 0x0F700010, 0x07700000, 0, 0⟩, ⟨"LDRB", 0x0F700000, 0x04500000, 0, 0⟩,
   ⟨"LDRB", 0x0F700010, 0x06500000, 0, 0⟩, ⟨"STRB", 0x0F700000, 0x05400000, 0, 0⟩,
   ⟨"STRB", 0x0F700010, 0x07400000, 0, 0⟩, ⟨"STRB", 0x0F700000, 0x05600000, 0, 0⟩,
   ⟨"STRB", 0x0F700010, 0x07600000, 0, 0⟩, ⟨"STRB", 0x0F700000, 0x04400000, 0, 0⟩]

/-- Part 5 of `opcodeTable`. -/
def opcodeRows5 : List OpcodeRow :=
  [⟨"STRB", 0x0F700010, 0x06400000, 0, 0⟩, ⟨"LDRH", 0x0F7000F0, 0x015000B0, 0, 0⟩,
   ⟨"LDRH", 0x0F7000F0, 0x011000B0, 0x00000F00, 0⟩, ⟨"LDRH", 0x0F7000F0, 0x017000B0, 0, 0⟩,
   ⟨"LDRH", 0x0F7000F0, 0x013000B0, 0x00000F00, 0⟩, ⟨"LDRH", 0x0F7000F0, 0x005000B0, 0, 0⟩,
   ⟨"LDRH", 0x0F7000F0, 0x001000B0, 0x00000F00, 0⟩, ⟨"STRH", 0x0F7000F0, 0x014000B0, 0, 0⟩,
   ⟨"STRH", 0x0F7000F0, 0x010000B0, 0x00000F00, 0⟩, ⟨"STRH", 0x0F7000F0, 0x016000B0, 0, 0⟩,
   ⟨"STRH", 0x0F7000F0, 0x012000B0, 0x00000F00, 0⟩, ⟨"STRH", 0x0F7000F0, 0x004000B0, 0, 0⟩,
   ⟨"STRH", 0x0F7000F0, 0x000000B0, 0x00000F00, 0⟩, ⟨"LDRSB", 0x0F7000F0, 0x015000D0, 0, 0⟩,
   ⟨"LDRSB", 0x0F7000F0, 0x011000D0, 0x00000F00, 0⟩, ⟨"LDRSB", 0x0F7000F0, 0x017000D0, 0, 0⟩,
   ⟨"LDRSB", 0x0F7000F0, 0x013000D0, 0x00000F00, 0⟩, ⟨"LDRSB", 0x0F7000F0, 0x005000D0, 0, 0⟩,
   ⟨"LDRSB", 0x0F7000F0, 0x001000D0, 0x00000F00, 0⟩, ⟨"LDRSH", 0x0F7000F0, 0x015000F0, 0, 0⟩]

/-- Part 6 of `opcodeTable`. -/
def opcodeRows6 : List OpcodeRow :=
  [⟨"LDRSH", 0x0F7000F0, 0x011000F0, 0x00000F00, 0⟩, ⟨"LDRSH", 0x0F7000F0, 0x017000F0, 0, 0⟩,
   ⟨"LDRSH", 0x0F7000F0, 0x013000F0, 0x00000F00, 0⟩, ⟨"LDRSH", 0x0F7000F0, 0x005000F0, 0, 0⟩,
   ⟨"LDRSH", 0x0F7000F0, 0x001000F0, 0x00000F00, 0⟩, ⟨"LDMIA", 0x0FD00000, 0x08900000, 0, 0⟩,
   ⟨"LDMIB", 0x0FD00000, 0x09900000, 0, 0⟩, ⟨"LDMDA", 0x0FD00000, 0x08100000, 0, 0⟩,
   ⟨"LDMDB", 0x0FD00000, 0x09100000, 0, 0⟩, ⟨"STMIA", 0x0FD00000, 0x08800000, 0, 0⟩,
   ⟨"STMIB", 0x0FD00000, 0x09800000, 0, 0⟩, ⟨"STMDA", 0x0FD00000, 0x08000000, 0, 0⟩,
   ⟨"STMDB", 0x0FD00000, 0x09000000, 0, 0⟩, ⟨"MRS", 0x0FB000F0, 0x01000000, 0x00000F0F, 0x000F0000⟩,
   ⟨"MSR", 0x0FB000F0, 0x01200000, 0x00000F00, 0x0000F000⟩, ⟨"MSR", 0x0FB00000, 0x03200000, 0, 0x0000F000⟩]

/-- The 116 rows of spec/opcode_table.json, in its order. -/
def opcodeTable : List OpcodeRow :=
  opcodeRows1 ++ opcodeRows2 ++ opcodeRows3 ++ opcodeRows4 ++ opcodeRows5 ++ opcodeRows6

/-- The mnemonic of an instruction, as the table has it. -/
def mnemonicOf (i : Instr) : String :=
  match i with
  | .b _ _ => "B"
  | .bl _ _ => "BL"
  | .and _ _ _ _ _ => "AND"
  | .eor _ _ _ _ _ => "EOR"
  | .sub _ _ _ _ _ => "SUB"
  | .rsb _ _ _ _ _ => "RSB"
  | .add _ _ _ _ _ => "ADD"
  | .adc _ _ _ _ _ => "ADC"
  | .sbc _ _ _ _ _ => "SBC"
  | .rsc _ _ _ _ _ => "RSC"
  | .tst _ _ _ => "TST"
  | .teq _ _ _ => "TEQ"
  | .cmp _ _ _ => "CMP"
  | .cmn _ _ _ => "CMN"
  | .orr _ _ _ _ _ => "ORR"
  | .mov _ _ _ _ => "MOV"
  | .bic _ _ _ _ _ => "BIC"
  | .mvn _ _ _ _ => "MVN"
  | .mul _ _ _ _ _ => "MUL"
  | .mla _ _ _ _ _ _ => "MLA"
  | .umull _ _ _ _ _ _ => "UMULL"
  | .umlal _ _ _ _ _ _ => "UMLAL"
  | .smull _ _ _ _ _ _ => "SMULL"
  | .smlal _ _ _ _ _ _ => "SMLAL"
  | .ldr _ _ _ _ _ _ => "LDR"
  | .str _ _ _ _ _ _ => "STR"
  | .ldrb _ _ _ _ _ _ => "LDRB"
  | .strb _ _ _ _ _ _ => "STRB"
  | .ldrh _ _ _ _ _ _ => "LDRH"
  | .strh _ _ _ _ _ _ => "STRH"
  | .ldrsb _ _ _ _ _ _ => "LDRSB"
  | .ldrsh _ _ _ _ _ _ => "LDRSH"
  | .ldmia _ _ _ _ => "LDMIA"
  | .ldmib _ _ _ _ => "LDMIB"
  | .ldmda _ _ _ _ => "LDMDA"
  | .ldmdb _ _ _ _ => "LDMDB"
  | .stmia _ _ _ _ => "STMIA"
  | .stmib _ _ _ _ => "STMIB"
  | .stmda _ _ _ _ => "STMDA"
  | .stmdb _ _ _ _ => "STMDB"
  | .swi _ _ => "SWI"
  | .mrs _ _ _ => "MRS"
  | .msrReg _ _ _ _ => "MSR"
  | .msrImm _ _ _ _ _ => "MSR"

/-- The instructions that write a flag of the `cpsr` (R44). -/
def writesFlags (i : Instr) : Bool :=
  match i with
  | .and _ st _ _ _ | .eor _ st _ _ _ | .orr _ st _ _ _ | .bic _ st _ _ _ | .mov _ st _ _ | .mvn _ st _ _ => st
  | .add _ st _ _ _ | .adc _ st _ _ _ | .sub _ st _ _ _ | .sbc _ st _ _ _ | .rsb _ st _ _ _ | .rsc _ st _ _ _ => st
  | .tst _ _ _ | .teq _ _ _ | .cmp _ _ _ | .cmn _ _ _ => true
  | .mul _ st _ _ _ | .mla _ st _ _ _ _ => st
  | .umull _ st _ _ _ _ | .umlal _ st _ _ _ _ | .smull _ st _ _ _ _ | .smlal _ st _ _ _ _ => st
  | .msrReg _ spsr fields _ | .msrImm _ spsr fields _ _ => !spsr && fields.getLsbD 3
  | _ => false

/-- The instructions that store (R61, R66). -/
def isStore (i : Instr) : Bool :=
  match i with
  | .str _ _ _ _ _ _ | .strb _ _ _ _ _ _ | .strh _ _ _ _ _ _ => true
  | .stmia _ _ _ _ | .stmib _ _ _ _ | .stmda _ _ _ _ | .stmdb _ _ _ _ => true
  | _ => false

/-! ### Where the address space ends a run -/

/-- A fetch outside `MEM_MAP` that does not abort (R68). -/
def UnmappedFetchStops : Prop :=
  ∀ s : State, s.interrupt = none → s.legal = true → s.aborts .fetch s.pc .word = false → s.admits s.pc 4 = false →
    step s = .fault (.unmapped s.pc)

/-- An aligned access of one of the eight single transfers outside `MEM_MAP` that does not abort (R68). -/
def UnmappedTransferStops : Prop :=
  ∀ (s : State) (m : Mode) (c : Cond) (ix : Index) (up : Bool) (rd rn : Reg), Passes s m c →
    let stops (i : Instr) (kind : AccessKind) (a : Word) (sz : Size) : Prop :=
      isAligned a (sizeBytes sz) = true → s.aborts kind a sz = false → s.admits a (sizeBytes sz) = false →
        exec i s = .fault (.unmapped a)
    (∀ off,
      let a := accessAddr ix (s.rd m rn) (sumOf s m up rn off)
      (transferMisuse ix rd rn off.reg? = false →
        stops (.ldr c ix up rd rn off) .read a .word ∧ stops (.str c ix up rd rn off) .write a .word) ∧
      (narrowTransferMisuse ix rd rn off.reg? = false →
        stops (.ldrb c ix up rd rn off) .read a .byte ∧ stops (.strb c ix up rd rn off) .write a .byte)) ∧
    (∀ off, narrowTransferMisuse ix rd rn off.reg? = false →
      let a := accessAddr ix (s.rd m rn) (halfSumOf s m up rn off)
      stops (.ldrh c ix up rd rn off) .read a .half ∧ stops (.strh c ix up rd rn off) .write a .half ∧
      stops (.ldrsb c ix up rd rn off) .read a .byte ∧ stops (.ldrsh c ix up rd rn off) .read a .half)

/-- A block transfer whose first `j` words can be accessed and whose next word is outside `MEM_MAP` and does not abort
(R68). -/
def UnmappedBlockStops : Prop :=
  ∀ (bm : BlockMode) (s : State) (m : Mode) (c : Cond) (wb : Bool) (rn : Reg) (list : BitVec 16) (j : Nat),
    Passes s m c → isAligned (s.rd m rn) 4 = true →
    let start := blockStart bm (s.rd m rn) (listSize list)
    start.toNat + 4 * listSize list ≤ 2 ^ 32 → j < listSize list →
    let stops (i : Instr) (kind : AccessKind) : Prop :=
      BlockAccessible s kind start j → s.aborts kind (wordAt start j) .word = false →
        s.admits (wordAt start j) 4 = false → exec i s = .fault (.unmapped (wordAt start j))
    (ldmMisuse wb rn list = false → stops (ldm bm c wb rn list) .read) ∧
    (stmMisuse wb rn list = false → stops (stm bm c wb rn list) .write)

/-- A block that would pass the top of the address space (R69, R261). -/
def BlockPastTopStops : Prop :=
  ∀ (bm : BlockMode) (s : State) (m : Mode) (c : Cond) (wb : Bool) (rn : Reg) (list : BitVec 16), Passes s m c →
    isAligned (s.rd m rn) 4 = true →
    let start := blockStart bm (s.rd m rn) (listSize list)
    2 ^ 32 < start.toNat + 4 * listSize list →
    (ldmMisuse wb rn list = false → exec (ldm bm c wb rn list) s = .fault (.blockPastTop start)) ∧
    (stmMisuse wb rn list = false → exec (stm bm c wb rn list) s = .fault (.blockPastTop start))

/-- The block of an LDM or STM can be accessed from its aligned base. -/
def BlockReachable (s : State) (m : Mode) (kind : AccessKind) (bm : BlockMode) (rn : Reg) (list : BitVec 16) : Prop :=
  isAligned (s.rd m rn) 4 = true ∧
  BlockAccessible s kind (blockStart bm (s.rd m rn) (listSize list)) (listSize list)

/-- An MSR that no check turns away: of an `spsr` the mode has, or of the `cpsr` with a value it may take (R285,
R288). -/
def MsrAllowed (s : State) (m : Mode) (spsr : Bool) (fields : BitVec 4) (operand : Word) : Prop :=
  if spsr = true then s.spsr.read m ≠ none
  else
    let new := psrMerge s.cpsr operand (cpsrMask m fields)
    psrReserved new = psrReserved s.cpsr ∧ psrT new = false ∧ psrMode new ≠ none

/-- With its condition passed, the instruction does not write r15 (it neither jumps nor takes an exception), and nothing
but the end of the address space can stop it: its operands are well formed, its accesses can be made, its status
register may be read or written. -/
def WritesNoPc (s : State) (m : Mode) (i : Instr) : Prop :=
  i.wellFormed = true ∧
  match i with
  | .b _ _ | .bl _ _ | .swi _ _ => False
  | .and _ _ rd _ _ | .eor _ _ rd _ _ | .orr _ _ rd _ _ | .bic _ _ rd _ _ | .mov _ _ rd _ | .mvn _ _ rd _ => rd ≠ .r15
  | .add _ _ rd _ _ | .adc _ _ rd _ _ | .sub _ _ rd _ _ | .sbc _ _ rd _ _ | .rsb _ _ rd _ _ | .rsc _ _ rd _ _ =>
    rd ≠ .r15
  | .tst _ _ _ | .teq _ _ _ | .cmp _ _ _ | .cmn _ _ _ => True
  | .mul _ _ _ _ _ | .mla _ _ _ _ _ _ => True
  | .umull _ _ _ _ _ _ | .umlal _ _ _ _ _ _ | .smull _ _ _ _ _ _ | .smlal _ _ _ _ _ _ => True
  | .ldr _ ix up rd rn off =>
    rd ≠ .r15 ∧ Accessible s .read (accessAddr ix (s.rd m rn) (sumOf s m up rn off)) .word
  | .str _ ix up _ rn off => Accessible s .write (accessAddr ix (s.rd m rn) (sumOf s m up rn off)) .word
  | .ldrb _ ix up _ rn off => Accessible s .read (accessAddr ix (s.rd m rn) (sumOf s m up rn off)) .byte
  | .strb _ ix up _ rn off => Accessible s .write (accessAddr ix (s.rd m rn) (sumOf s m up rn off)) .byte
  | .ldrh _ ix up _ rn off => Accessible s .read (accessAddr ix (s.rd m rn) (halfSumOf s m up rn off)) .half
  | .strh _ ix up _ rn off => Accessible s .write (accessAddr ix (s.rd m rn) (halfSumOf s m up rn off)) .half
  | .ldrsb _ ix up _ rn off => Accessible s .read (accessAddr ix (s.rd m rn) (halfSumOf s m up rn off)) .byte
  | .ldrsh _ ix up _ rn off => Accessible s .read (accessAddr ix (s.rd m rn) (halfSumOf s m up rn off)) .half
  | .ldmia _ _ rn list => inList list .r15 = false ∧ BlockReachable s m .read .ia rn list
  | .ldmib _ _ rn list => inList list .r15 = false ∧ BlockReachable s m .read .ib rn list
  | .ldmda _ _ rn list => inList list .r15 = false ∧ BlockReachable s m .read .da rn list
  | .ldmdb _ _ rn list => inList list .r15 = false ∧ BlockReachable s m .read .db rn list
  | .stmia _ _ rn list => BlockReachable s m .write .ia rn list
  | .stmib _ _ rn list => BlockReachable s m .write .ib rn list
  | .stmda _ _ rn list => BlockReachable s m .write .da rn list
  | .stmdb _ _ rn list => BlockReachable s m .write .db rn list
  | .mrs _ spsr _ => spsr = true → s.spsr.read m ≠ none
  | .msrReg _ spsr fields rm => MsrAllowed s m spsr fields (s.rd m rm)
  | .msrImm _ spsr fields rot imm8 => MsrAllowed s m spsr fields (rotatedImm rot imm8)

/-- At the last word of the address space an instruction that does not write r15 stops, and so does every instruction,
and every fetched word, whose condition fails (R30, R31). -/
def LastWordStops : Prop :=
  (∀ (s : State) (i : Instr) (m : Mode), s.pc = 0xFFFFFFFC → Passes s m i.cond → WritesNoPc s m i →
    exec i s = .fault .pcPastTop) ∧
  (∀ (s : State) (i : Instr) (m : Mode), s.pc = 0xFFFFFFFC → s.mode = some m →
    conditionPassed i.cond s.cpsr = false → exec i s = .fault .pcPastTop) ∧
  (∀ (s : State) (w : Word) (c : Cond), s.pc = 0xFFFFFFFC → Fetches s w → condOf w = some c →
    conditionPassed c s.cpsr = false → step s = .fault .pcPastTop)

end Sys2Proof.Claims

open Sys2Proof Sys2Proof.Machine Sys2Proof.Claims

/-! ### Encoding -/

/-- R92 to R102 with R112: decoding the encoding of any of the 44 instructions, with every operand at every value, gives
the instruction back. -/
def Obligations.DecodeOfEncode : Prop := ∀ i : Instr, decode (encode i) = .instr i

/-- R92 to R102 with R112 and R114: a word that decodes to an instruction is the encoding of that instruction, so that
no bit of it is dropped and each instruction has one word. -/
def Obligations.EncodeOfDecode : Prop := ∀ (w : Word) (i : Instr), decode w = .instr i → encode i = w

/-- Words that the spec gives with their instruction (R141, R142, R160, R173, R162, R170, R202, R206, R230, R226, R238,
R270, R277, R280, R287, R290, R291) decode to it. -/
def Obligations.SpecWordsDecode : Prop :=
  decode 0xEAFFFFFE = .instr (.b .al 0xFFFFFE) ∧
  decode 0xEB00003C = .instr (.bl .al 0x3C) ∧
  decode 0xE21104FF = .instr (.and .al true .r0 .r1 (.imm 4 0xFF)) ∧
  decode 0xE1B00101 = .instr (.mov .al true .r0 (.shiftImm .r1 .lsl 2)) ∧
  decode 0xE2511001 = .instr (.sub .al true .r1 .r1 (.imm 0 1)) ∧
  decode 0x1350000A = .instr (.cmp .ne .r0 (.imm 0 10)) ∧
  decode 0xE0203291 = .instr (.mla .al false .r0 .r1 .r2 .r3) ∧
  decode 0xE0E10392 = .instr (.smlal .al false .r0 .r1 .r2 .r3) ∧
  decode 0xE7910102 = .instr (.ldr .al .offset true .r0 .r1 (.reg .r2 .lsl 2)) ∧
  decode 0xE481000C = .instr (.str .al .postIndexed true .r0 .r1 (.imm 12)) ∧
  decode 0xE1D100F2 = .instr (.ldrsh .al .offset true .r0 .r1 (.imm 2)) ∧
  decode 0xE8BD8010 = .instr (.ldmia .al true .r13 0x8010) ∧
  decode 0xE92D4010 = .instr (.stmdb .al true .r13 0x4010) ∧
  decode 0xEF123456 = .instr (.swi .al 0x123456) ∧
  decode 0xE14F0000 = .instr (.mrs .al true .r0) ∧
  decode 0xE16FF000 = .instr (.msrReg .al true 0xF .r0) ∧
  decode 0xE328F20F = .instr (.msrImm .al false 8 2 0x0F)

/-- R112 (which the spec marks as its own inference) and R114, against the 116 rows of spec/opcode_table.json: at most
one row matches a word; the row that matches is the instruction the word decodes to, unless a bit that should be 0 or
1 is not; a word that matches no row is no instruction. -/
def Obligations.OpcodeTableRows : Prop :=
  ∀ w : Word, field w 28 4 ≠ 0b1111#4 →
    (∀ r ∈ opcodeTable, ∀ q ∈ opcodeTable, r.Matches w → q.Matches w → r = q) ∧
    (∀ r ∈ opcodeTable, r.Matches w →
      if w &&& r.sbz = 0 ∧ w &&& r.sbo = r.sbo then ∃ i, decode w = .instr i ∧ mnemonicOf i = r.mnemonic
      else decode w = .refused .shouldBeBits) ∧
    ((∀ r ∈ opcodeTable, ¬ r.Matches w) → ∀ i, decode w ≠ .instr i)

/-- R117: a fetched word of the architecturally UNDEFINED space whose condition passes takes the Undefined Instruction
exception (R307), and no other word decodes as undefined or asks for that exception. In the last word of the address
space the link value `pc + 4` is taken modulo 2^32, which the model deduced (log 12). -/
def Obligations.UndefinedSpace : Prop :=
  (∀ (s : State) (w : Word) (c : Cond), Fetches s w → condOf w = some c → conditionPassed c s.cpsr = true →
    field w 25 3 = 0b011#3 → bitAt w 4 = true →
    ∃ u, step s = .next u.tick ∧ Entered s u .undefinedInstruction) ∧
  (∀ w : Word, decode w = .undefined → field w 25 3 = 0b011#3 ∧ bitAt w 4 = true) ∧
  (∀ w p : Word, issue w p = .undefined → field w 25 3 = 0b011#3 ∧ bitAt w 4 = true)

/-- R116: a fetched word with condition field 0b1111 is refused, whatever its other bits. -/
def Obligations.NeverCondition : Prop :=
  ∀ (s : State) (w : Word), Fetches s w → field w 28 4 = 0b1111#4 →
    step s = .refused (.undecodable .conditionNever)

/-- R118: a word that matches no row of the table and is not UNDEFINED is refused, under the name of its space; where
its condition passes, the step that fetches it is. -/
def Obligations.UnallocatedRefused : Prop :=
  (∀ (s : State) (w : Word) (c : Cond) (why : Undecodable), Fetches s w → condOf w = some c →
    conditionPassed c s.cpsr = true → decode w = .refused why → step s = .refused (.undecodable why)) ∧
  ∀ w : Word, field w 28 4 ≠ 0b1111#4 →
    ((∀ r ∈ opcodeTable, ¬ r.Matches w) → ¬ (field w 25 3 = 0b011#3 ∧ bitAt w 4 = true) →
      ∃ why, decode w = .refused why) ∧
    (w &&& 0x0FB000F0 = 0x01000090 → decode w = .refused .swap) ∧
    (w &&& 0x0FF000F0 = 0x01200010 → decode w = .refused .branchExchange) ∧
    (w &&& 0x0D200000 = 0x04200000 → ¬ (w &&& 0x02000010 = 0x02000010) → decode w = .refused .userModeTransfer) ∧
    (w &&& 0x0F200090 = 0x00200090 → w &&& 0x00000060 ≠ 0 → decode w = .refused .halfPostIndexedW) ∧
    (w &&& 0x0E1000D0 = 0x000000D0 → w &&& 0x01200000 ≠ 0x00200000 → decode w = .refused .signedStore) ∧
    (w &&& 0x0E400000 = 0x08400000 → decode w = .refused .userBankBlock) ∧
    (w &&& 0x0FC000F0 = 0x00400090 → decode w = .refused .multiplySpace) ∧
    (w &&& 0x0D900000 = 0x01000000 → w &&& 0x02000090 ≠ 0x00000090 → w &&& 0x0FF000F0 ≠ 0x01200010 →
      w &&& 0x0FB000F0 ≠ 0x01000000 → w &&& 0x0FB000F0 ≠ 0x01200000 → w &&& 0x0FB00000 ≠ 0x03200000 →
      decode w = .refused .miscellaneous) ∧
    (w &&& 0x0E000000 = 0x0C000000 → decode w = .refused .coprocessor) ∧
    (w &&& 0x0F000000 = 0x0E000000 → decode w = .refused .coprocessor)

/-! ### The step and the condition -/

/-- R45: with no interrupt due, ARM state, an aligned pc, a legal mode, and the four bytes at the pc readable and not
stored by the program, a step runs the instruction that those bytes decode to, and then the environment moves on. -/
def Obligations.StepRunsDecoded : Prop :=
  ∀ (s : State) (i : Instr),
    (s.env.fiqLine = false ∨ psrF s.cpsr = true) → (s.env.irqLine = false ∨ psrI s.cpsr = true) →
    psrT s.cpsr = false → psrJ s.cpsr = false → s.mode ≠ none → Accessible s .fetch s.pc .word →
    (∀ k < 4, s.pc.toNat + k ∉ s.storedTo) →
    decodeBytes s.params.bigEndian ((List.range 4).map fun k => s.mem.read (s.pc.toNat + k)) = .instr i →
    step s = tickOut (exec i s)

/-- R131, R30: a fetched word whose condition fails changes the pc alone, also where its other bits are UNDEFINED or
refused; and so does every instruction. A condition field of 0b1111 is refused before the test. -/
def Obligations.FailedCondition : Prop :=
  (∀ (s : State) (w : Word) (c : Cond), Fetches s w → condOf w = some c → conditionPassed c s.cpsr = false →
    Room s → step s = .next (s.setPc (s.pc + 4)).tick) ∧
  (∀ (s : State) (i : Instr) (m : Mode), s.mode = some m → conditionPassed i.cond s.cpsr = false → Room s →
    ∃ t, exec i s = .next t ∧ t.pc = s.pc + 4 ∧ SameRegs s t ∧ t.cpsr = s.cpsr ∧ SameRest s t) ∧
  (∀ (s : State) (w : Word), Fetches s w → field w 28 4 = 0b1111#4 → ∃ r, step s = .refused r)

/-- R132: when each of the fifteen conditions passes, with the number of its field (R110). -/
def Obligations.ConditionTable : Prop :=
  ∀ p : Word, let n := p.getLsbD 31; let z := p.getLsbD 30; let c := p.getLsbD 29; let v := p.getLsbD 28
    let row (number : BitVec 4) (passes : Prop) : Prop :=
      ∃ k, Cond.ofNum number = some k ∧ (conditionPassed k p = true ↔ passes)
    row 0 (z = true) ∧ row 1 (z = false) ∧ row 2 (c = true) ∧ row 3 (c = false) ∧ row 4 (n = true) ∧
    row 5 (n = false) ∧ row 6 (v = true) ∧ row 7 (v = false) ∧ row 8 (c = true ∧ z = false) ∧
    row 9 (c = false ∨ z = true) ∧ row 10 (n = v) ∧ row 11 (n ≠ v) ∧ row 12 (z = false ∧ n = v) ∧
    row 13 (z = true ∨ n ≠ v) ∧ row 14 True ∧ Cond.ofNum 15 = none

/-- R132 and R170: after `CMP` the conditions are the orderings of the two operands, unsigned and signed, also where
the subtraction overflows. -/
def Obligations.ComparisonOrderings : Prop :=
  ∀ (s : State) (m : Mode) (c : Cond) (rn : Reg) (o : Operand2),
    Passes s m c → Room s → o.pcMisuse [rn] = false →
    ∃ t, exec (.cmp c rn o) s = .next t ∧
      let a := s.rd m rn
      let b := (s.operand2 m o).value
      (conditionPassed .eq t.cpsr = true ↔ a = b) ∧ (conditionPassed .ne t.cpsr = true ↔ a ≠ b) ∧
      (conditionPassed .cs t.cpsr = true ↔ b.toNat ≤ a.toNat) ∧
      (conditionPassed .cc t.cpsr = true ↔ a.toNat < b.toNat) ∧
      (conditionPassed .hi t.cpsr = true ↔ b.toNat < a.toNat) ∧
      (conditionPassed .ls t.cpsr = true ↔ a.toNat ≤ b.toNat) ∧
      (conditionPassed .ge t.cpsr = true ↔ b.toInt ≤ a.toInt) ∧
      (conditionPassed .lt t.cpsr = true ↔ a.toInt < b.toInt) ∧
      (conditionPassed .gt t.cpsr = true ↔ b.toInt < a.toInt) ∧
      (conditionPassed .le t.cpsr = true ↔ a.toInt ≤ b.toInt)

/-! ### Branches -/

/-- R141 to R143, R104: `B` and `BL` go to the branch's address plus 8 plus four times the signed 24-bit offset,
modulo 2^32 (R143 says so); `BL` writes the address of the next instruction to the r14 of the current mode; nothing
else changes. In the last word of the address space that link value is taken modulo 2^32, which the model deduced (log
12). -/
def Obligations.BranchTargets : Prop :=
  ∀ (s : State) (m : Mode) (c : Cond) (offset : BitVec 24), Passes s m c →
    (∃ t, exec (.b c offset) s = .next t ∧ (t.pc.toNat : Int) = (s.pc.toNat + 8 + 4 * offset.toInt) % 2 ^ 32 ∧
      SameRegs s t ∧ t.cpsr = s.cpsr ∧ SameRest s t) ∧
    (∃ t, exec (.bl c offset) s = .next t ∧ (t.pc.toNat : Int) = (s.pc.toNat + 8 + 4 * offset.toInt) % 2 ^ 32 ∧
      Writes s t m .r14 (s.pc + 4) ∧ t.cpsr = s.cpsr ∧ SameRest s t)

/-! ### Data processing -/

/-- R156, R160, R161, R172 to R175, R44: AND, EOR, ORR, BIC, MOV and MVN with a destination other than r15 write their
result there and, with `S`, the flags (V stays); nothing else changes but the pc. -/
def Obligations.LogicalResults : Prop :=
  ∀ (k : Logical) (s : State) (m : Mode) (c : Cond) (st : Bool) (rd rn : Reg) (o : Operand2),
    Passes s m c → Room s → rd ≠ .r15 → o.pcMisuse (k.regs rd rn) = false →
    ∃ t v, exec (k.instr c st rd rn o) s = .next t ∧
      (Dest.logical k).Result (s.rd m rn) (s.operand2 m o).value (psrC s.cpsr) v ∧
      Writes s t m rd v ∧ t.pc = s.pc + 4 ∧ SameControl s t ∧ SameRest s t ∧
      (if st then (Dest.logical k).SetsFlags s t (s.rd m rn) (s.operand2 m o).value (s.operand2 m o).carry v
       else t.cpsr = s.cpsr)

/-- R156, R162 to R167, R176, R44: ADD, ADC, SUB, SBC, RSB and RSC with a destination other than r15 write their exact
integer value modulo 2^32 there and, with `S`, the flags: C for the unsigned reading, V for the signed one; nothing
else changes but the pc. -/
def Obligations.ArithmeticResults : Prop :=
  ∀ (k : Arith) (s : State) (m : Mode) (c : Cond) (st : Bool) (rd rn : Reg) (o : Operand2),
    Passes s m c → Room s → rd ≠ .r15 → o.pcMisuse [rd, rn] = false →
    ∃ t v, exec (k.instr c st rd rn o) s = .next t ∧
      (Dest.arith k).Result (s.rd m rn) (s.operand2 m o).value (psrC s.cpsr) v ∧
      Writes s t m rd v ∧ t.pc = s.pc + 4 ∧ SameControl s t ∧ SameRest s t ∧
      (if st then (Dest.arith k).SetsFlags s t (s.rd m rn) (s.operand2 m o).value (s.operand2 m o).carry v
       else t.cpsr = s.cpsr)

/-- R156, R168 to R171, R44: TST and TEQ set the flags of AND and EOR, CMP and CMN those of SUB and ADD; they write no
register, and nothing else changes but the pc. -/
def Obligations.ComparisonFlags : Prop :=
  ∀ (k : Comparison) (s : State) (m : Mode) (c : Cond) (rn : Reg) (o : Operand2),
    Passes s m c → Room s → o.pcMisuse [rn] = false →
    ∃ t v, exec (k.instr c rn o) s = .next t ∧
      k.like.Result (s.rd m rn) (s.operand2 m o).value (psrC s.cpsr) v ∧
      SameRegs s t ∧ t.pc = s.pc + 4 ∧ SameControl s t ∧ SameRest s t ∧
      k.like.SetsFlags s t (s.rd m rn) (s.operand2 m o).value (s.operand2 m o).carry v

/-- R158: the twelve data-processing instructions with a destination, `S = 0` and destination r15 jump to their
result, which must be word aligned, else they are refused; no flag is written. A comparison has no destination: its
word has 0 in the field, and a word with another value there is refused. -/
def Obligations.ResultJump : Prop :=
  (∀ (q : Comparison) (c : Cond) (rn : Reg) (o : Operand2), field (encode (q.instr c rn o)) 12 4 = 0) ∧
  (∀ w : Word, field w 28 4 ≠ 0b1111#4 → w &&& 0x0D900000 = 0x01100000 → w &&& 0x02000090 ≠ 0x00000090 →
    field w 12 4 ≠ 0 → decode w = .refused .shouldBeBits) ∧
  ∀ (k : Dest) (s : State) (m : Mode) (c : Cond) (rn : Reg) (o : Operand2) (v : Word),
    Passes s m c → o.pcMisuse (k.regs .r15 rn) = false →
    k.Result (s.rd m rn) (s.operand2 m o).value (psrC s.cpsr) v →
    (v.extractLsb' 0 2 = 0 →
      ∃ t, exec (k.instr c false .r15 rn o) s = .next t ∧ t.pc = v ∧ SameRegs s t ∧ t.cpsr = s.cpsr ∧
        SameRest s t) ∧
    (v.extractLsb' 0 2 ≠ 0 → exec (k.instr c false .r15 rn o) s = .refused .pcResultMisaligned)

/-- R157: the twelve data-processing instructions with a destination, `S = 1` and destination r15 put the `spsr` of the
current mode into the `cpsr` and their result, computed with the registers of that mode, into the pc; they are refused
in User and System mode, where the `spsr` would set T or J, name an illegal mode or change a reserved bit, and where the
result is not word aligned. (J is 0 in the `cpsr`, R38.) -/
def Obligations.ExceptionReturn : Prop :=
  ∀ (k : Dest) (s : State) (m : Mode) (c : Cond) (rn : Reg) (o : Operand2) (v : Word),
    Passes s m c → psrJ s.cpsr = false → o.pcMisuse (k.regs .r15 rn) = false →
    k.Result (s.rd m rn) (s.operand2 m o).value (psrC s.cpsr) v →
    ((m = .user ∨ m = .system) → exec (k.instr c true .r15 rn o) s = .refused .noSpsr) ∧
    (∀ new, s.spsr.read m = some new →
      if psrT new = false ∧ psrJ new = false ∧ psrMode new ≠ none ∧
          new.getLsbD 27 = s.cpsr.getLsbD 27 ∧ new.extractLsb' 25 2 = s.cpsr.extractLsb' 25 2 ∧
          new.extractLsb' 8 16 = s.cpsr.extractLsb' 8 16 ∧ v.extractLsb' 0 2 = 0 then
        ∃ t, exec (k.instr c true .r15 rn o) s = .next t ∧ t.cpsr = new ∧ t.pc = v ∧ SameRegs s t ∧ SameRest s t
      else ∃ r, exec (k.instr c true .r15 rn o) s = .refused r)

/-- R151, R103: an immediate operand is the 8-bit value, zero-extended and rotated right by twice the rotation; its
carry-out is C where the rotation is 0, otherwise bit 31 of the operand. -/
def Obligations.ImmediateOperand : Prop :=
  ∀ (s : State) (m : Mode) (rot : BitVec 4) (imm8 : BitVec 8),
    let o := s.operand2 m (.imm rot imm8)
    (∀ i < 32, o.value.getLsbD i = (imm8.setWidth 32).getLsbD ((i + 2 * rot.toNat) % 32)) ∧
    o.carry = (if rot = 0 then psrC s.cpsr else o.value.getLsbD 31)

/-- R152: the table of a register shifted by a constant; an amount of 0 is no shift for LSL, a shift by 32 for LSR and
ASR, and RRX for ROR. -/
def Obligations.ConstantShifts : Prop :=
  ∀ (s : State) (m : Mode) (rm : Reg) (kind : ShiftKind) (amount : BitVec 5),
    let v := s.rd m rm
    let n := amount.toNat
    let o := s.operand2 m (.shiftImm rm kind amount)
    match kind with
    | .lsl =>
      if n = 0 then o.value = v ∧ o.carry = psrC s.cpsr
      else o.value.toNat = v.toNat * 2 ^ n % 2 ^ 32 ∧ o.carry = v.getLsbD (32 - n)
    | .lsr =>
      if n = 0 then o.value = 0 ∧ o.carry = v.getLsbD 31
      else o.value.toNat = v.toNat / 2 ^ n ∧ o.carry = v.getLsbD (n - 1)
    | .asr =>
      if n = 0 then o.value = (if v.getLsbD 31 then 0xFFFFFFFF else 0) ∧ o.carry = v.getLsbD 31
      else o.value.toInt = v.toInt / 2 ^ n ∧ o.carry = v.getLsbD (n - 1)
    | .ror =>
      if n = 0 then
        o.value.getLsbD 31 = psrC s.cpsr ∧ (∀ i < 31, o.value.getLsbD i = v.getLsbD (i + 1)) ∧
          o.carry = v.getLsbD 0
      else (∀ i < 32, o.value.getLsbD i = v.getLsbD ((i + n) % 32)) ∧ o.carry = v.getLsbD (n - 1)

/-- R153: the table of a register shifted by the low byte of a register; and every one of the sixteen data-processing
instructions with r15 in such a form is refused. -/
def Obligations.RegisterShifts : Prop :=
  (∀ (s : State) (m : Mode) (rm rs : Reg) (kind : ShiftKind), rm ≠ .r15 → rs ≠ .r15 →
    let v := s.rd m rm
    let n := ((s.rd m rs).extractLsb' 0 8).toNat
    let o := s.operand2 m (.shiftReg rm kind rs)
    if n = 0 then o.value = v ∧ o.carry = psrC s.cpsr
    else
      match kind with
      | .lsl =>
        if n < 32 then o.value.toNat = v.toNat * 2 ^ n % 2 ^ 32 ∧ o.carry = v.getLsbD (32 - n)
        else o.value = 0 ∧ o.carry = (decide (n = 32) && v.getLsbD 0)
      | .lsr =>
        if n < 32 then o.value.toNat = v.toNat / 2 ^ n ∧ o.carry = v.getLsbD (n - 1)
        else o.value = 0 ∧ o.carry = (decide (n = 32) && v.getLsbD 31)
      | .asr =>
        if n < 32 then o.value.toInt = v.toInt / 2 ^ n ∧ o.carry = v.getLsbD (n - 1)
        else o.value = (if v.getLsbD 31 then 0xFFFFFFFF else 0) ∧ o.carry = v.getLsbD 31
      | .ror =>
        if n % 32 = 0 then o.value = v ∧ o.carry = v.getLsbD 31
        else (∀ i < 32, o.value.getLsbD i = v.getLsbD ((i + n) % 32)) ∧ o.carry = v.getLsbD (n % 32 - 1)) ∧
  (∀ (s : State) (m : Mode) (c : Cond) (st : Bool) (rd rn rm rs : Reg) (kind : ShiftKind) (k : Dest)
    (q : Comparison), Passes s m c →
    (rm = .r15 ∨ rs = .r15 ∨ Reg.r15 ∈ k.regs rd rn →
      exec (k.instr c st rd rn (.shiftReg rm kind rs)) s = .refused .pcInRegisterShift) ∧
    (rm = .r15 ∨ rs = .r15 ∨ rn = .r15 →
      exec (q.instr c rn (.shiftReg rm kind rs)) s = .refused .pcInRegisterShift))

/-- R24, R29: which physical register a name means in each mode, by the register's number; r15 reads as the
instruction's address plus 8. In the last two words of the address space that sum is taken modulo 2^32, which the model
deduced (log 12). -/
def Obligations.RegisterBanks : Prop :=
  ∀ (s : State) (m : Mode) (r : Reg),
    (r.index ≤ 7 → physReg r m = [.r0, .r1, .r2, .r3, .r4, .r5, .r6, .r7][r.index]?) ∧
    (8 ≤ r.index → r.index ≤ 12 → m ≠ .fiq → physReg r m = [.r8, .r9, .r10, .r11, .r12][r.index - 8]?) ∧
    (8 ≤ r.index → r.index ≤ 12 → m = .fiq →
      physReg r m = [.r8_fiq, .r9_fiq, .r10_fiq, .r11_fiq, .r12_fiq][r.index - 8]?) ∧
    (physReg .r13 m, physReg .r14 m) =
      (match m with
       | .user | .system => (some .r13, some .r14)
       | .fiq => (some .r13_fiq, some .r14_fiq)
       | .irq => (some .r13_irq, some .r14_irq)
       | .supervisor => (some .r13_svc, some .r14_svc)
       | .undef => (some .r13_und, some .r14_und)
       | .abort => (some .r13_abt, some .r14_abt)) ∧
    (∀ p, physReg r m = some p → s.rd m r = s.regs.read p) ∧ s.rd m .r15 = s.pc + 8

/-! ### Multiplies -/

/-- R201, R202, R208: MUL and MLA write the product, for MLA with `Rn` added, modulo 2^32; with `S` they set N and Z
from it, C becomes a free bit and V stays; nothing else changes but the pc. -/
def Obligations.ShortMultiplies : Prop :=
  ∀ (s : State) (m : Mode) (c : Cond) (st : Bool) (rd rm rs rn : Reg), Passes s m c → Room s →
    rd ≠ .r15 → rm ≠ .r15 → rs ≠ .r15 → rd ≠ rm →
    let does (i : Instr) (total : Nat) : Prop :=
      ∃ t v, exec i s = .next t ∧ v.toNat = total % 2 ^ 32 ∧ Writes s t m rd v ∧ t.pc = s.pc + 4 ∧
        SameControl s t ∧ t.spsr = s.spsr ∧ SameMemory s t ∧ SameInputs s t ∧
        (if st then Flags t (v.getLsbD 31) (decide (v = 0)) (Config.freeBit s.draws) (psrV s.cpsr) ∧
            t.draws = s.draws + 1
          else t.cpsr = s.cpsr ∧ t.draws = s.draws)
    does (.mul c st rd rm rs) ((s.rd m rm).toNat * (s.rd m rs).toNat) ∧
    (rn ≠ .r15 → does (.mla c st rd rm rs rn) ((s.rd m rm).toNat * (s.rd m rs).toNat + (s.rd m rn).toNat))

/-- R203 to R206, R208, R209: UMULL, UMLAL, SMULL and SMLAL write the 64-bit product of the unsigned or signed
operands, for the accumulating two with the old `RdHi:RdLo` added, modulo 2^64, high half to `RdHi`, low half to `RdLo`;
with `S` they set N and Z from all 64 bits, and C and V become free bits; nothing else changes but the pc. -/
def Obligations.LongMultiplies : Prop :=
  ∀ (s : State) (m : Mode) (c : Cond) (st : Bool) (rdLo rdHi rm rs : Reg), Passes s m c → Room s →
    rdLo ≠ .r15 → rdHi ≠ .r15 → rm ≠ .r15 → rs ≠ .r15 → rdHi ≠ rdLo → rdHi ≠ rm → rdLo ≠ rm →
    let does (i : Instr) (total : Int) : Prop :=
      ∃ t lo hi, exec i s = .next t ∧ ((hi.toNat * 2 ^ 32 + lo.toNat : Nat) : Int) = total % 2 ^ 64 ∧
        WritesTwo s t m rdLo lo rdHi hi ∧ t.pc = s.pc + 4 ∧ SameControl s t ∧ t.spsr = s.spsr ∧ SameMemory s t ∧
        SameInputs s t ∧
        (if st then Flags t (hi.getLsbD 31) (decide (hi = 0) && decide (lo = 0)) (Config.freeBit s.draws)
              (Config.freeBit (s.draws + 1)) ∧ t.draws = s.draws + 2
          else t.cpsr = s.cpsr ∧ t.draws = s.draws)
    let old : Int := ((s.rd m rdHi).toNat * 2 ^ 32 + (s.rd m rdLo).toNat : Nat)
    does (.umull c st rdLo rdHi rm rs) ((s.rd m rm).toNat * (s.rd m rs).toNat) ∧
    does (.umlal c st rdLo rdHi rm rs) ((s.rd m rm).toNat * (s.rd m rs).toNat + old) ∧
    does (.smull c st rdLo rdHi rm rs) ((s.rd m rm).toInt * (s.rd m rs).toInt) ∧
    does (.smlal c st rdLo rdHi rm rs) ((s.rd m rm).toInt * (s.rd m rs).toInt + old)

/-- R207: the six multiplies are refused where a register field is 15, MUL and MLA where `Rd = Rm`, the long forms where
`RdHi = RdLo`, `RdHi = Rm` or `RdLo = Rm`. -/
def Obligations.MultiplyRestrictions : Prop :=
  ∀ (s : State) (m : Mode) (c : Cond) (st : Bool) (ra rb rm rs : Reg), Passes s m c →
    (ra = .r15 ∨ rm = .r15 ∨ rs = .r15 ∨ ra = rm → exec (.mul c st ra rm rs) s = .refused .multiplyOperands) ∧
    (ra = .r15 ∨ rb = .r15 ∨ rm = .r15 ∨ rs = .r15 ∨ ra = rm →
      exec (.mla c st ra rm rs rb) s = .refused .multiplyOperands) ∧
    (ra = .r15 ∨ rb = .r15 ∨ rm = .r15 ∨ rs = .r15 ∨ rb = ra ∨ rb = rm ∨ ra = rm →
      exec (.umull c st ra rb rm rs) s = .refused .multiplyOperands ∧
      exec (.umlal c st ra rb rm rs) s = .refused .multiplyOperands ∧
      exec (.smull c st ra rb rm rs) s = .refused .multiplyOperands ∧
      exec (.smlal c st ra rb rm rs) s = .refused .multiplyOperands)

/-! ### Single transfers -/

/-- R230, R223, R224, R62: LDR of a register other than r15 from an accessible address loads the word there, writes the
base back in the pre-indexed and post-indexed forms, and changes nothing else but the pc. -/
def Obligations.LoadWord : Prop :=
  ∀ (s : State) (m : Mode) (c : Cond) (ix : Index) (up : Bool) (rd rn : Reg) (off : Offset),
    Passes s m c → Room s → rd ≠ .r15 → transferMisuse ix rd rn off.reg? = false →
    let sum := sumOf s m up rn off
    let a := accessAddr ix (s.rd m rn) sum
    Accessible s .read a .word →
    ∃ t v, exec (.ldr c ix up rd rn off) s = .next t ∧ v.toNat = numberAt s a.toNat 4 ∧
      (if ix.writesBack then WritesTwo s t m rd v rn sum else Writes s t m rd v) ∧
      t.pc = s.pc + 4 ∧ t.cpsr = s.cpsr ∧ SameRest s t

/-- R233, R235, R237, R238, R66, R223, R224: LDRB and LDRH zero-extend, LDRSB and LDRSH sign-extend the byte or halfword
at an accessible address; the base is written back in the pre-indexed and post-indexed forms, and nothing else changes
but the pc. -/
def Obligations.LoadNarrow : Prop :=
  ∀ (s : State) (m : Mode) (c : Cond) (ix : Index) (up : Bool) (rd rn : Reg), Passes s m c → Room s →
    let does (i : Instr) (sum : Word) (v : Word) : Prop :=
      ∃ t, exec i s = .next t ∧ (if ix.writesBack then WritesTwo s t m rd v rn sum else Writes s t m rd v) ∧
        t.pc = s.pc + 4 ∧ t.cpsr = s.cpsr ∧ SameRest s t
    (∀ off, narrowTransferMisuse ix rd rn off.reg? = false →
      let sum := sumOf s m up rn off
      let a := accessAddr ix (s.rd m rn) sum
      Accessible s .read a .byte → ∃ v, v.toNat = numberAt s a.toNat 1 ∧ does (.ldrb c ix up rd rn off) sum v) ∧
    (∀ off, narrowTransferMisuse ix rd rn off.reg? = false →
      let sum := halfSumOf s m up rn off
      let a := accessAddr ix (s.rd m rn) sum
      (Accessible s .read a .half → ∃ v, v.toNat = numberAt s a.toNat 2 ∧ does (.ldrh c ix up rd rn off) sum v) ∧
      (Accessible s .read a .byte →
        ∃ v, v.toInt = signedOf 8 (numberAt s a.toNat 1) ∧ does (.ldrsb c ix up rd rn off) sum v) ∧
      (Accessible s .read a .half →
        ∃ v, v.toInt = signedOf 16 (numberAt s a.toNat 2) ∧ does (.ldrsh c ix up rd rn off) sum v))

/-- R232: LDR of r15 puts the word loaded, its two low bits cleared, into the pc; the base is written back as in the
other forms, and nothing else changes. -/
def Obligations.LoadPc : Prop :=
  ∀ (s : State) (m : Mode) (c : Cond) (ix : Index) (up : Bool) (rn : Reg) (off : Offset),
    Passes s m c → transferMisuse ix .r15 rn off.reg? = false →
    let sum := sumOf s m up rn off
    let a := accessAddr ix (s.rd m rn) sum
    Accessible s .read a .word →
    ∃ t v, exec (.ldr c ix up .r15 rn off) s = .next t ∧ v.toNat = numberAt s a.toNat 4 ∧
      t.pc = v &&& 0xFFFFFFFC ∧ WritesIf ix.writesBack s t m rn sum ∧ t.cpsr = s.cpsr ∧ SameRest s t

/-- R231, R234, R236, R239, R62, R223, R224: STR, STRB and STRH store the low four, one or two bytes of a register
(STR of r15: of the instruction's address plus `PC_STORE_OFFSET`) at an accessible address, every other byte of memory
staying as it was; the base is written back in the pre-indexed and post-indexed forms, and nothing else changes but
the pc. That the sum stored for r15 wraps near the top of the address space is the model's choice (log 18). -/
def Obligations.StoreSingle : Prop :=
  ∀ (s : State) (m : Mode) (c : Cond) (ix : Index) (up : Bool) (rd rn : Reg), Passes s m c → Room s →
    s.memOk = true →
    let does (i : Instr) (sum a : Word) (n : Nat) : Prop :=
      ∃ t, exec i s = .next t ∧ Stores s t a.toNat n (storedValue s m rd) ∧ WritesIf ix.writesBack s t m rn sum ∧
        t.pc = s.pc + 4 ∧ t.cpsr = s.cpsr ∧ t.spsr = s.spsr ∧ t.draws = s.draws ∧ SameInputs s t
    (∀ off,
      let sum := sumOf s m up rn off
      let a := accessAddr ix (s.rd m rn) sum
      (transferMisuse ix rd rn off.reg? = false → Accessible s .write a .word →
        does (.str c ix up rd rn off) sum a 4) ∧
      (narrowTransferMisuse ix rd rn off.reg? = false → Accessible s .write a .byte →
        does (.strb c ix up rd rn off) sum a 1)) ∧
    (∀ off,
      let sum := halfSumOf s m up rn off
      let a := accessAddr ix (s.rd m rn) sum
      narrowTransferMisuse ix rd rn off.reg? = false → Accessible s .write a .half →
        does (.strh c ix up rd rn off) sum a 2)

/-- R221 to R224, R105: the offsets of the single transfers, the base with the offset added or subtracted modulo 2^32,
and the address each of the three forms accesses and whether it writes back. -/
def Obligations.AddressForms : Prop :=
  ∀ (s : State) (m : Mode) (up : Bool) (rn rm : Reg) (kind : ShiftKind) (amount : BitVec 5) (imm12 : BitVec 12)
    (imm8 : BitVec 8) (off : Offset) (half : HalfOffset),
    (s.offset m (.imm imm12)).toNat = imm12.toNat ∧
    s.offset m (.reg rm kind amount) = (s.operand2 m (.shiftImm rm kind amount)).value ∧
    (s.halfOffset m (.imm imm8)).toNat = imm8.toNat ∧ s.halfOffset m (.reg rm) = s.rd m rm ∧
    ((sumOf s m up rn off).toNat : Int) =
      ((s.rd m rn).toNat + (if up then 1 else -1) * (s.offset m off).toNat) % 2 ^ 32 ∧
    ((halfSumOf s m up rn half).toNat : Int) =
      ((s.rd m rn).toNat + (if up then 1 else -1) * (s.halfOffset m half).toNat) % 2 ^ 32 ∧
    (∀ base sum, accessAddr .offset base sum = sum ∧ accessAddr .preIndexed base sum = sum ∧
      accessAddr .postIndexed base sum = base) ∧
    Index.offset.writesBack = false ∧ Index.preIndexed.writesBack = true ∧ Index.postIndexed.writesBack = true

/-- R65: LDR and STR at an address that is not a multiple of 4, LDRH, STRH and LDRSH at an odd address, and the eight
block transfers with a base that is not a multiple of 4 are refused. -/
def Obligations.MisalignedRefused : Prop :=
  ∀ (s : State) (m : Mode) (c : Cond) (ix : Index) (up : Bool) (rd rn : Reg), Passes s m c →
    (∀ off, transferMisuse ix rd rn off.reg? = false →
      let a := accessAddr ix (s.rd m rn) (sumOf s m up rn off)
      a.extractLsb' 0 2 ≠ 0 →
        exec (.ldr c ix up rd rn off) s = .refused (.misalignedAccess a) ∧
        exec (.str c ix up rd rn off) s = .refused (.misalignedAccess a)) ∧
    (∀ off, narrowTransferMisuse ix rd rn off.reg? = false →
      let a := accessAddr ix (s.rd m rn) (halfSumOf s m up rn off)
      a.getLsbD 0 = true →
        exec (.ldrh c ix up rd rn off) s = .refused (.misalignedAccess a) ∧
        exec (.strh c ix up rd rn off) s = .refused (.misalignedAccess a) ∧
        exec (.ldrsh c ix up rd rn off) s = .refused (.misalignedAccess a)) ∧
    (∀ bm wb list, (s.rd m rn).extractLsb' 0 2 ≠ 0 →
      (ldmMisuse wb rn list = false →
        exec (ldm bm c wb rn list) s = .refused (.misalignedAccess (s.rd m rn))) ∧
      (stmMisuse wb rn list = false →
        exec (stm bm c wb rn list) s = .refused (.misalignedAccess (s.rd m rn))))

/-- R225, R310: where the access of one of the eight single transfers aborts, it does not happen: no register is
loaded and no byte stored, the base is written back only as `ABORT_BASE` says, and Data Abort is taken. In the last
two words of the address space the link value `pc + 8` is taken modulo 2^32, which the model deduced (log 12). -/
def Obligations.TransferAbort : Prop :=
  ∀ (s : State) (m : Mode) (c : Cond) (ix : Index) (up : Bool) (rd rn : Reg), Passes s m c →
    let aborts (i : Instr) (sum : Word) : Prop :=
      ∃ u t, exec i s = .next t ∧ AbortBaseDone s u m ix.writesBack rn sum ∧ Entered u t .dataAbort
    (∀ off,
      let sum := sumOf s m up rn off
      let a := accessAddr ix (s.rd m rn) sum
      (transferMisuse ix rd rn off.reg? = false → isAligned a 4 = true →
        (s.aborts .read a .word = true → aborts (.ldr c ix up rd rn off) sum) ∧
        (s.aborts .write a .word = true → aborts (.str c ix up rd rn off) sum)) ∧
      (narrowTransferMisuse ix rd rn off.reg? = false →
        (s.aborts .read a .byte = true → aborts (.ldrb c ix up rd rn off) sum) ∧
        (s.aborts .write a .byte = true → aborts (.strb c ix up rd rn off) sum))) ∧
    (∀ off, narrowTransferMisuse ix rd rn off.reg? = false →
      let sum := halfSumOf s m up rn off
      let a := accessAddr ix (s.rd m rn) sum
      (s.aborts .read a .byte = true → aborts (.ldrsb c ix up rd rn off) sum) ∧
      (isAligned a 2 = true →
        (s.aborts .read a .half = true →
          aborts (.ldrh c ix up rd rn off) sum ∧ aborts (.ldrsh c ix up rd rn off) sum) ∧
        (s.aborts .write a .half = true → aborts (.strh c ix up rd rn off) sum)))

/-- R227: the eight single transfers are refused with write-back where `Rn` is r15, `Rd` or the offset register, and
with r15 as the offset register; the six narrow ones also with r15 as `Rd`. Base r15 without write-back is allowed and
is the instruction's address plus 8, and so is r15 as `Rd` of LDR and STR (what they do then is in LoadPc and
StoreSingle). In the last two words of the address space the base r15 is taken modulo 2^32, which the model deduced
(log 12). -/
def Obligations.TransferRestrictions : Prop :=
  ∀ (s : State) (m : Mode) (c : Cond) (ix : Index) (up : Bool) (rd rn rm : Reg), Passes s m c →
    let refused (i : Instr) : Prop := exec i s = .refused .transferOperands
    let all (off : Offset) (half : HalfOffset) : Prop :=
      refused (.ldr c ix up rd rn off) ∧ refused (.str c ix up rd rn off) ∧ refused (.ldrb c ix up rd rn off) ∧
      refused (.strb c ix up rd rn off) ∧ refused (.ldrh c ix up rd rn half) ∧ refused (.strh c ix up rd rn half) ∧
      refused (.ldrsb c ix up rd rn half) ∧ refused (.ldrsh c ix up rd rn half)
    ((ix = .preIndexed ∨ ix = .postIndexed) → (rn = .r15 ∨ rn = rd) → ∀ off half, all off half) ∧
    (∀ kind amount, rm = .r15 ∨ ((ix = .preIndexed ∨ ix = .postIndexed) ∧ rm = rn) →
      all (.reg rm kind amount) (.reg rm)) ∧
    (rd = .r15 → ∀ (off : Offset) (half : HalfOffset),
      refused (.ldrb c ix up rd rn off) ∧ refused (.strb c ix up rd rn off) ∧ refused (.ldrh c ix up rd rn half) ∧
      refused (.strh c ix up rd rn half) ∧ refused (.ldrsb c ix up rd rn half) ∧ refused (.ldrsh c ix up rd rn half)) ∧
    (rm ≠ .r15 → transferMisuse .offset rd .r15 none = false ∧ transferMisuse .offset rd .r15 (some rm) = false) ∧
    (rd ≠ .r15 → rm ≠ .r15 →
      narrowTransferMisuse .offset rd .r15 none = false ∧ narrowTransferMisuse .offset rd .r15 (some rm) = false) ∧
    (rm ≠ .r15 → rn ≠ .r15 → rm ≠ rn →
      transferMisuse ix .r15 rn none = false ∧ transferMisuse ix .r15 rn (some rm) = false) ∧
    s.rd m .r15 = s.pc + 8

/-! ### Block transfers -/

/-- R265, R266, R262, R263, R270 to R273: the four LDMs load each listed register from the word of the block at its
place in the ascending order, r15 with its two low bits cleared, write the base back where asked, and change nothing
else. -/
def Obligations.BlockLoad : Prop :=
  ∀ (bm : BlockMode) (s : State) (m : Mode) (c : Cond) (wb : Bool) (rn : Reg) (list : BitVec 16),
    Passes s m c → ldmMisuse wb rn list = false → isAligned (s.rd m rn) 4 = true →
    (inList list .r15 = false → Room s) →
    let b := s.rd m rn
    let n := listSize list
    let start := blockStart bm b n
    BlockAccessible s .read start n →
    ∃ t, exec (ldm bm c wb rn list) s = .next t ∧
      (∀ r, r ≠ .r15 → inList list r = true →
        (t.rd m r).toNat = numberAt s (wordAt start (rankIn list r)).toNat 4) ∧
      (∀ r, r ≠ .r15 → inList list r = false →
        t.rd m r = if wb = true ∧ r = rn then blockWriteBack bm b n else s.rd m r) ∧
      (∀ p, (∀ r, physReg r m ≠ some p) → t.regs.read p = s.regs.read p) ∧
      (if inList list .r15 then
        ∃ v : Word, v.toNat = numberAt s (wordAt start (rankIn list .r15)).toNat 4 ∧ t.pc = v &&& 0xFFFFFFFC
       else t.pc = s.pc + 4) ∧
      t.cpsr = s.cpsr ∧ SameRest s t

/-- R265, R267, R262, R263, R274 to R277: the four STMs store the value each listed register held before at its place in
the block (for r15 the instruction's address plus `PC_STORE_OFFSET`), no byte outside the block, write the base back
where asked, and change nothing else but the pc. That the sum stored for r15 wraps near the top of the address space is
the model's choice (log 18). -/
def Obligations.BlockStore : Prop :=
  ∀ (bm : BlockMode) (s : State) (m : Mode) (c : Cond) (wb : Bool) (rn : Reg) (list : BitVec 16),
    Passes s m c → stmMisuse wb rn list = false → isAligned (s.rd m rn) 4 = true → Room s → s.memOk = true →
    let b := s.rd m rn
    let n := listSize list
    let start := blockStart bm b n
    BlockAccessible s .write start n →
    ∃ t, exec (stm bm c wb rn list) s = .next t ∧
      (∀ r, inList list r = true → ∀ j < 4,
        t.mem.read (start.toNat + 4 * rankIn list r + j) = storedByte s (storedValue s m r) 4 j) ∧
      (∀ x, ¬ (start.toNat ≤ x ∧ x < start.toNat + 4 * n) → t.mem.read x = s.mem.read x) ∧
      (∀ x, x ∈ t.storedTo ↔ (start.toNat ≤ x ∧ x < start.toNat + 4 * n) ∨ x ∈ s.storedTo) ∧
      WritesIf wb s t m rn (blockWriteBack bm b n) ∧ t.pc = s.pc + 4 ∧ t.cpsr = s.cpsr ∧ t.spsr = s.spsr ∧
      t.draws = s.draws ∧ SameInputs s t

/-- R261: for each of the four modes where the block of `n` words starts, where its highest word is, and what is written
back, all modulo 2^32. -/
def Obligations.BlockAddresses : Prop :=
  ∀ (b : Word) (n : Nat), 1 ≤ n → n ≤ 16 →
    let row (bm : BlockMode) (start highest back : Int) : Prop :=
      ((blockStart bm b n).toNat : Int) = start % 2 ^ 32 ∧
      ((wordAt (blockStart bm b n) (n - 1)).toNat : Int) = highest % 2 ^ 32 ∧
      ((blockWriteBack bm b n).toNat : Int) = back % 2 ^ 32
    let x : Int := b.toNat
    row .ia x (x + 4 * n - 4) (x + 4 * n) ∧ row .ib (x + 4) (x + 4 * n) (x + 4 * n) ∧
    row .da (x - 4 * n + 4) x (x - 4 * n) ∧ row .db (x - 4 * n) (x - 4) (x - 4 * n)

/-- R264: the eight block transfers are refused with an empty list, with base r15, with the base in the list of an LDM
that writes back, and with the base in the list but not lowest in it of an STM that writes back; the `^` forms do not
decode. -/
def Obligations.BlockRestrictions : Prop :=
  (∀ (bm : BlockMode) (s : State) (m : Mode) (c : Cond) (wb : Bool) (rn : Reg) (list : BitVec 16), Passes s m c →
    (list = 0 ∨ rn = .r15 ∨ (wb = true ∧ inList list rn = true) →
      exec (ldm bm c wb rn list) s = .refused .blockOperands) ∧
    (list = 0 ∨ rn = .r15 ∨ (wb = true ∧ inList list rn = true ∧ rankIn list rn ≠ 0) →
      exec (stm bm c wb rn list) s = .refused .blockOperands)) ∧
  (∀ w : Word, field w 28 4 ≠ 0b1111#4 → field w 25 3 = 0b100#3 → bitAt w 22 = true →
    decode w = .refused .userBankBlock)

/-- R268, R310: where an access of a block transfer aborts, the words below it have been transferred and no other; an
LDM has not loaded r15 and leaves the base its old value if it is in the list; a base written back is as `ABORT_BASE`
says; and Data Abort is taken. In the last two words of the address space the link value `pc + 8` is taken modulo 2^32,
which the model deduced (log 12). -/
def Obligations.BlockDataAbort : Prop :=
  ∀ (bm : BlockMode) (s : State) (m : Mode) (c : Cond) (wb : Bool) (rn : Reg) (list : BitVec 16) (j : Nat),
    Passes s m c → isAligned (s.rd m rn) 4 = true →
    let b := s.rd m rn
    let n := listSize list
    let start := blockStart bm b n
    let base := if wb = true ∧ s.params.abortBase = .updated then blockWriteBack bm b n else b
    start.toNat + 4 * n ≤ 2 ^ 32 → j < n →
    (ldmMisuse wb rn list = false → BlockAccessible s .read start j → s.aborts .read (wordAt start j) .word = true →
      ∃ u t, exec (ldm bm c wb rn list) s = .next t ∧ Entered u t .dataAbort ∧
        (∀ r, r ≠ .r15 → r ≠ rn → inList list r = true → rankIn list r < j →
          (u.rd m r).toNat = numberAt s (wordAt start (rankIn list r)).toNat 4) ∧
        (∀ r, r ≠ .r15 → r ≠ rn → inList list r = false ∨ j ≤ rankIn list r → u.rd m r = s.rd m r) ∧
        u.rd m rn = base ∧ (∀ p, (∀ r, physReg r m ≠ some p) → u.regs.read p = s.regs.read p) ∧
        u.pc = s.pc ∧ u.cpsr = s.cpsr ∧ SameRest s u) ∧
    (stmMisuse wb rn list = false → s.memOk = true → BlockAccessible s .write start j →
      s.aborts .write (wordAt start j) .word = true →
      ∃ u t, exec (stm bm c wb rn list) s = .next t ∧ Entered u t .dataAbort ∧
        (∀ r, inList list r = true → rankIn list r < j → ∀ i < 4,
          u.mem.read (start.toNat + 4 * rankIn list r + i) = storedByte s (storedValue s m r) 4 i) ∧
        (∀ x, ¬ (start.toNat ≤ x ∧ x < start.toNat + 4 * j) → u.mem.read x = s.mem.read x) ∧
        Writes s u m rn base ∧ u.pc = s.pc ∧ u.cpsr = s.cpsr ∧ u.spsr = s.spsr ∧ u.draws = s.draws ∧
        SameInputs s u)

/-- R278, which the spec marks as its own inference from R261 and R262: an STM with write-back and then the LDM of the
opposite mode with the same list restore every register, the base among them: STMDB and LDMIA, STMIA and LDMDB, STMIB
and LDMDA, STMDA and LDMIB. -/
def Obligations.PushPopInverse : Prop :=
  ∀ (bm back : BlockMode) (s : State) (m : Mode) (c : Cond) (rn : Reg) (list : BitVec 16),
    (bm, back) ∈ [(BlockMode.db, BlockMode.ia), (.ia, .db), (.ib, .da), (.da, .ib)] →
    Passes s m c → ldmMisuse true rn list = false → isAligned (s.rd m rn) 4 = true → s.memOk = true →
    s.pc.toNat + 8 < 2 ^ 32 →
    let n := listSize list
    let start := blockStart bm (s.rd m rn) n
    BlockAccessible s .write start n → BlockAccessible s .read start n →
    ∃ t u, exec (stm bm c true rn list) s = .next t ∧ exec (ldm back c true rn list) t = .next u ∧
      SameRegs s u ∧ u.cpsr = s.cpsr ∧ u.spsr = s.spsr ∧ u.mem = t.mem ∧
      (inList list .r15 = false → u.pc = s.pc + 8)

/-! ### PSR transfers -/

/-- R287, R43: MRS copies all 32 bits of the `cpsr` in any mode, or of the `spsr` of the current mode where it has one,
to a register, and changes nothing else but the pc. -/
def Obligations.MrsReads : Prop :=
  ∀ (s : State) (m : Mode) (c : Cond) (rd : Reg), Passes s m c → Room s → rd ≠ .r15 →
    (∃ t, exec (.mrs c false rd) s = .next t ∧ Writes s t m rd s.cpsr ∧ t.pc = s.pc + 4 ∧ t.cpsr = s.cpsr ∧
      SameRest s t) ∧
    (∀ v, s.spsr.read m = some v →
      ∃ t, exec (.mrs c true rd) s = .next t ∧ Writes s t m rd v ∧ t.pc = s.pc + 4 ∧ t.cpsr = s.cpsr ∧
        SameRest s t)

/-- R288, R286, R290, R291: in a privileged mode both forms of MSR to the `cpsr` replace the bytes that the field mask
names by those of the operand, where the result changes no reserved bit, sets no T and names a legal mode, and are
refused where it does not; nothing else changes but the pc. -/
def Obligations.MsrPrivileged : Prop :=
  ∀ (s : State) (m : Mode) (c : Cond) (fields : BitVec 4) (rm : Reg) (rot : BitVec 4) (imm8 : BitVec 8) (new : Word),
    Passes s m c → Room s → m ≠ .user →
    let wanted (i : Instr) (operand : Word) : Prop :=
      (∀ k < 32, new.getLsbD k = if fields.getLsbD (k / 8) then operand.getLsbD k else s.cpsr.getLsbD k) →
      if new.extractLsb' 8 20 = s.cpsr.extractLsb' 8 20 ∧ psrT new = false ∧ psrMode new ≠ none then
        ∃ t, exec i s = .next t ∧ t.cpsr = new ∧ t.pc = s.pc + 4 ∧ SameRegs s t ∧ SameRest s t
      else ∃ r, exec i s = .refused r
    (rm ≠ .r15 → wanted (.msrReg c false fields rm) (s.rd m rm)) ∧
    wanted (.msrImm c false fields rot imm8) (rotatedImm rot imm8)

/-- R288, R43, R290: in User mode both forms of MSR to the `cpsr` change N, Z, C and V at most, and those only with the
`f` field; the other fields are silently ignored, so that a mask without `f` changes nothing but the pc. An `f` byte
that would change bits 27:24 is refused. -/
def Obligations.MsrUser : Prop :=
  ∀ (s : State) (c : Cond) (fields : BitVec 4) (rm : Reg) (rot : BitVec 4) (imm8 : BitVec 8),
    Passes s .user c → Room s → psrT s.cpsr = false →
    let wanted (i : Instr) (operand : Word) : Prop :=
      (fields.getLsbD 3 = false →
        ∃ t, exec i s = .next t ∧ t.cpsr = s.cpsr ∧ t.pc = s.pc + 4 ∧ SameRegs s t ∧ SameRest s t) ∧
      (fields.getLsbD 3 = true → operand.extractLsb' 24 4 = s.cpsr.extractLsb' 24 4 →
        ∃ t, exec i s = .next t ∧
          Flags t (operand.getLsbD 31) (operand.getLsbD 30) (operand.getLsbD 29) (operand.getLsbD 28) ∧
          SameControl s t ∧ t.pc = s.pc + 4 ∧ SameRegs s t ∧ SameRest s t) ∧
      (fields.getLsbD 3 = true → operand.extractLsb' 24 4 ≠ s.cpsr.extractLsb' 24 4 →
        exec i s = .refused .wouldChangeReserved)
    (rm ≠ .r15 → wanted (.msrReg c false fields rm) (s.rd .user rm)) ∧
    wanted (.msrImm c false fields rot imm8) (rotatedImm rot imm8)

/-- R289, R40, R290, R291: in a mode with an `spsr` both forms of MSR to it replace the bytes that the field mask names,
whatever they are, and change nothing else but the pc. -/
def Obligations.MsrSpsr : Prop :=
  ∀ (s : State) (m : Mode) (c : Cond) (fields : BitVec 4) (rm : Reg) (rot : BitVec 4) (imm8 : BitVec 8) (old : Word),
    Passes s m c → Room s → s.spsr.read m = some old →
    let wanted (i : Instr) (operand : Word) : Prop :=
      ∃ t new, exec i s = .next t ∧
        (∀ k < 32, new.getLsbD k = if fields.getLsbD (k / 8) then operand.getLsbD k else old.getLsbD k) ∧
        (∀ m', t.spsr.read m' = if m' = m then some new else s.spsr.read m') ∧
        t.cpsr = s.cpsr ∧ t.pc = s.pc + 4 ∧ SameRegs s t ∧ SameMemory s t ∧ t.draws = s.draws ∧ SameInputs s t
    (rm ≠ .r15 → wanted (.msrReg c true fields rm) (s.rd m rm)) ∧
    wanted (.msrImm c true fields rot imm8) (rotatedImm rot imm8)

/-- R285, R287, R290, R292: MRS to r15 and MSR from r15 are refused, and so are MRS and both forms of MSR of the `spsr`
in User and System mode. -/
def Obligations.PsrTransferRefusals : Prop :=
  ∀ (s : State) (m : Mode) (c : Cond) (spsr : Bool) (fields rot : BitVec 4) (imm8 : BitVec 8) (r : Reg),
    Passes s m c →
    exec (.mrs c spsr .r15) s = .refused .psrTransferOfPc ∧
    exec (.msrReg c spsr fields .r15) s = .refused .psrTransferOfPc ∧
    (m = .user ∨ m = .system → r ≠ .r15 →
      exec (.mrs c true r) s = .refused .noSpsr ∧ exec (.msrReg c true fields r) s = .refused .noSpsr ∧
      exec (.msrImm c true fields rot imm8) s = .refused .noSpsr)

/-! ### Exceptions -/

/-- R306: the entry procedure, for each of the six exceptions. R306 does not say what the link value is past the top of
the address space, for Data Abort in the last two words and for the others in the last: it is taken modulo 2^32, which
the model deduced (log 12). -/
def Obligations.EntryTable : Prop := ∀ (s : State) (e : Exc), Entered s (s.raise e) e

/-- R280, R308: SWI takes the Software Interrupt exception whatever its number: `r14_svc`, `spsr_svc`, Supervisor
mode, IRQ masked, F as it was, the pc at vector 0x08; the flags and the User registers stay. In the last word of the
address space the link value `pc + 4` is taken modulo 2^32, which the model deduced (log 12). -/
def Obligations.SoftwareInterrupt : Prop :=
  ∀ (s : State) (m : Mode) (c : Cond) (number : BitVec 24), Passes s m c →
    ∃ t, exec (.swi c number) s = .next t ∧ t.regs.r14_svc = s.pc + 4 ∧ t.spsr.svc = s.cpsr ∧
      t.mode = some .supervisor ∧ psrI t.cpsr = true ∧ psrF t.cpsr = psrF s.cpsr ∧
      t.pc = s.params.vectorBase.addr + 0x08 ∧
      Flags t (psrN s.cpsr) (psrZ s.cpsr) (psrC s.cpsr) (psrV s.cpsr) ∧ Entered s t .softwareInterrupt

/-- R311 to R315: a step takes FIQ where its line is high and F is 0; otherwise IRQ where its line is high and I is 0;
before anything is fetched. A masked or absent request is not taken. In the last word of the address space the link
value `pc + 4` is taken modulo 2^32, which the model deduced (log 12). -/
def Obligations.InterruptsTaken : Prop :=
  ∀ s : State,
    (s.env.fiqLine = true → psrF s.cpsr = false → ∃ u, step s = .next u.tick ∧ Entered s u .fiq) ∧
    ((s.env.fiqLine = false ∨ psrF s.cpsr = true) → s.env.irqLine = true → psrI s.cpsr = false →
      ∃ u, step s = .next u.tick ∧ Entered s u .irq) ∧
    ((s.env.fiqLine = false ∨ psrF s.cpsr = true) → (s.env.irqLine = false ∨ psrI s.cpsr = true) →
      s.interrupt = none)

/-- R309, R313: with no interrupt due, ARM state, an aligned pc and a legal mode, a fetch that aborts takes Prefetch
Abort and nothing of the instruction happens. In the last word of the address space the link value `pc + 4` is taken
modulo 2^32, which the model deduced (log 12). -/
def Obligations.PrefetchAbort : Prop :=
  ∀ s : State, s.interrupt = none → s.legal = true → s.aborts .fetch s.pc .word = true →
    ∃ u, step s = .next u.tick ∧ Entered s u .prefetchAbort

/-- R316, R303: from the first instruction of a handler, the return instruction that R316 gives for the exception
restores the `cpsr` and every register but the handler's r14, and resumes where the table says. After a SWI or an
undefined word at 0xFFFFFFFC that is address 0, because the link value is taken modulo 2^32, which the model deduced
(log 12); the rules do not say where such a return goes. -/
def Obligations.ReturnUndoesEntry : Prop :=
  ∀ (s : State) (e : Exc), s.legal = true →
    let back (w : Word) (resume : Word) : Prop :=
      ∃ i t, decode w = .instr i ∧ exec i (s.raise e) = .next t ∧ t.cpsr = s.cpsr ∧ t.pc = resume ∧
        (∀ p, p ≠ (entryRow e).2.2.1 → t.regs.read p = s.regs.read p) ∧ SameMemory s t
    match e with
    | .softwareInterrupt | .undefinedInstruction => back 0xE1B0F00E (s.pc + 4)
    | .irq | .fiq | .prefetchAbort => back 0xE25EF004 s.pc
    | .dataAbort => back 0xE25EF008 s.pc

/-! ### The machine -/

/-- R48, R350, R305: the values that the spec gives for reset, under every choice of the parameters: the pc at the Reset
vector, Supervisor mode, ARM state, IRQ and FIQ masked, the reserved bits 0, memory the launch image. `State.reset` is
the one with the parameters that log 4 names (the model's choice where R8 gives no default), an image that lists nothing
(log 2) and a quiet environment. -/
def Obligations.ResetState : Prop :=
  ∀ (p : Params) (image : Memory) (env : Env) (toCome : List Env),
    let s := State.resetFor p image env toCome
    s.pc = p.vectorBase.addr ∧ s.mode = some .supervisor ∧ psrI s.cpsr = true ∧ psrF s.cpsr = true ∧
    psrT s.cpsr = false ∧ psrJ s.cpsr = false ∧ s.cpsr.extractLsb' 8 20 = 0 ∧ s.mem = image ∧ s.params = p ∧
    s.interrupt = none ∧ State.reset = State.resetFor Params.default [] Env.quiet []

/-- R28, R42, R49: the state after reset is legal, and its memory is in canonical form (the form is the model's own). -/
def Obligations.ResetInvariants : Prop := State.reset.legal = true ∧ State.reset.memOk = true

/-- R28, R31, R36, R42, R49: from a legal state (pc word aligned, a legal mode, T = 0, the reserved bits 0) every step
that answers a next state leads to a legal state. -/
def Obligations.StepKeepsLegal : Prop :=
  ∀ s t : State, s.legal = true → step s = .next t → t.legal = true

/-- The model's own invariant (log 2, log 14; R60, R68): from a memory in canonical form every step leads to one:
addresses in the address space, strictly rising, no listed byte equal to what an unlisted one reads as. -/
def Obligations.StepKeepsMemoryForm : Prop :=
  ∀ s t : State, s.memOk = true → step s = .next t → t.memOk = true

/-- R319, R43: from User mode, whatever is executed, a step leaves the mode, I, F and T bits and every `spsr` as they
are, or it is the entry to an exception. In the last two words of the address space the link value of that entry is
taken modulo 2^32, which the model deduced (log 12). -/
def Obligations.UserModeConfined : Prop :=
  ∀ s t : State, s.mode = some .user → step s = .next t →
    ∃ v, t = v.tick ∧
      ((v.cpsr.extractLsb' 0 8 = s.cpsr.extractLsb' 0 8 ∧ v.spsr = s.spsr) ∨
        ∃ u e, u.pc = s.pc ∧ u.cpsr = s.cpsr ∧ u.spsr = s.spsr ∧ Entered u v e)

/-- R8, R47 (logs 5 and 6): no step changes a parameter; after a step the environment is the next entry of what is to
come, or with none left stays as it is; and no step forgets that an address was stored to (R76). -/
def Obligations.EnvironmentMoves : Prop :=
  ∀ s t : State, step s = .next t →
    t.params = s.params ∧
    (t.env, t.envToCome) =
      (match s.envToCome with
       | [] => (s.env, [])
       | e :: es => (e, es)) ∧
    ∀ a, a ∈ s.storedTo → a ∈ t.storedTo

/-- R44: only the data-processing instructions with `S`, the comparisons, the multiplies with `S` and an MSR of the
`cpsr` with the `f` field write a flag. -/
def Obligations.FlagWriters : Prop :=
  ∀ (i : Instr) (s t : State), exec i s = .next t → writesFlags i = false →
    Flags t (psrN s.cpsr) (psrZ s.cpsr) (psrC s.cpsr) (psrV s.cpsr)

/-- R61: no instruction but the seven stores writes a byte of memory. -/
def Obligations.OnlyStoresWriteMemory : Prop :=
  ∀ (i : Instr) (s t : State), exec i s = .next t → isStore i = false → SameMemory s t

/-- R62: reading and writing 1, 2 or 4 bytes in both byte orders, the fetch by the same rule, and the byte order fixed
for a run. -/
def Obligations.ByteOrder : Prop :=
  (∀ (s : State) (a : Word) (n : Nat), n ∈ [1, 2, 4] → ∀ k < n, ∀ j < 8,
    (s.peek a n).getLsbD (8 * (if s.params.bigEndian then n - 1 - k else k) + j) =
      (s.mem.read (a.toNat + k)).getLsbD j) ∧
  (∀ (s : State) (a v : Word) (n : Nat), n ∈ [1, 2, 4] → a.toNat + n ≤ 2 ^ 32 → s.memOk = true →
    ∀ k < n, ∀ j < 8, ((s.poke a n v).mem.read (a.toNat + k)).getLsbD j =
      v.getLsbD (8 * (if s.params.bigEndian then n - 1 - k else k) + j)) ∧
  (∀ (s : State) (w : Word), s.fetch = .word w → w = s.peek s.pc 4) ∧
  (∀ s t : State, step s = .next t → t.params.bigEndian = s.params.bigEndian)

/-- R63, which the spec marks as its own inference from R62: the mixed-width reads of a stored 0x11223344, in both byte
orders. -/
def Obligations.MixedWidths : Prop :=
  ∀ (s : State) (a : Word), s.memOk = true → isAligned a 4 = true →
    let t := s.poke a 4 0x11223344
    (s.params.bigEndian = false → t.peek a 1 = 0x44 ∧ t.peek (a + 1) 1 = 0x33 ∧ t.peek a 2 = 0x3344 ∧
      t.peek (a + 2) 2 = 0x1122) ∧
    (s.params.bigEndian = true → t.peek a 1 = 0x11 ∧ t.peek a 2 = 0x1122 ∧ t.peek (a + 2) 2 = 0x3344)

/-- R76: a fetch from an address any byte of which a store has written since the launch is refused; at the launch no
byte is marked so, and a store marks the bytes it writes. The marks are `storedTo`, the model's choice (log 14); that no
step takes one away is in EnvironmentMoves. -/
def Obligations.FetchOfStoredRefused : Prop :=
  (∀ (s : State) (k : Nat), s.interrupt = none → s.legal = true → Accessible s .fetch s.pc .word → k < 4 →
    s.pc.toNat + k ∈ s.storedTo → step s = .refused (.fetchOfStored s.pc)) ∧
  (∀ (p : Params) (image : Memory) (env : Env) (toCome : List Env) (a : Nat),
    a ∉ (State.resetFor p image env toCome).storedTo) ∧
  (∀ (s t : State) (a v : Word) (sz : Size) (x : Nat), s.store a sz v = .done t →
    (x ∈ t.storedTo ↔ (a.toNat ≤ x ∧ x < a.toNat + sizeBytes sz) ∨ x ∈ s.storedTo))

/-- R31, R68, R69, R261: where the address space ends a run, each with the fault that log 13 gives it: a fetch, a
single transfer (all eight) or a word of a block transfer (all eight) outside `MEM_MAP` that does not abort; a block
that would pass the top; and at 0xFFFFFFFC every instruction that does not write r15, its condition passed or failed,
and every word whose condition fails, since `pc + 4` is no address. -/
def Obligations.AddressSpaceStops : Prop :=
  UnmappedFetchStops ∧ UnmappedTransferStops ∧ UnmappedBlockStops ∧ BlockPastTopStops ∧ LastWordStops
end

