-- ==== Sys2Proof/Laws/Bits.lean ====
section
/-! SUPPORT. Fields and bits of words: reading a field of packed fields, the names behind register, condition and shift
numbers, and the fields of a status register after each write of it. -/

namespace Sys2Proof

/-- A field of packed fields. -/
theorem field_packed {n : Nat} (x : BitVec n) (lo len : Nat) (h : lo + len ≤ 32) :
    field (packed x) lo len = x.extractLsb' lo len := by
  apply BitVec.eq_of_getLsbD_eq
  intro i hi
  have h1 : lo + i < 32 := by omega
  simp [field, packed, hi, h1]

/-- A bit of packed fields. -/
theorem bitAt_packed {n : Nat} (x : BitVec n) (k : Nat) (h : k < 32) : bitAt (packed x) k = x.getLsbD k := by
  simp [bitAt, packed, h]

/-- A bit of packed fields, read as a bit of a word. -/
theorem getLsbD_packed {n : Nat} (x : BitVec n) (k : Nat) (h : k < 32) : (packed x).getLsbD k = x.getLsbD k :=
  bitAt_packed x k h

/-- A field inside the lower part of two joined parts. -/
theorem extract_append_low {a b : Nat} (x : BitVec a) (y : BitVec b) (lo len : Nat) (h : lo + len ≤ b) :
    (x ++ y).extractLsb' lo len = y.extractLsb' lo len := by
  apply BitVec.eq_of_getLsbD_eq
  intro i hi
  have h1 : lo + i < b := by omega
  simp only [BitVec.getLsbD_extractLsb', BitVec.getLsbD_append, h1, hi, if_true]

/-- A field inside the upper part of two joined parts. -/
theorem extract_append_high {a b : Nat} (x : BitVec a) (y : BitVec b) (lo len : Nat) (h : b ≤ lo) :
    (x ++ y).extractLsb' lo len = x.extractLsb' (lo - b) len := by
  apply BitVec.eq_of_getLsbD_eq
  intro i hi
  have h1 : ¬ lo + i < b := by omega
  have h2 : lo + i - b = lo - b + i := by omega
  simp only [BitVec.getLsbD_extractLsb', BitVec.getLsbD_append, h1, hi, if_false, h2]

/-- The field that is a whole value. -/
theorem extract_whole {a : Nat} (x : BitVec a) : x.extractLsb' 0 a = x := by
  apply BitVec.eq_of_getLsbD_eq
  intro i hi
  simp [hi]

/-- A bit of the lower part of two joined parts. -/
theorem getLsbD_append_low {a b : Nat} (x : BitVec a) (y : BitVec b) (i : Nat) (h : i < b) :
    (x ++ y).getLsbD i = y.getLsbD i := by
  simp only [BitVec.getLsbD_append, h, if_true]

/-- A bit of the upper part of two joined parts. -/
theorem getLsbD_append_high {a b : Nat} (x : BitVec a) (y : BitVec b) (i : Nat) (h : b ≤ i) :
    (x ++ y).getLsbD i = x.getLsbD (i - b) := by
  simp only [BitVec.getLsbD_append, show ¬ i < b by omega, if_false]

/-- The bits of a one-bit field. -/
theorem getLsbD_ofBool (b : Bool) (i : Nat) : (BitVec.ofBool b).getLsbD i = (decide (i = 0) && b) := by
  cases b <;> simp [BitVec.ofBool]

/-- The register a register's number names is that register. -/
@[simp] theorem Reg.ofNum_num (r : Reg) : Reg.ofNum r.num = r := by cases r <;> rfl

/-- The number of the register a number names is that number. -/
@[simp] theorem Reg.num_ofNum (n : BitVec 4) : (Reg.ofNum n).num = n := by revert n; decide +kernel

/-- A register's number is its position in a register list. -/
theorem Reg.toNat_num (r : Reg) : r.num.toNat = r.index := by cases r <;> rfl

/-- The condition a condition's number names is that condition. -/
@[simp] theorem Cond.ofNum_num (c : Cond) : Cond.ofNum c.num = some c := by cases c <;> rfl

/-- The number of the condition a number names is that number. -/
theorem Cond.num_of_ofNum (n : BitVec 4) (c : Cond) (h : Cond.ofNum n = some c) : c.num = n := by
  revert h; revert c; revert n; decide +kernel

/-- 0b1111 alone names no condition (R116). -/
theorem Cond.ofNum_eq_none (n : BitVec 4) : Cond.ofNum n = none ↔ n = 0b1111#4 := by revert n; decide +kernel

/-- The shift a shift's code names is that shift. -/
@[simp] theorem ShiftKind.ofNum_num (k : ShiftKind) : ShiftKind.ofNum k.num = k := by cases k <;> rfl

/-- The code of the shift a code names is that code. -/
@[simp] theorem ShiftKind.num_ofNum (n : BitVec 2) : (ShiftKind.ofNum n).num = n := by revert n; decide +kernel

namespace Machine

/-- The mode of a mode's bits is that mode. -/
@[simp] theorem Mode.ofBits_bits (m : Mode) : Mode.ofBits m.bits = some m := by cases m <;> rfl

/-- The bits of the mode that a value names are that value. -/
theorem Mode.bits_of_ofBits (b : BitVec 5) (m : Mode) (h : Mode.ofBits b = some m) : m.bits = b := by
  revert h; revert m; revert b; decide +kernel

/-! ### Flag writes -/

section
variable (n z c v : Bool) (p : Word)

@[simp] theorem psrN_psrSetFlags : psrN (psrSetFlags n z c v p) = n := by
  unfold psrN psrSetFlags
  rw [getLsbD_packed _ _ (by decide)]
  simp only [BitVec.getLsbD_append, getLsbD_ofBool]
  simp

@[simp] theorem psrZ_psrSetFlags : psrZ (psrSetFlags n z c v p) = z := by
  unfold psrZ psrSetFlags
  rw [getLsbD_packed _ _ (by decide)]
  simp only [BitVec.getLsbD_append, getLsbD_ofBool]
  simp

@[simp] theorem psrC_psrSetFlags : psrC (psrSetFlags n z c v p) = c := by
  unfold psrC psrSetFlags
  rw [getLsbD_packed _ _ (by decide)]
  simp only [BitVec.getLsbD_append, getLsbD_ofBool]
  simp

@[simp] theorem psrV_psrSetFlags : psrV (psrSetFlags n z c v p) = v := by
  unfold psrV psrSetFlags
  rw [getLsbD_packed _ _ (by decide)]
  simp only [BitVec.getLsbD_append, getLsbD_ofBool]
  simp

/-- A flag write leaves bits 27:0 alone. -/
theorem getLsbD_psrSetFlags (i : Nat) (h : i < 28) : (psrSetFlags n z c v p).getLsbD i = p.getLsbD i := by
  unfold psrSetFlags
  rw [getLsbD_packed _ _ (by omega)]
  simp only [BitVec.getLsbD_append, BitVec.getLsbD_extractLsb', h]
  simp

/-- A field inside bits 27:0 after a flag write. -/
theorem extract_psrSetFlags (lo len : Nat) (h : lo + len ≤ 28) :
    (psrSetFlags n z c v p).extractLsb' lo len = p.extractLsb' lo len := by
  apply BitVec.eq_of_getLsbD_eq
  intro i hi
  have := getLsbD_psrSetFlags n z c v p (lo + i) (by omega)
  simp [hi, this]

@[simp] theorem psrT_psrSetFlags : psrT (psrSetFlags n z c v p) = psrT p :=
  getLsbD_psrSetFlags n z c v p 5 (by decide)

@[simp] theorem psrI_psrSetFlags : psrI (psrSetFlags n z c v p) = psrI p :=
  getLsbD_psrSetFlags n z c v p 7 (by decide)

@[simp] theorem psrF_psrSetFlags : psrF (psrSetFlags n z c v p) = psrF p :=
  getLsbD_psrSetFlags n z c v p 6 (by decide)

@[simp] theorem psrJ_psrSetFlags : psrJ (psrSetFlags n z c v p) = psrJ p :=
  getLsbD_psrSetFlags n z c v p 24 (by decide)

@[simp] theorem psrMode_psrSetFlags : psrMode (psrSetFlags n z c v p) = psrMode p := by
  simp [psrMode, psrModeBits, extract_psrSetFlags]

@[simp] theorem psrReserved_psrSetFlags : psrReserved (psrSetFlags n z c v p) = psrReserved p := by
  simp [psrReserved, extract_psrSetFlags]

end

/-! ### Exception entry -/

section
variable (e : Exc) (old : Word)

/-- Entry leaves bits 31:8 alone (R306). -/
theorem getLsbD_entryPsr_high (i : Nat) (h : 8 ≤ i) : (entryPsr e old).getLsbD i = old.getLsbD i := by
  by_cases hi : i < 32
  · unfold entryPsr
    rw [getLsbD_packed _ _ hi]
    simp only [BitVec.getLsbD_append, BitVec.getLsbD_extractLsb', show ¬ i < 5 by omega, show ¬ i - 5 < 1 by omega,
      show ¬ i - 5 - 1 < 1 by omega, show ¬ i - 5 - 1 - 1 < 1 by omega, show i - 5 - 1 - 1 - 1 < 24 by omega,
      show 8 + (i - 5 - 1 - 1 - 1) = i by omega]
    simp
  · rw [BitVec.getLsbD_of_ge _ _ (by omega), BitVec.getLsbD_of_ge _ _ (by omega)]

@[simp] theorem psrI_entryPsr : psrI (entryPsr e old) = true := by
  unfold psrI entryPsr
  rw [getLsbD_packed _ _ (by decide)]
  simp only [BitVec.getLsbD_append]
  simp

@[simp] theorem psrF_entryPsr : psrF (entryPsr e old) = (psrF old || e == .fiq) := by
  unfold psrF entryPsr
  rw [getLsbD_packed _ _ (by decide)]
  simp only [BitVec.getLsbD_append, getLsbD_ofBool]
  simp [psrF]

@[simp] theorem psrT_entryPsr : psrT (entryPsr e old) = false := by
  unfold psrT entryPsr
  rw [getLsbD_packed _ _ (by decide)]
  simp only [BitVec.getLsbD_append]
  simp

@[simp] theorem psrN_entryPsr : psrN (entryPsr e old) = psrN old := getLsbD_entryPsr_high e old 31 (by decide)
@[simp] theorem psrZ_entryPsr : psrZ (entryPsr e old) = psrZ old := getLsbD_entryPsr_high e old 30 (by decide)
@[simp] theorem psrC_entryPsr : psrC (entryPsr e old) = psrC old := getLsbD_entryPsr_high e old 29 (by decide)
@[simp] theorem psrV_entryPsr : psrV (entryPsr e old) = psrV old := getLsbD_entryPsr_high e old 28 (by decide)
@[simp] theorem psrJ_entryPsr : psrJ (entryPsr e old) = psrJ old := getLsbD_entryPsr_high e old 24 (by decide)

@[simp] theorem psrReserved_entryPsr : psrReserved (entryPsr e old) = psrReserved old := by
  apply BitVec.eq_of_getLsbD_eq
  intro i hi
  simp [psrReserved, hi, getLsbD_entryPsr_high e old (8 + i) (by omega)]

@[simp] theorem psrMode_entryPsr : psrMode (entryPsr e old) = some e.mode := by
  have h : psrModeBits (entryPsr e old) = e.mode.bits := by
    have := field_packed (old.extractLsb' 8 24 ++ 1#1 ++ BitVec.ofBool (psrF old || e == .fiq) ++ 0#1 ++ e.mode.bits)
      0 5 (by decide)
    rw [BitVec.extractLsb'_append_eq_of_add_le (by decide), BitVec.extractLsb'_eq_self] at this
    exact this
  simp [psrMode, h]

end

end Machine

end Sys2Proof
end

