-- ==== Sys2Proof/Laws/Memory.lean ====
section
/-! SUPPORT. Memory: reading after writing, and every memory operation keeps the canonical form. -/

namespace Sys2Proof.Machine

/-- A read below the lowest listed address gives what an unlisted byte reads as. -/
theorem Memory.read_of_above (m : Memory) (a b : Nat) (hm : Memory.wf m = true) (h : Memory.above b m = true)
    (hab : a ≤ b) : Memory.read m a = unlisted := by
  induction m generalizing b with
  | nil => rfl
  | cons c rest ih =>
    obtain ⟨k, v⟩ := c
    simp only [Memory.wf, Bool.and_eq_true, decide_eq_true_eq] at hm
    simp only [Memory.above, decide_eq_true_eq] at h
    have hk : k ≠ a := by omega
    simp only [Memory.read, hk, if_false]
    exact ih k hm.2 hm.1.2 (by omega)

/-- Reading after writing one byte. -/
theorem Memory.read_write (m : Memory) (a b : Nat) (v : Byte) (hm : Memory.wf m = true) :
    Memory.read (Memory.write m a v) b = if b = a then v else Memory.read m b := by
  induction m with
  | nil =>
    by_cases hb : b = a
    · subst hb; by_cases hv : v = unlisted <;> simp [Memory.write, Memory.read, hv]
    · have hne : a ≠ b := fun e => hb e.symm
      by_cases hv : v = unlisted <;> simp [Memory.write, Memory.read, hv, hb, hne]
  | cons c rest ih =>
    obtain ⟨k, w⟩ := c
    have hm' := hm
    simp only [Memory.wf, Bool.and_eq_true, decide_eq_true_eq] at hm
    obtain ⟨⟨⟨-, -⟩, habove⟩, hrest⟩ := hm
    have hlow : ∀ x, x ≤ k → Memory.read rest x = unlisted := fun x hx =>
      Memory.read_of_above rest x k hrest habove hx
    rcases Nat.lt_trichotomy a k with h | h | h
    · by_cases hv : v = unlisted
      · by_cases hb : b = a
        · subst hb
          have hne : k ≠ b := by omega
          simp [Memory.write, Memory.read, h, hv, hne, hlow b (by omega)]
        · simp [Memory.write, h, hv, hb]
      · by_cases hb : b = a
        · subst hb; simp [Memory.write, Memory.read, h, hv]
        · have hne : a ≠ b := fun e => hb e.symm
          simp [Memory.write, Memory.read, h, hv, hb, hne]
    · subst h
      by_cases hv : v = unlisted
      · by_cases hb : b = a
        · subst hb; simp [Memory.write, hv, hlow b (by omega)]
        · have hne : a ≠ b := fun e => hb e.symm
          simp [Memory.write, Memory.read, hv, hb, hne]
      · by_cases hb : b = a
        · subst hb; simp [Memory.write, Memory.read, hv]
        · have hne : a ≠ b := fun e => hb e.symm
          simp [Memory.write, Memory.read, hv, hb, hne]
    · have h1 : ¬ a < k := by omega
      have h2 : a ≠ k := by omega
      simp only [Memory.write, h1, h2, if_false, Memory.read, ih hrest]
      by_cases hk : k = b
      · have hb : b ≠ a := by omega
        simp [hk, hb]
      · simp [hk]

/-- A write above an address keeps the whole memory above it. -/
theorem Memory.above_write (m : Memory) (a b : Nat) (v : Byte) (hm : Memory.wf m = true)
    (h : Memory.above b m = true) (hab : b < a) : Memory.above b (Memory.write m a v) = true := by
  cases m with
  | nil => by_cases hv : v = unlisted <;> simp [Memory.write, Memory.above, hv, hab]
  | cons c rest =>
    obtain ⟨k, w⟩ := c
    simp only [Memory.wf, Bool.and_eq_true, decide_eq_true_eq] at hm
    simp only [Memory.above, decide_eq_true_eq] at h
    unfold Memory.write
    split
    · split <;> simp [Memory.above, h, hab]
    · split
      · split
        · cases rest with
          | nil => rfl
          | cons d rest' =>
            obtain ⟨k', v'⟩ := d
            have := hm.1.2
            simp only [Memory.above, decide_eq_true_eq] at this ⊢
            omega
        · simp [Memory.above, hab]
      · simp [Memory.above, h]

/-- A write keeps the canonical form. -/
theorem Memory.wf_write (m : Memory) (a : Nat) (v : Byte) (hm : Memory.wf m = true) (ha : a < 2 ^ 32) :
    Memory.wf (Memory.write m a v) = true := by
  induction m with
  | nil =>
    by_cases hv : v = unlisted
    · simp [Memory.write, Memory.wf, hv]
    · simp only [Memory.write, hv, if_false, Memory.wf, Memory.above, bne_iff_ne, ne_eq, not_false_eq_true,
        Bool.and_true, Bool.and_eq_true, decide_eq_true_eq, and_true]
      exact ha
  | cons c rest ih =>
    obtain ⟨k, w⟩ := c
    have hm' := hm
    simp only [Memory.wf, Bool.and_eq_true, decide_eq_true_eq] at hm
    obtain ⟨⟨⟨hk, hw⟩, habove⟩, hrest⟩ := hm
    unfold Memory.write
    split
    · rename_i h
      split
      · exact hm'
      · rename_i hv
        rw [Memory.wf, hm']
        simp only [Memory.above, bne_iff_ne, ne_eq, hv, not_false_eq_true, decide_eq_true_eq, Bool.and_true,
          Bool.and_eq_true]
        exact ⟨⟨ha, trivial⟩, h⟩
    · split
      · rename_i h
        split
        · exact hrest
        · rename_i hv
          subst h
          simp only [Memory.wf, habove, hrest, bne_iff_ne, ne_eq, hv, not_false_eq_true, decide_eq_true_eq,
            Bool.and_true, Bool.and_eq_true]
          exact ⟨ha, trivial⟩
      · rename_i h1 h2
        simp only [Memory.wf, hw, ih hrest, Memory.above_write rest a k v hrest habove (by omega), Bool.and_true,
          decide_eq_true_eq]
        exact hk

/-- Memories in canonical form that read alike are equal. -/
theorem Memory.eq_of_read (m n : Memory) (hm : Memory.wf m = true) (hn : Memory.wf n = true)
    (h : ∀ a, Memory.read m a = Memory.read n a) : m = n := by
  induction m generalizing n with
  | nil =>
    cases n with
    | nil => rfl
    | cons d rest =>
      obtain ⟨k, v⟩ := d
      simp only [Memory.wf, Bool.and_eq_true, bne_iff_ne, ne_eq] at hn
      exact absurd (by simpa [Memory.read] using (h k).symm) hn.1.1.2
  | cons c rest ih =>
    obtain ⟨k, v⟩ := c
    have hm' := hm
    simp only [Memory.wf, Bool.and_eq_true, bne_iff_ne, ne_eq] at hm
    cases n with
    | nil => exact absurd (by simpa [Memory.read] using h k) hm.1.1.2
    | cons d rest' =>
      obtain ⟨k', v'⟩ := d
      have hn' := hn
      simp only [Memory.wf, Bool.and_eq_true, bne_iff_ne, ne_eq] at hn
      have low : ∀ (l : Memory) (j x : Nat), Memory.wf l = true → Memory.above j l = true → x ≤ j →
          Memory.read l x = unlisted := fun l j x hl hj hx => Memory.read_of_above l x j hl hj hx
      have hkk : k = k' := by
        rcases Nat.lt_trichotomy k k' with hlt | heq | hgt
        · have e := h k
          have hne : k' ≠ k := by omega
          simp only [Memory.read, if_true, hne, if_false] at e
          rw [low rest' k' k hn.2 hn.1.2 (by omega)] at e
          exact absurd e hm.1.1.2
        · exact heq
        · have e := h k'
          have hne : k ≠ k' := by omega
          simp only [Memory.read, if_true, hne, if_false] at e
          rw [low rest k k' hm.2 hm.1.2 (by omega)] at e
          exact absurd e.symm hn.1.1.2
      subst hkk
      have hv : v = v' := by simpa [Memory.read] using h k
      subst hv
      have : rest = rest' := by
        refine ih rest' hm.2 hn.2 fun a => ?_
        by_cases ha : k = a
        · subst ha
          rw [low rest k k hm.2 hm.1.2 le_rfl, low rest' k k hn.2 hn.1.2 le_rfl]
        · simpa [Memory.read, ha] using h a
      rw [this]

/-- Storing `n + 1` bytes is storing `n` and then one more. -/
theorem Memory.writeBytes_succ (m : Memory) (a n : Nat) (get : Nat → Byte) :
    m.writeBytes a (n + 1) get = (m.writeBytes a n get).write (a + n) (get n) := by
  simp [Memory.writeBytes, List.range_succ]

/-- Storing bytes keeps the canonical form. -/
theorem Memory.wf_writeBytes (m : Memory) (a n : Nat) (get : Nat → Byte) (hm : Memory.wf m = true)
    (ha : a + n ≤ 2 ^ 32) : Memory.wf (m.writeBytes a n get) = true := by
  induction n with
  | zero => simpa [Memory.writeBytes] using hm
  | succ n ih => rw [Memory.writeBytes_succ]; exact Memory.wf_write _ _ _ (ih (by omega)) (by omega)

/-- Reading after storing `n` bytes: inside them the byte stored there, outside what was there before. -/
theorem Memory.read_writeBytes (m : Memory) (a n b : Nat) (get : Nat → Byte) (hm : Memory.wf m = true)
    (ha : a + n ≤ 2 ^ 32) :
    (m.writeBytes a n get).read b = if a ≤ b ∧ b < a + n then get (b - a) else m.read b := by
  induction n with
  | zero =>
    have hno : ¬ (a ≤ b ∧ b < a + 0) := by omega
    rw [if_neg hno]; rfl
  | succ n ih =>
    rw [Memory.writeBytes_succ, Memory.read_write _ _ _ _ (Memory.wf_writeBytes m a n get hm (by omega)),
      ih (by omega)]
    by_cases h : b = a + n
    · subst h
      have h1 : a ≤ a + n ∧ a + n < a + (n + 1) := by omega
      rw [if_pos rfl, if_pos h1, Nat.add_sub_cancel_left]
    · rw [if_neg h]
      by_cases h2 : a ≤ b ∧ b < a + n
      · rw [if_pos h2, if_pos (by omega)]
      · rw [if_neg h2, if_neg (by omega)]

/-- The members of a set with one more address. -/
theorem mem_insertAddr (a b : Nat) (l : List Nat) : b ∈ insertAddr a l ↔ b = a ∨ b ∈ l := by
  induction l with
  | nil => simp [insertAddr]
  | cons k rest ih =>
    unfold insertAddr
    split
    · simp
    · split
      · rename_i h; subst h; simp
      · simp only [List.mem_cons, ih]; tauto

/-- An address put in above a bound keeps the set above it. -/
theorem addrsAbove_insertAddr (a b : Nat) (l : List Nat) (h : addrsAbove b l = true) (hab : b < a) :
    addrsAbove b (insertAddr a l) = true := by
  cases l with
  | nil => simpa [insertAddr, addrsAbove] using hab
  | cons k rest =>
    simp only [addrsAbove, decide_eq_true_eq] at h
    unfold insertAddr
    split
    · simpa [addrsAbove] using hab
    · split <;> simpa [addrsAbove] using h

/-- An address put in keeps the canonical form. -/
theorem addrsWf_insertAddr (a : Nat) (l : List Nat) (h : addrsWf l = true) (ha : a < 2 ^ 32) :
    addrsWf (insertAddr a l) = true := by
  induction l with
  | nil => simp only [insertAddr, addrsWf, addrsAbove, Bool.and_true, decide_eq_true_eq]; exact ha
  | cons k rest ih =>
    have h' := h
    simp only [addrsWf, Bool.and_eq_true, decide_eq_true_eq] at h
    unfold insertAddr
    split
    · rename_i hlt
      rw [addrsWf, h']
      simp only [addrsAbove, Bool.and_true, Bool.and_eq_true, decide_eq_true_eq]
      exact ⟨ha, hlt⟩
    · split
      · exact h'
      · simp only [addrsWf, ih h.2, addrsAbove_insertAddr a k rest h.1.2 (by omega), Bool.and_true, decide_eq_true_eq]
        exact h.1.1

/-- Putting in `n + 1` addresses is putting in `n` and then one more. -/
theorem insertAddrs_succ (a n : Nat) (l : List Nat) :
    insertAddrs a (n + 1) l = insertAddr (a + n) (insertAddrs a n l) := by
  simp [insertAddrs, List.range_succ]

/-- The members of a set with the `n` addresses from `a` up. -/
theorem mem_insertAddrs (a n b : Nat) (l : List Nat) : b ∈ insertAddrs a n l ↔ (a ≤ b ∧ b < a + n) ∨ b ∈ l := by
  induction n with
  | zero =>
    simp only [insertAddrs, List.range_zero, List.foldl_nil]
    constructor
    · exact Or.inr
    · rintro (h | h)
      · omega
      · exact h
  | succ n ih =>
    rw [insertAddrs_succ, mem_insertAddr, ih]
    constructor
    · rintro (h | h | h)
      · left; omega
      · left; omega
      · exact Or.inr h
    · rintro (h | h)
      · by_cases hb : b = a + n
        · exact Or.inl hb
        · right; left; omega
      · exact Or.inr (Or.inr h)

/-- Putting in addresses keeps the canonical form. -/
theorem addrsWf_insertAddrs (a n : Nat) (l : List Nat) (h : addrsWf l = true) (ha : a + n ≤ 2 ^ 32) :
    addrsWf (insertAddrs a n l) = true := by
  induction n with
  | zero => simpa [insertAddrs] using h
  | succ n ih => rw [insertAddrs_succ]; exact addrsWf_insertAddr _ _ (ih (by omega)) (by omega)

end Sys2Proof.Machine
end

