-- ==== Sys2Proof/Laws/State.lean ====
section
/-! SUPPORT. What each update of the state leaves in each field: one lemma per field per update, and the same for the
register write, the flag writes and exception entry. -/

namespace Sys2Proof.Machine

variable (s : State)

@[simp] theorem State.setRegs_regs (v : Regs) : (s.setRegs v).regs = v := rfl
@[simp] theorem State.setRegs_pc (v : Regs) : (s.setRegs v).pc = s.pc := rfl
@[simp] theorem State.setRegs_cpsr (v : Regs) : (s.setRegs v).cpsr = s.cpsr := rfl
@[simp] theorem State.setRegs_spsr (v : Regs) : (s.setRegs v).spsr = s.spsr := rfl
@[simp] theorem State.setRegs_mem (v : Regs) : (s.setRegs v).mem = s.mem := rfl
@[simp] theorem State.setRegs_storedTo (v : Regs) : (s.setRegs v).storedTo = s.storedTo := rfl
@[simp] theorem State.setRegs_draws (v : Regs) : (s.setRegs v).draws = s.draws := rfl
@[simp] theorem State.setRegs_params (v : Regs) : (s.setRegs v).params = s.params := rfl
@[simp] theorem State.setRegs_env (v : Regs) : (s.setRegs v).env = s.env := rfl
@[simp] theorem State.setRegs_envToCome (v : Regs) : (s.setRegs v).envToCome = s.envToCome := rfl

@[simp] theorem State.setPc_regs (v : Word) : (s.setPc v).regs = s.regs := rfl
@[simp] theorem State.setPc_pc (v : Word) : (s.setPc v).pc = v := rfl
@[simp] theorem State.setPc_cpsr (v : Word) : (s.setPc v).cpsr = s.cpsr := rfl
@[simp] theorem State.setPc_spsr (v : Word) : (s.setPc v).spsr = s.spsr := rfl
@[simp] theorem State.setPc_mem (v : Word) : (s.setPc v).mem = s.mem := rfl
@[simp] theorem State.setPc_storedTo (v : Word) : (s.setPc v).storedTo = s.storedTo := rfl
@[simp] theorem State.setPc_draws (v : Word) : (s.setPc v).draws = s.draws := rfl
@[simp] theorem State.setPc_params (v : Word) : (s.setPc v).params = s.params := rfl
@[simp] theorem State.setPc_env (v : Word) : (s.setPc v).env = s.env := rfl
@[simp] theorem State.setPc_envToCome (v : Word) : (s.setPc v).envToCome = s.envToCome := rfl

@[simp] theorem State.setCpsr_regs (v : Word) : (s.setCpsr v).regs = s.regs := rfl
@[simp] theorem State.setCpsr_pc (v : Word) : (s.setCpsr v).pc = s.pc := rfl
@[simp] theorem State.setCpsr_cpsr (v : Word) : (s.setCpsr v).cpsr = v := rfl
@[simp] theorem State.setCpsr_spsr (v : Word) : (s.setCpsr v).spsr = s.spsr := rfl
@[simp] theorem State.setCpsr_mem (v : Word) : (s.setCpsr v).mem = s.mem := rfl
@[simp] theorem State.setCpsr_storedTo (v : Word) : (s.setCpsr v).storedTo = s.storedTo := rfl
@[simp] theorem State.setCpsr_draws (v : Word) : (s.setCpsr v).draws = s.draws := rfl
@[simp] theorem State.setCpsr_params (v : Word) : (s.setCpsr v).params = s.params := rfl
@[simp] theorem State.setCpsr_env (v : Word) : (s.setCpsr v).env = s.env := rfl
@[simp] theorem State.setCpsr_envToCome (v : Word) : (s.setCpsr v).envToCome = s.envToCome := rfl

@[simp] theorem State.setSpsr_regs (v : Spsrs) : (s.setSpsr v).regs = s.regs := rfl
@[simp] theorem State.setSpsr_pc (v : Spsrs) : (s.setSpsr v).pc = s.pc := rfl
@[simp] theorem State.setSpsr_cpsr (v : Spsrs) : (s.setSpsr v).cpsr = s.cpsr := rfl
@[simp] theorem State.setSpsr_spsr (v : Spsrs) : (s.setSpsr v).spsr = v := rfl
@[simp] theorem State.setSpsr_mem (v : Spsrs) : (s.setSpsr v).mem = s.mem := rfl
@[simp] theorem State.setSpsr_storedTo (v : Spsrs) : (s.setSpsr v).storedTo = s.storedTo := rfl
@[simp] theorem State.setSpsr_draws (v : Spsrs) : (s.setSpsr v).draws = s.draws := rfl
@[simp] theorem State.setSpsr_params (v : Spsrs) : (s.setSpsr v).params = s.params := rfl
@[simp] theorem State.setSpsr_env (v : Spsrs) : (s.setSpsr v).env = s.env := rfl
@[simp] theorem State.setSpsr_envToCome (v : Spsrs) : (s.setSpsr v).envToCome = s.envToCome := rfl

@[simp] theorem State.setMem_regs (m : Memory) (l : List Nat) : (s.setMem m l).regs = s.regs := rfl
@[simp] theorem State.setMem_pc (m : Memory) (l : List Nat) : (s.setMem m l).pc = s.pc := rfl
@[simp] theorem State.setMem_cpsr (m : Memory) (l : List Nat) : (s.setMem m l).cpsr = s.cpsr := rfl
@[simp] theorem State.setMem_spsr (m : Memory) (l : List Nat) : (s.setMem m l).spsr = s.spsr := rfl
@[simp] theorem State.setMem_mem (m : Memory) (l : List Nat) : (s.setMem m l).mem = m := rfl
@[simp] theorem State.setMem_storedTo (m : Memory) (l : List Nat) : (s.setMem m l).storedTo = l := rfl
@[simp] theorem State.setMem_draws (m : Memory) (l : List Nat) : (s.setMem m l).draws = s.draws := rfl
@[simp] theorem State.setMem_params (m : Memory) (l : List Nat) : (s.setMem m l).params = s.params := rfl
@[simp] theorem State.setMem_env (m : Memory) (l : List Nat) : (s.setMem m l).env = s.env := rfl
@[simp] theorem State.setMem_envToCome (m : Memory) (l : List Nat) : (s.setMem m l).envToCome = s.envToCome := rfl

@[simp] theorem State.setDraws_regs (n : Nat) : (s.setDraws n).regs = s.regs := rfl
@[simp] theorem State.setDraws_pc (n : Nat) : (s.setDraws n).pc = s.pc := rfl
@[simp] theorem State.setDraws_cpsr (n : Nat) : (s.setDraws n).cpsr = s.cpsr := rfl
@[simp] theorem State.setDraws_spsr (n : Nat) : (s.setDraws n).spsr = s.spsr := rfl
@[simp] theorem State.setDraws_mem (n : Nat) : (s.setDraws n).mem = s.mem := rfl
@[simp] theorem State.setDraws_storedTo (n : Nat) : (s.setDraws n).storedTo = s.storedTo := rfl
@[simp] theorem State.setDraws_draws (n : Nat) : (s.setDraws n).draws = n := rfl
@[simp] theorem State.setDraws_params (n : Nat) : (s.setDraws n).params = s.params := rfl
@[simp] theorem State.setDraws_env (n : Nat) : (s.setDraws n).env = s.env := rfl
@[simp] theorem State.setDraws_envToCome (n : Nat) : (s.setDraws n).envToCome = s.envToCome := rfl

@[simp] theorem State.setEnv_regs (e : Env) (es : List Env) : (s.setEnv e es).regs = s.regs := rfl
@[simp] theorem State.setEnv_pc (e : Env) (es : List Env) : (s.setEnv e es).pc = s.pc := rfl
@[simp] theorem State.setEnv_cpsr (e : Env) (es : List Env) : (s.setEnv e es).cpsr = s.cpsr := rfl
@[simp] theorem State.setEnv_spsr (e : Env) (es : List Env) : (s.setEnv e es).spsr = s.spsr := rfl
@[simp] theorem State.setEnv_mem (e : Env) (es : List Env) : (s.setEnv e es).mem = s.mem := rfl
@[simp] theorem State.setEnv_storedTo (e : Env) (es : List Env) : (s.setEnv e es).storedTo = s.storedTo := rfl
@[simp] theorem State.setEnv_draws (e : Env) (es : List Env) : (s.setEnv e es).draws = s.draws := rfl
@[simp] theorem State.setEnv_params (e : Env) (es : List Env) : (s.setEnv e es).params = s.params := rfl
@[simp] theorem State.setEnv_env (e : Env) (es : List Env) : (s.setEnv e es).env = e := rfl
@[simp] theorem State.setEnv_envToCome (e : Env) (es : List Env) : (s.setEnv e es).envToCome = es := rfl

/-! ### The register write changes the register file only -/

/-- A register write is an update of the register file. -/
theorem State.setReg_eq (m : Mode) (r : Reg) (v : Word) :
    s.setReg m r v = s.setRegs (match physReg r m with | some p => s.regs.write p v | none => s.regs) := by
  unfold State.setReg
  cases physReg r m <;> rfl

@[simp] theorem State.setReg_pc (m : Mode) (r : Reg) (v : Word) : (s.setReg m r v).pc = s.pc := by
  simp [State.setReg_eq]
@[simp] theorem State.setReg_cpsr (m : Mode) (r : Reg) (v : Word) : (s.setReg m r v).cpsr = s.cpsr := by
  simp [State.setReg_eq]
@[simp] theorem State.setReg_spsr (m : Mode) (r : Reg) (v : Word) : (s.setReg m r v).spsr = s.spsr := by
  simp [State.setReg_eq]
@[simp] theorem State.setReg_mem (m : Mode) (r : Reg) (v : Word) : (s.setReg m r v).mem = s.mem := by
  simp [State.setReg_eq]
@[simp] theorem State.setReg_storedTo (m : Mode) (r : Reg) (v : Word) : (s.setReg m r v).storedTo = s.storedTo := by
  simp [State.setReg_eq]
@[simp] theorem State.setReg_draws (m : Mode) (r : Reg) (v : Word) : (s.setReg m r v).draws = s.draws := by
  simp [State.setReg_eq]
@[simp] theorem State.setReg_params (m : Mode) (r : Reg) (v : Word) : (s.setReg m r v).params = s.params := by
  simp [State.setReg_eq]
@[simp] theorem State.setReg_env (m : Mode) (r : Reg) (v : Word) : (s.setReg m r v).env = s.env := by
  simp [State.setReg_eq]
@[simp] theorem State.setReg_envToCome (m : Mode) (r : Reg) (v : Word) : (s.setReg m r v).envToCome = s.envToCome := by
  simp [State.setReg_eq]

/-- The register file after a write to the register `p` that a name means. -/
theorem State.setReg_regs (m : Mode) (r : Reg) (v : Word) (p : PhysReg) (h : physReg r m = some p) :
    (s.setReg m r v).regs = s.regs.write p v := by
  simp [State.setReg_eq, h]

/-- A register write is an update of the register file where the name means a physical register. -/
theorem State.setReg_of_phys (m : Mode) (r : Reg) (v : Word) (p : PhysReg) (h : physReg r m = some p) :
    s.setReg m r v = s.setRegs (s.regs.write p v) := by
  simp [State.setReg_eq, h]

/-- Writing r15 by name changes nothing. -/
@[simp] theorem State.setReg_r15 (m : Mode) (v : Word) : s.setReg m .r15 v = s := by
  simp [State.setReg, physReg]

/-! ### The mode depends on the `cpsr` only -/

/-- Two states with the same `cpsr` are in the same mode. -/
theorem State.mode_congr (s t : State) (h : s.cpsr = t.cpsr) : s.mode = t.mode := by
  simp [State.mode, h]

@[simp] theorem State.setRegs_mode (v : Regs) : (s.setRegs v).mode = s.mode := rfl
@[simp] theorem State.setPc_mode (v : Word) : (s.setPc v).mode = s.mode := rfl
@[simp] theorem State.setSpsr_mode (v : Spsrs) : (s.setSpsr v).mode = s.mode := rfl
@[simp] theorem State.setMem_mode (m : Memory) (l : List Nat) : (s.setMem m l).mode = s.mode := rfl
@[simp] theorem State.setDraws_mode (n : Nat) : (s.setDraws n).mode = s.mode := rfl
@[simp] theorem State.setEnv_mode (e : Env) (es : List Env) : (s.setEnv e es).mode = s.mode := rfl
@[simp] theorem State.setCpsr_mode (v : Word) : (s.setCpsr v).mode = psrMode v := rfl
@[simp] theorem State.setReg_mode (m : Mode) (r : Reg) (v : Word) : (s.setReg m r v).mode = s.mode := by
  simp [State.mode]

/-! ### Flag writes -/

@[simp] theorem State.setAluFlags_regs (o : AluOut) : (s.setAluFlags o).regs = s.regs := rfl
@[simp] theorem State.setAluFlags_pc (o : AluOut) : (s.setAluFlags o).pc = s.pc := rfl
@[simp] theorem State.setAluFlags_spsr (o : AluOut) : (s.setAluFlags o).spsr = s.spsr := rfl
@[simp] theorem State.setAluFlags_mem (o : AluOut) : (s.setAluFlags o).mem = s.mem := rfl
@[simp] theorem State.setAluFlags_storedTo (o : AluOut) : (s.setAluFlags o).storedTo = s.storedTo := rfl
@[simp] theorem State.setAluFlags_draws (o : AluOut) : (s.setAluFlags o).draws = s.draws := rfl
@[simp] theorem State.setAluFlags_params (o : AluOut) : (s.setAluFlags o).params = s.params := rfl
@[simp] theorem State.setAluFlags_env (o : AluOut) : (s.setAluFlags o).env = s.env := rfl
@[simp] theorem State.setAluFlags_envToCome (o : AluOut) : (s.setAluFlags o).envToCome = s.envToCome := rfl
@[simp] theorem State.setAluFlags_cpsr (o : AluOut) :
    (s.setAluFlags o).cpsr = psrSetFlags o.result.msb (o.result == 0) o.carry o.overflow s.cpsr := rfl
@[simp] theorem State.setMulFlags_regs (r : Word) : (s.setMulFlags r).regs = s.regs := rfl
@[simp] theorem State.setMulFlags_pc (r : Word) : (s.setMulFlags r).pc = s.pc := rfl
@[simp] theorem State.setMulFlags_spsr (r : Word) : (s.setMulFlags r).spsr = s.spsr := rfl
@[simp] theorem State.setMulFlags_mem (r : Word) : (s.setMulFlags r).mem = s.mem := rfl
@[simp] theorem State.setMulFlags_storedTo (r : Word) : (s.setMulFlags r).storedTo = s.storedTo := rfl
@[simp] theorem State.setMulFlags_draws (r : Word) : (s.setMulFlags r).draws = s.draws + 1 := rfl
@[simp] theorem State.setMulFlags_params (r : Word) : (s.setMulFlags r).params = s.params := rfl
@[simp] theorem State.setMulFlags_env (r : Word) : (s.setMulFlags r).env = s.env := rfl
@[simp] theorem State.setMulFlags_envToCome (r : Word) : (s.setMulFlags r).envToCome = s.envToCome := rfl
@[simp] theorem State.setMulLongFlags_regs (r : BitVec 64) : (s.setMulLongFlags r).regs = s.regs := rfl
@[simp] theorem State.setMulLongFlags_pc (r : BitVec 64) : (s.setMulLongFlags r).pc = s.pc := rfl
@[simp] theorem State.setMulLongFlags_spsr (r : BitVec 64) : (s.setMulLongFlags r).spsr = s.spsr := rfl
@[simp] theorem State.setMulLongFlags_mem (r : BitVec 64) : (s.setMulLongFlags r).mem = s.mem := rfl
@[simp] theorem State.setMulLongFlags_storedTo (r : BitVec 64) : (s.setMulLongFlags r).storedTo = s.storedTo := rfl
@[simp] theorem State.setMulLongFlags_draws (r : BitVec 64) : (s.setMulLongFlags r).draws = s.draws + 2 := rfl
@[simp] theorem State.setMulLongFlags_params (r : BitVec 64) : (s.setMulLongFlags r).params = s.params := rfl
@[simp] theorem State.setMulLongFlags_env (r : BitVec 64) : (s.setMulLongFlags r).env = s.env := rfl
@[simp] theorem State.setMulLongFlags_envToCome (r : BitVec 64) : (s.setMulLongFlags r).envToCome = s.envToCome := rfl

/-! ### Exception entry -/

@[simp] theorem State.raise_pc (e : Exc) : (s.raise e).pc = s.params.vectorBase.addr + e.vector := by simp [State.raise]
@[simp] theorem State.raise_cpsr (e : Exc) : (s.raise e).cpsr = entryPsr e s.cpsr := by simp [State.raise]
@[simp] theorem State.raise_spsr (e : Exc) : (s.raise e).spsr = s.spsr.write e.mode s.cpsr := by simp [State.raise]
@[simp] theorem State.raise_mem (e : Exc) : (s.raise e).mem = s.mem := by simp [State.raise]
@[simp] theorem State.raise_storedTo (e : Exc) : (s.raise e).storedTo = s.storedTo := by simp [State.raise]
@[simp] theorem State.raise_draws (e : Exc) : (s.raise e).draws = s.draws := by simp [State.raise]
@[simp] theorem State.raise_params (e : Exc) : (s.raise e).params = s.params := by simp [State.raise]
@[simp] theorem State.raise_env (e : Exc) : (s.raise e).env = s.env := by simp [State.raise]
@[simp] theorem State.raise_envToCome (e : Exc) : (s.raise e).envToCome = s.envToCome := by simp [State.raise]
@[simp] theorem State.raise_regs (e : Exc) : (s.raise e).regs = (s.setReg e.mode .r14 (s.pc + e.lrOffset)).regs := by
  simp [State.raise]

/-! ### Stores and the environment's move -/

@[simp] theorem State.poke_regs (a : Word) (n : Nat) (v : Word) : (s.poke a n v).regs = s.regs := rfl
@[simp] theorem State.poke_pc (a : Word) (n : Nat) (v : Word) : (s.poke a n v).pc = s.pc := rfl
@[simp] theorem State.poke_cpsr (a : Word) (n : Nat) (v : Word) : (s.poke a n v).cpsr = s.cpsr := rfl
@[simp] theorem State.poke_spsr (a : Word) (n : Nat) (v : Word) : (s.poke a n v).spsr = s.spsr := rfl
@[simp] theorem State.poke_draws (a : Word) (n : Nat) (v : Word) : (s.poke a n v).draws = s.draws := rfl
@[simp] theorem State.poke_params (a : Word) (n : Nat) (v : Word) : (s.poke a n v).params = s.params := rfl
@[simp] theorem State.poke_env (a : Word) (n : Nat) (v : Word) : (s.poke a n v).env = s.env := rfl
@[simp] theorem State.poke_envToCome (a : Word) (n : Nat) (v : Word) : (s.poke a n v).envToCome = s.envToCome := rfl
@[simp] theorem State.poke_mode (a : Word) (n : Nat) (v : Word) : (s.poke a n v).mode = s.mode := rfl
@[simp] theorem State.tick_regs : s.tick.regs = s.regs := by unfold State.tick; split <;> rfl
@[simp] theorem State.tick_pc : s.tick.pc = s.pc := by unfold State.tick; split <;> rfl
@[simp] theorem State.tick_cpsr : s.tick.cpsr = s.cpsr := by unfold State.tick; split <;> rfl
@[simp] theorem State.tick_spsr : s.tick.spsr = s.spsr := by unfold State.tick; split <;> rfl
@[simp] theorem State.tick_mem : s.tick.mem = s.mem := by unfold State.tick; split <;> rfl
@[simp] theorem State.tick_storedTo : s.tick.storedTo = s.storedTo := by unfold State.tick; split <;> rfl
@[simp] theorem State.tick_draws : s.tick.draws = s.draws := by unfold State.tick; split <;> rfl
@[simp] theorem State.tick_params : s.tick.params = s.params := by unfold State.tick; split <;> rfl

end Sys2Proof.Machine
end

