-- ==== Sys2Proof/Laws/Registers.lean ====
section
/-! SUPPORT. The register file: reading after writing, and which names mean the same physical register (R24). -/

namespace Sys2Proof.Machine

/-- A register reads as what was last written to it. -/
@[simp] theorem Regs.read_write_same (s : Regs) (p : PhysReg) (v : Word) : (s.write p v).read p = v := by
  cases p <;> rfl

/-- A write leaves every other register alone. -/
theorem Regs.read_write_ne (s : Regs) (p q : PhysReg) (v : Word) (h : p ≠ q) : (s.write p v).read q = s.read q := by
  cases p <;> cases q <;> first | rfl | exact absurd rfl h

/-- Reading after writing, both cases. -/
theorem Regs.read_write (s : Regs) (p q : PhysReg) (v : Word) :
    (s.write p v).read q = if p = q then v else s.read q := by
  by_cases h : p = q
  · subst h; simp
  · simp [h, Regs.read_write_ne s p q v h]

/-- Register files that read alike are equal. -/
theorem Regs.eq_of_read (a b : Regs) (h : ∀ p, a.read p = b.read p) : a = b := by
  cases a; cases b
  simp only [Regs.mk.injEq]
  exact ⟨h .r0, h .r1, h .r2, h .r3, h .r4, h .r5, h .r6, h .r7, h .r8, h .r9, h .r10, h .r11, h .r12, h .r8_fiq,
    h .r9_fiq, h .r10_fiq, h .r11_fiq, h .r12_fiq, h .r13, h .r14, h .r13_fiq, h .r14_fiq, h .r13_irq, h .r14_irq,
    h .r13_svc, h .r14_svc, h .r13_und, h .r14_und, h .r13_abt, h .r14_abt⟩

/-- Writing back the value a register holds changes nothing. -/
@[simp] theorem Regs.write_read_self (s : Regs) (p : PhysReg) : s.write p (s.read p) = s := by
  cases p <;> rfl

/-- r15 alone means no physical register. -/
@[simp] theorem physReg_eq_none (r : Reg) (m : Mode) : physReg r m = none ↔ r = .r15 := by
  cases r <;> cases m <;> simp [physReg]

/-- The name under which a physical register is seen (R22). -/
def PhysReg.name (p : PhysReg) : Reg :=
  match p with
  | .r0 => .r0
  | .r1 => .r1
  | .r2 => .r2
  | .r3 => .r3
  | .r4 => .r4
  | .r5 => .r5
  | .r6 => .r6
  | .r7 => .r7
  | .r8 | .r8_fiq => .r8
  | .r9 | .r9_fiq => .r9
  | .r10 | .r10_fiq => .r10
  | .r11 | .r11_fiq => .r11
  | .r12 | .r12_fiq => .r12
  | .r13 | .r13_fiq | .r13_irq | .r13_svc | .r13_und | .r13_abt => .r13
  | .r14 | .r14_fiq | .r14_irq | .r14_svc | .r14_und | .r14_abt => .r14

/-- A name means a physical register seen under that name. -/
theorem physReg_name (r : Reg) (m : Mode) (p : PhysReg) (h : physReg r m = some p) : p.name = r := by
  cases r <;> cases m <;> simp only [physReg, Option.some.injEq, reduceCtorEq] at h <;> subst h <;> rfl

/-- In one mode two names mean the same register only if they are the same name. -/
theorem physReg_inj (r r' : Reg) (m : Mode) (p : PhysReg) (h : physReg r m = some p) (h' : physReg r' m = some p) :
    r = r' := by
  rw [← physReg_name r m p h, physReg_name r' m p h']

/-- A name other than r15 means some register. -/
theorem physReg_of_ne (r : Reg) (m : Mode) (h : r ≠ .r15) : ∃ p, physReg r m = some p := by
  cases hp : physReg r m with
  | none => exact absurd ((physReg_eq_none r m).1 hp) h
  | some p => exact ⟨p, rfl⟩

/-- r15 read as an operand (R29). -/
@[simp] theorem State.rd_r15 (s : State) (m : Mode) : s.rd m .r15 = s.pc + 8 := rfl

/-- A name that means a physical register reads that register. -/
theorem State.rd_of_phys (s : State) (m : Mode) (r : Reg) (p : PhysReg) (h : physReg r m = some p) :
    s.rd m r = s.regs.read p := by
  simp [State.rd, h]

/-- A register other than r15 reads as what was written to it under the same name in the same mode. -/
theorem State.rd_setReg_same (s : State) (m : Mode) (r : Reg) (v : Word) (h : r ≠ .r15) :
    (s.setReg m r v).rd m r = v := by
  obtain ⟨p, hp⟩ := physReg_of_ne r m h
  simp [State.rd, State.setReg, hp]

/-- A write under one name leaves every other name of the mode alone. -/
theorem State.rd_setReg_ne (s : State) (m : Mode) (r r' : Reg) (v : Word) (h : r ≠ r') :
    (s.setReg m r v).rd m r' = s.rd m r' := by
  cases hp : physReg r m with
  | none => simp [State.setReg, hp]
  | some p =>
    cases hq : physReg r' m with
    | none => simp [State.rd, State.setReg, hp, hq]
    | some q =>
      have hne : p ≠ q := fun e => h (physReg_inj r r' m q (e ▸ hp) hq)
      simp [State.rd, State.setReg, hp, hq, Regs.read_write_ne _ _ _ _ hne]

/-- The `spsr` of a mode that has one reads as what was written to it. -/
theorem Spsrs.read_write_same (s : Spsrs) (m : Mode) (v : Word) (h : m.hasSpsr = true) :
    (s.write m v).read m = some v := by
  cases m <;> first | rfl | cases h

/-- A write to one mode's `spsr` leaves the others alone. -/
theorem Spsrs.read_write_ne (s : Spsrs) (m m' : Mode) (v : Word) (h : m ≠ m') : (s.write m v).read m' = s.read m' := by
  cases m <;> cases m' <;> first | rfl | exact absurd rfl h

/-- User and System mode have no `spsr` (R24). -/
theorem Spsrs.read_eq_none (s : Spsrs) (m : Mode) : s.read m = none ↔ m.hasSpsr = false := by
  cases m <;> simp [Spsrs.read, Mode.hasSpsr]

end Sys2Proof.Machine
end

