-- ==== Sys2Proof/Laws/Ops.lean ====
section
/-! SUPPORT. One lemma per shared operation that says once everything it can answer, to be cited instead of unfolding
the operation; and that every memory operation keeps the canonical form. -/

namespace Sys2Proof.Machine

variable {s t : State}

/-! ### The pc and the condition -/

/-- The end of an instruction answers a next state exactly where the pc has a successor (R30, R31). -/
theorem advance_eq_next : s.advance = .next t ↔ s.pc.toNat + 4 < 2 ^ 32 ∧ t = s.setPc (s.pc + 4) := by
  unfold State.advance
  split <;> simp_all [eq_comm]

/-- Where the pc has a successor the end of an instruction goes there. -/
theorem advance_of_room (h : s.pc.toNat + 4 < 2 ^ 32) : s.advance = .next (s.setPc (s.pc + 4)) :=
  advance_eq_next.2 ⟨h, rfl⟩

/-- At the last word of the address space the pc has no successor (R31). -/
theorem advance_of_top (h : s.pc = 0xFFFFFFFC) : s.advance = .fault .pcPastTop := by
  unfold State.advance
  rw [h]; rfl

/-- A condition that passes runs the body (R131). -/
theorem whenPassed_of_passed {c : Cond} {m : Mode} {body : Mode → Out} (hm : s.mode = some m)
    (hc : conditionPassed c s.cpsr = true) : whenPassed c s body = body m := by
  simp [whenPassed, hm, hc]

/-- A condition that fails only moves the pc (R131). -/
theorem whenPassed_of_failed {c : Cond} {m : Mode} {body : Mode → Out} (hm : s.mode = some m)
    (hc : conditionPassed c s.cpsr = false) : whenPassed c s body = s.advance := by
  simp [whenPassed, hm, hc]

/-- An illegal mode is refused before the condition (R49). -/
theorem whenPassed_of_illegal {c : Cond} {body : Mode → Out} (hm : s.mode = none) :
    whenPassed c s body = .refused .illegalMode := by
  simp [whenPassed, hm]

/-- Everything a conditional instruction can answer with a next state. -/
theorem whenPassed_eq_next {c : Cond} {body : Mode → Out} (h : whenPassed c s body = .next t) :
    ∃ m, s.mode = some m ∧ ((conditionPassed c s.cpsr = true ∧ body m = .next t) ∨
      (conditionPassed c s.cpsr = false ∧ s.advance = .next t)) := by
  unfold whenPassed at h
  split at h
  · simp at h
  · rename_i m hm
    refine ⟨m, hm, ?_⟩
    split at h
    · rename_i hc; exact .inl ⟨hc, h⟩
    · rename_i hc; exact .inr ⟨by simpa using hc, h⟩

/-! ### Exception return and data-processing destinations -/

/-- An exception return answers a next state exactly where every check of R157 passes. -/
theorem exceptionReturn_eq_next {m : Mode} {result : Word} :
    s.exceptionReturn m result = .next t ↔
      ∃ new, s.spsr.read m = some new ∧ psrT new = false ∧ psrJ new = false ∧ (psrMode new).isSome = true ∧
        psrReserved new = psrReserved s.cpsr ∧ isAligned result 4 = true ∧ t = (s.setCpsr new).setPc result := by
  unfold State.exceptionReturn
  cases h : s.spsr.read m with
  | none => simp
  | some new =>
    simp only [Option.some.injEq, exists_eq_left']
    by_cases hT : psrT new = true
    · simp [hT]
    · by_cases hJ : psrJ new = true
      · simp [hT, hJ]
      · by_cases hM : (psrMode new).isNone = true
        · have hM' : ¬ (psrMode new).isSome = true := by cases hx : psrMode new <;> simp_all
          simp [hT, hJ, hM, hM']
        · have hM' : (psrMode new).isSome = true := by cases hx : psrMode new <;> simp_all
          by_cases hR : psrReserved new = psrReserved s.cpsr
          · by_cases hA : isAligned result 4 = true
            · simp [hT, hJ, hM, hM', hR, hA, eq_comm]
            · simp [hT, hJ, hM, hM', hR, hA]
          · simp [hT, hJ, hM, hM', hR]

/-- Everything the destination of a data-processing instruction can come to (R156 to R158). -/
theorem putResult_eq_next {m : Mode} {st : Bool} {rd : Reg} {o : AluOut} (h : s.putResult m st rd o = .next t) :
    (rd = .r15 ∧ st = true ∧ s.exceptionReturn m o.result = .next t) ∨
    (rd = .r15 ∧ st = false ∧ isAligned o.result 4 = true ∧ t = s.setPc o.result) ∨
    (rd ≠ .r15 ∧ st = true ∧ ((s.setReg m rd o.result).setAluFlags o).advance = .next t) ∨
    (rd ≠ .r15 ∧ st = false ∧ (s.setReg m rd o.result).advance = .next t) := by
  unfold State.putResult at h
  by_cases hr : rd = .r15
  · cases st
    · by_cases ha : isAligned o.result 4 = true
      · right; left; simp_all
      · simp [hr, ha] at h
    · left; simp_all
  · cases st
    · right; right; right; simp_all
    · right; right; left; simp_all

/-! ### Memory accesses -/

/-- What `MEM_MAP` admits lies in the address space. -/
theorem admits_bound {addr : Word} {n : Nat} (hn : 0 < n) (h : s.admits addr n = true) : addr.toNat + n ≤ 2 ^ 32 := by
  unfold State.admits at h
  rw [List.all_eq_true] at h
  have := h (n - 1) (List.mem_range.2 (by omega))
  unfold mapAdmits at this
  rw [List.any_eq_true] at this
  obtain ⟨r, -, hr⟩ := this
  simp only [Bool.and_eq_true, decide_eq_true_eq] at hr
  have := r.last.isLt
  omega

/-- An access has at least one byte. -/
theorem sizeBytes_pos (sz : Size) : 0 < sizeBytes sz := by cases sz <;> decide

/-- Everything a load can come to (R68, R70). -/
theorem load_eq_done {addr : Word} {sz : Size} {v : Word} :
    s.load addr sz = .done v ↔
      s.aborts .read addr sz = false ∧ s.admits addr (sizeBytes sz) = true ∧ v = s.peek addr (sizeBytes sz) := by
  unfold State.load
  by_cases h : s.aborts .read addr sz = true
  · simp [h]
  · by_cases h2 : s.admits addr (sizeBytes sz) = true
    · simp [h, h2, eq_comm]
    · simp [h, h2]

/-- Everything a store can come to (R68, R70). -/
theorem store_eq_done {addr : Word} {sz : Size} {v : Word} :
    s.store addr sz v = .done t ↔
      s.aborts .write addr sz = false ∧ s.admits addr (sizeBytes sz) = true ∧ t = s.poke addr (sizeBytes sz) v := by
  unfold State.store
  by_cases h : s.aborts .write addr sz = true
  · simp [h]
  · by_cases h2 : s.admits addr (sizeBytes sz) = true
    · simp [h, h2, eq_comm]
    · simp [h, h2]

/-- A load outside `MEM_MAP` that does not abort (R68). -/
theorem load_of_unmapped {addr : Word} {sz : Size} (ha : s.aborts .read addr sz = false)
    (hm : s.admits addr (sizeBytes sz) = false) : s.load addr sz = .fault (.unmapped addr) := by
  simp [State.load, ha, hm]

/-- A store outside `MEM_MAP` that does not abort (R68). -/
theorem store_of_unmapped {addr v : Word} {sz : Size} (ha : s.aborts .write addr sz = false)
    (hm : s.admits addr (sizeBytes sz) = false) : s.store addr sz v = .fault (.unmapped addr) := by
  simp [State.store, ha, hm]

/-- The two parts of the canonical form. -/
theorem memOk_iff : s.memOk = true ↔ Memory.wf s.mem = true ∧ addrsWf s.storedTo = true := by
  simp [State.memOk]

/-- The canonical form depends on the memory and the set of addresses stored to only. -/
theorem memOk_congr (hm : t.mem = s.mem) (hs : t.storedTo = s.storedTo) (h : s.memOk = true) : t.memOk = true := by
  rw [memOk_iff] at *; rwa [hm, hs]

/-- A store keeps the canonical form. -/
theorem memOk_poke {addr : Word} {n : Nat} {v : Word} (hb : addr.toNat + n ≤ 2 ^ 32) (h : s.memOk = true) :
    (s.poke addr n v).memOk = true := by
  rw [memOk_iff] at *
  exact ⟨Memory.wf_writeBytes _ _ _ _ h.1 hb, addrsWf_insertAddrs _ _ _ h.2 hb⟩

/-- Reading a byte after a store. -/
theorem read_poke {addr : Word} {n : Nat} {v : Word} (b : Nat) (hb : addr.toNat + n ≤ 2 ^ 32) (h : s.memOk = true) :
    (s.poke addr n v).mem.read b =
      if addr.toNat ≤ b ∧ b < addr.toNat + n then laneOf v (lane s.params.bigEndian n (b - addr.toNat))
      else s.mem.read b :=
  Memory.read_writeBytes _ _ _ _ _ (memOk_iff.1 h).1 hb

/-- The addresses marked as stored to after a store (R76). -/
theorem storedTo_poke {addr : Word} {n : Nat} {v : Word} (b : Nat) :
    b ∈ (s.poke addr n v).storedTo ↔ (addr.toNat ≤ b ∧ b < addr.toNat + n) ∨ b ∈ s.storedTo :=
  mem_insertAddrs _ _ _ _

/-- The state after reset has its memory in canonical form. -/
theorem memOk_reset : State.reset.memOk = true := by decide

/-! ### Single transfers -/

@[simp] theorem writeBack_pc (m : Mode) (ix : Index) (rn : Reg) (v : Word) : (s.writeBack m ix rn v).pc = s.pc := by
  unfold State.writeBack; split <;> simp

@[simp] theorem writeBack_cpsr (m : Mode) (ix : Index) (rn : Reg) (v : Word) :
    (s.writeBack m ix rn v).cpsr = s.cpsr := by
  unfold State.writeBack; split <;> simp

@[simp] theorem writeBack_spsr (m : Mode) (ix : Index) (rn : Reg) (v : Word) :
    (s.writeBack m ix rn v).spsr = s.spsr := by
  unfold State.writeBack; split <;> simp

@[simp] theorem writeBack_mem (m : Mode) (ix : Index) (rn : Reg) (v : Word) : (s.writeBack m ix rn v).mem = s.mem := by
  unfold State.writeBack; split <;> simp

@[simp] theorem writeBack_storedTo (m : Mode) (ix : Index) (rn : Reg) (v : Word) :
    (s.writeBack m ix rn v).storedTo = s.storedTo := by
  unfold State.writeBack; split <;> simp

@[simp] theorem writeBack_draws (m : Mode) (ix : Index) (rn : Reg) (v : Word) :
    (s.writeBack m ix rn v).draws = s.draws := by
  unfold State.writeBack; split <;> simp

@[simp] theorem writeBack_params (m : Mode) (ix : Index) (rn : Reg) (v : Word) :
    (s.writeBack m ix rn v).params = s.params := by
  unfold State.writeBack; split <;> simp

@[simp] theorem writeBack_env (m : Mode) (ix : Index) (rn : Reg) (v : Word) : (s.writeBack m ix rn v).env = s.env := by
  unfold State.writeBack; split <;> simp

@[simp] theorem writeBack_envToCome (m : Mode) (ix : Index) (rn : Reg) (v : Word) :
    (s.writeBack m ix rn v).envToCome = s.envToCome := by
  unfold State.writeBack; split <;> simp

/-- The state from which a single transfer takes Data Abort: the base as `ABORT_BASE` says (R225). -/
theorem transferAbort_eq (m : Mode) (ix : Index) (rn : Reg) (v : Word) :
    ∃ u : State, s.transferAbort m ix rn v = u.raise .dataAbort ∧ (u = s ∨ u = s.writeBack m ix rn v) := by
  unfold State.transferAbort
  cases s.params.abortBase
  · exact ⟨_, rfl, .inl rfl⟩
  · exact ⟨_, rfl, .inr rfl⟩

/-! ### Block transfers -/

/-- The state a loop of R265 ends in, where it does not stop the machine. -/
def BlockEnd.state? (e : BlockEnd) : Option State :=
  match e with
  | .done u _ => some u
  | .abort u => some u
  | .fault _ => none

/-- How many registers a list holds (R261). -/
theorem regsOf_length (list : BitVec 16) : (regsOf list).length = (List.range 16).countP fun i => list.getLsbD i := by
  have h : List.range 16 = Reg.all.map Reg.index := by decide
  rw [regsOf, ← List.countP_eq_length_filter, h, List.countP_map]
  rfl

/-- r15 is the last register of a list that holds it (R262). -/
theorem regsOf_getElem_r15 (list : BitVec 16) (k : Nat) (h : (regsOf list)[k]? = some .r15) :
    k + 1 = (regsOf list).length := by
  have hs : regsOf list = (Reg.all.dropLast.filter (inList list)) ++ ([Reg.r15].filter (inList list)) := by
    rw [regsOf, ← List.filter_append]; rfl
  have hn : Reg.r15 ∉ Reg.all.dropLast.filter (inList list) := fun hm => by
    have := (List.mem_filter.1 hm).1; revert this; decide
  rw [hs] at h ⊢
  rcases Nat.lt_or_ge k (Reg.all.dropLast.filter (inList list)).length with hk | hk
  · rw [List.getElem?_append_left hk] at h
    exact absurd (List.mem_of_getElem? h) hn
  · rw [List.getElem?_append_right hk] at h
    have hl : ([Reg.r15].filter (inList list)).length ≤ 1 := List.length_filter_le ..
    have := (List.getElem?_eq_some_iff.1 h).1
    rw [List.length_append]; omega

/-- The address of the word after a word. -/
theorem word_add_four (addr : Word) (k : Nat) :
    addr + 4 + BitVec.ofNat 32 (4 * k) = addr + BitVec.ofNat 32 (4 * (k + 1)) := by
  rw [Nat.mul_add, BitVec.ofNat_add, BitVec.add_assoc, BitVec.add_comm (4 : Word)]; rfl

/-- The loop of `LDM` after its first `j` words, where they can be accessed and none is r15's: it goes on with the rest,
and only the register file has changed. -/
theorem loadWords_prefix (m : Mode) (j : Nat) : ∀ (rs : List Reg) (addr : Word) (s : State), j ≤ rs.length →
    (∀ k < j, rs[k]? ≠ some .r15) →
    (∀ k < j, s.aborts .read (addr + BitVec.ofNat 32 (4 * k)) .word = false ∧
      s.admits (addr + BitVec.ofNat 32 (4 * k)) 4 = true) →
    ∃ regs, loadWords m rs addr s =
      loadWords m (rs.drop j) (addr + BitVec.ofNat 32 (4 * j)) (s.setRegs regs) := by
  induction j with
  | zero => intro rs addr s _ _ _; exact ⟨s.regs, by simp; rfl⟩
  | succ j ih =>
    intro rs addr s hj h15 hacc
    cases rs with
    | nil => simp at hj
    | cons r rest =>
      have h0 := hacc 0 (by omega)
      rw [show addr + BitVec.ofNat 32 (4 * 0) = addr by simp] at h0
      have hl : s.load addr .word = .done (s.peek addr 4) := load_eq_done.2 ⟨h0.1, h0.2, rfl⟩
      have hr : r ≠ .r15 := fun h => h15 0 (by omega) (by simp [h])
      obtain ⟨regs, h⟩ := ih rest (addr + 4) (s.setReg m r (s.peek addr 4)) (by simpa using hj)
        (fun k hk => by simpa using h15 (k + 1) (by omega)) (fun k hk => by
          rw [word_add_four, State.setReg_eq]
          exact hacc (k + 1) (by omega))
      refine ⟨regs, ?_⟩
      rw [loadWords]
      simp only [hl, hr, if_false]
      rw [h, word_add_four, State.setReg_eq]; rfl

/-- The loop of `STM` after its first `j` words, where they can be accessed: it goes on with the rest, and only the memory
and the set of addresses stored to have changed. -/
theorem storeWords_prefix (m : Mode) (j : Nat) : ∀ (rs : List Reg) (addr : Word) (s : State), j ≤ rs.length →
    (∀ k < j, s.aborts .write (addr + BitVec.ofNat 32 (4 * k)) .word = false ∧
      s.admits (addr + BitVec.ofNat 32 (4 * k)) 4 = true) →
    ∃ mem stored, storeWords m rs addr s =
      storeWords m (rs.drop j) (addr + BitVec.ofNat 32 (4 * j)) (s.setMem mem stored) := by
  induction j with
  | zero => intro rs addr s _ _; exact ⟨s.mem, s.storedTo, by simp; rfl⟩
  | succ j ih =>
    intro rs addr s hj hacc
    cases rs with
    | nil => simp at hj
    | cons r rest =>
      have h0 := hacc 0 (by omega)
      rw [show addr + BitVec.ofNat 32 (4 * 0) = addr by simp] at h0
      have hl : s.store addr .word (s.storeValue m r) = .done (s.poke addr 4 (s.storeValue m r)) :=
        store_eq_done.2 ⟨h0.1, h0.2, rfl⟩
      obtain ⟨mem, stored, h⟩ := ih rest (addr + 4) (s.poke addr 4 (s.storeValue m r)) (by simpa using hj)
        (fun k hk => by rw [word_add_four]; exact hacc (k + 1) (by omega))
      refine ⟨mem, stored, ?_⟩
      rw [storeWords]
      simp only [hl]
      rw [h, word_add_four]; rfl

/-- The loop of `LDM` changes the register file only. -/
theorem loadWords_frame (m : Mode) (rs : List Reg) (addr : Word) (s u : State)
    (h : (loadWords m rs addr s).state? = some u) : ∃ regs, u = s.setRegs regs := by
  induction rs generalizing addr s with
  | nil => simp only [loadWords, BlockEnd.state?, Option.some.injEq] at h; exact ⟨s.regs, h.symm⟩
  | cons r rest ih =>
    unfold loadWords at h
    cases hl : s.load addr .word with
    | abort => simp only [hl, BlockEnd.state?, Option.some.injEq] at h; exact ⟨s.regs, h.symm⟩
    | fault f => simp [hl, BlockEnd.state?] at h
    | done v =>
      simp only [hl] at h
      split at h
      · simp only [BlockEnd.state?, Option.some.injEq] at h; exact ⟨s.regs, h.symm⟩
      · obtain ⟨regs, hu⟩ := ih _ _ h
        exact ⟨regs, by rw [hu, State.setReg_eq]; rfl⟩

/-- The word that the loop of `LDM` keeps for r15 is word aligned (R266). -/
theorem loadWords_pc_aligned (m : Mode) (rs : List Reg) (addr : Word) (s u : State) (a : Word)
    (h : loadWords m rs addr s = .done u (some a)) : ∃ v, a = wordAligned v := by
  induction rs generalizing addr s with
  | nil => simp [loadWords] at h
  | cons r rest ih =>
    unfold loadWords at h
    cases hl : s.load addr .word with
    | abort => simp [hl] at h
    | fault f => simp [hl] at h
    | done v =>
      simp only [hl] at h
      split at h
      · simp only [BlockEnd.done.injEq, Option.some.injEq] at h; exact ⟨v, h.2.symm⟩
      · exact ih _ _ h

/-- The loop of `STM` changes the memory and the set of addresses stored to only, and keeps their canonical form. -/
theorem storeWords_frame (m : Mode) (rs : List Reg) (addr : Word) (s u : State)
    (h : (storeWords m rs addr s).state? = some u) :
    ∃ mem stored, u = s.setMem mem stored ∧ (s.memOk = true → u.memOk = true) := by
  induction rs generalizing addr s with
  | nil => simp only [storeWords, BlockEnd.state?, Option.some.injEq] at h; exact ⟨s.mem, s.storedTo, h.symm, by rw [h]; exact id⟩
  | cons r rest ih =>
    unfold storeWords at h
    cases hl : s.store addr .word (s.storeValue m r) with
    | abort => simp only [hl, BlockEnd.state?, Option.some.injEq] at h; exact ⟨s.mem, s.storedTo, h.symm, by rw [h]; exact id⟩
    | fault f => simp [hl, BlockEnd.state?] at h
    | done v =>
      simp only [hl] at h
      obtain ⟨-, hadm, rfl⟩ := store_eq_done.1 hl
      obtain ⟨mem, stored, hu, hok⟩ := ih _ _ h
      exact ⟨mem, stored, by rw [hu]; rfl, fun hs => hok (memOk_poke (admits_bound (sizeBytes_pos _) hadm) hs)⟩

/-- The loop of `STM` keeps no word for r15. -/
theorem storeWords_no_pc (m : Mode) (rs : List Reg) (addr : Word) (s u : State) (p : Option Word)
    (h : storeWords m rs addr s = .done u p) : p = none := by
  induction rs generalizing addr s with
  | nil => simp only [storeWords, BlockEnd.done.injEq] at h; exact h.2.symm
  | cons r rest ih =>
    unfold storeWords at h
    cases hl : s.store addr .word (s.storeValue m r) with
    | abort => simp [hl] at h
    | fault f => simp [hl] at h
    | done v => simp only [hl] at h; exact ih _ _ h

/-- Everything the end of a block transfer can come to (R265, R266, R268). -/
theorem finishBlock_eq_next {m : Mode} {wb : Bool} {rn : Reg} {b written : Word} {e : BlockEnd}
    (h : finishBlock m wb rn b written e = .next t) :
    (∃ u v, e = .abort u ∧ t = (u.setReg m rn v).raise .dataAbort) ∨
    (∃ u a, e = .done u (some a) ∧ t = (if wb then u.setReg m rn written else u).setPc a) ∨
    (∃ u, e = .done u none ∧ (if wb then u.setReg m rn written else u).advance = .next t) := by
  cases e with
  | fault f => simp [finishBlock] at h
  | abort u =>
    left
    simp only [finishBlock, Host.Outcome.next.injEq] at h
    exact ⟨u, _, rfl, h.symm⟩
  | done u p =>
    right
    cases p with
    | none => right; exact ⟨u, rfl, by simpa [finishBlock] using h⟩
    | some a =>
      left
      simp only [finishBlock, Host.Outcome.next.injEq] at h
      exact ⟨u, a, rfl, h.symm⟩

/-! ### The step -/

/-- A next state of a step is the ticked next state of its core. -/
theorem step_eq_next : step s = .next t ↔ ∃ u, stepCore s = .next u ∧ t = u.tick := by
  unfold step
  cases h : stepCore s <;> simp [tickOut, eq_comm]

/-- Everything a step can do before the environment moves on (R45). -/
theorem stepCore_eq_next (h : stepCore s = .next t) :
    (∃ e, s.interrupt = some e ∧ (e = .fiq ∨ e = .irq) ∧ t = s.raise e) ∨
    (s.interrupt = none ∧ s.fetch = .abort ∧ t = s.raise .prefetchAbort) ∨
    (∃ w, s.interrupt = none ∧ s.fetch = .word w ∧ issue w s.cpsr = .undefined ∧
      t = s.raise .undefinedInstruction) ∨
    (∃ w, s.interrupt = none ∧ s.fetch = .word w ∧ issue w s.cpsr = .skip ∧ s.advance = .next t) ∨
    (∃ w i, s.interrupt = none ∧ s.fetch = .word w ∧ issue w s.cpsr = .run i ∧ exec i s = .next t) := by
  unfold stepCore at h
  cases hi : s.interrupt with
  | some e =>
    left
    simp only [hi, Host.Outcome.next.injEq] at h
    refine ⟨e, rfl, ?_, h.symm⟩
    unfold State.interrupt at hi
    split at hi
    · left; simpa using hi.symm
    · split at hi
      · right; simpa using hi.symm
      · simp at hi
  | none =>
    right
    simp only [hi] at h
    cases hf : s.fetch with
    | abort =>
      left
      simp only [hf, Host.Outcome.next.injEq] at h
      exact ⟨rfl, rfl, h.symm⟩
    | fault f => simp [hf] at h
    | refused r => simp [hf] at h
    | word w =>
      right
      simp only [hf] at h
      cases hq : issue w s.cpsr with
      | skip => right; left; exact ⟨w, rfl, rfl, hq, by simpa [hq] using h⟩
      | run i => right; right; exact ⟨w, i, rfl, rfl, hq, by simpa [hq] using h⟩
      | undefined => left; exact ⟨w, rfl, rfl, hq, by simpa [hq, eq_comm] using h⟩
      | refused why => simp [hq] at h

/-- An instruction whose condition fails only moves the pc, whichever it is (R131). -/
theorem exec_of_failed {i : Instr} {m : Mode} (hm : s.mode = some m) (hc : conditionPassed i.cond s.cpsr = false) :
    exec i s = s.advance := by
  cases i <;> exact whenPassed_of_failed hm hc

/-- Every instruction is refused in an illegal mode (R49). -/
theorem exec_of_illegal {i : Instr} (hm : s.mode = none) : exec i s = .refused .illegalMode := by
  cases i <;> exact whenPassed_of_illegal hm

end Sys2Proof.Machine
end

