-- ==== Sys2Proof/Laws/Families.lean ====
section
/-! SUPPORT. One lemma per shape of instruction that says once everything an instruction of that shape can answer with a
next state; the last theorem puts them together for all 44. -/

namespace Sys2Proof.Machine

variable {s t : State} {c : Cond}

/-- Everything a data-processing instruction with `Rd` and `Rn` can answer with a next state (R156). -/
theorem dataProcess_eq_next {st : Bool} {rd rn : Reg} {op2 : Operand2} {f : Word → Word → Bool → AluOut}
    (h : dataProcess c st rd rn op2 s f = .next t) :
    s.advance = .next t ∨ ∃ m o, s.mode = some m ∧ s.putResult m st rd o = .next t := by
  obtain ⟨m, hm, ⟨-, hb⟩ | ⟨-, ha⟩⟩ := whenPassed_eq_next h
  · right
    split at hb
    · simp at hb
    · exact ⟨m, _, hm, hb⟩
  · exact .inl ha

/-- Everything a move can answer with a next state (R156). -/
theorem moveOp_eq_next {st : Bool} {rd : Reg} {op2 : Operand2} {f : Word → Bool → AluOut}
    (h : moveOp c st rd op2 s f = .next t) :
    s.advance = .next t ∨ ∃ m o, s.mode = some m ∧ s.putResult m st rd o = .next t := by
  obtain ⟨m, hm, ⟨-, hb⟩ | ⟨-, ha⟩⟩ := whenPassed_eq_next h
  · right
    split at hb
    · simp at hb
    · exact ⟨m, _, hm, hb⟩
  · exact .inl ha

/-- Everything a comparison can answer with a next state (R156). -/
theorem compareOp_eq_next {rn : Reg} {op2 : Operand2} {f : Word → Word → Bool → AluOut}
    (h : compareOp c rn op2 s f = .next t) :
    s.advance = .next t ∨ ∃ m o, s.mode = some m ∧ (s.setAluFlags o).advance = .next t := by
  obtain ⟨m, hm, ⟨-, hb⟩ | ⟨-, ha⟩⟩ := whenPassed_eq_next h
  · right
    split at hb
    · simp at hb
    · exact ⟨m, _, hm, hb⟩
  · exact .inl ha

/-- Everything a 32-bit multiply can answer with a next state (R200). -/
theorem multiply_eq_next {st : Bool} {rd : Reg} {misuse : Bool} {f : Mode → Word}
    (h : multiply c st rd misuse s f = .next t) :
    s.advance = .next t ∨ ∃ m, s.mode = some m ∧
      (if st then ((s.setReg m rd (f m)).setMulFlags (f m)).advance else (s.setReg m rd (f m)).advance) = .next t := by
  obtain ⟨m, hm, ⟨-, hb⟩ | ⟨-, ha⟩⟩ := whenPassed_eq_next h
  · right
    split at hb
    · simp at hb
    · exact ⟨m, hm, hb⟩
  · exact .inl ha

/-- Everything a long multiply can answer with a next state (R200). -/
theorem multiplyLong_eq_next {st : Bool} {rdLo rdHi rm rs : Reg} {f : Mode → BitVec 64}
    (h : multiplyLong c st rdLo rdHi rm rs s f = .next t) :
    s.advance = .next t ∨ ∃ m lo hi, s.mode = some m ∧
      (if st then (((s.setReg m rdLo lo).setReg m rdHi hi).setMulLongFlags (f m)).advance
       else ((s.setReg m rdLo lo).setReg m rdHi hi).advance) = .next t := by
  obtain ⟨m, hm, ⟨-, hb⟩ | ⟨-, ha⟩⟩ := whenPassed_eq_next h
  · right
    split at hb
    · simp at hb
    · exact ⟨m, _, _, hm, hb⟩
  · exact .inl ha

/-- Everything a single load can answer with a next state (R224, R225, R232). -/
theorem loadSingle_eq_next {ix : Index} {up : Bool} {rd rn : Reg} {misuse : Bool} {sz : Size} {extend : Word → Word}
    {offset : Mode → Word} (h : loadSingle c ix up rd rn misuse sz extend s offset = .next t) :
    s.advance = .next t ∨ ∃ m sum v, s.mode = some m ∧
      (t = s.transferAbort m ix rn sum ∨ t = (s.writeBack m ix rn sum).setPc (wordAligned v) ∨
        ((s.setReg m rd v).writeBack m ix rn sum).advance = .next t) := by
  obtain ⟨m, hm, ⟨-, hb⟩ | ⟨-, ha⟩⟩ := whenPassed_eq_next h
  · right
    split at hb
    · simp at hb
    · dsimp only at hb
      split at hb
      · simp at hb
      · split at hb
        · exact ⟨m, _, 0, hm, .inl (by simpa [eq_comm] using hb)⟩
        · simp at hb
        · rename_i v _
          split at hb
          · exact ⟨m, _, extend v, hm, .inr (.inl (by simpa [eq_comm] using hb))⟩
          · exact ⟨m, _, extend v, hm, .inr (.inr hb)⟩
  · exact .inl ha

/-- Everything a single store can answer with a next state (R224, R225). -/
theorem storeSingle_eq_next {ix : Index} {up : Bool} {rd rn : Reg} {misuse : Bool} {sz : Size}
    {offset : Mode → Word} (h : storeSingle c ix up rd rn misuse sz s offset = .next t) :
    s.advance = .next t ∨ ∃ m sum, s.mode = some m ∧
      (t = s.transferAbort m ix rn sum ∨
        ∃ a v, a.toNat + sizeBytes sz ≤ 2 ^ 32 ∧
          ((s.poke a (sizeBytes sz) v).writeBack m ix rn sum).advance = .next t) := by
  obtain ⟨m, hm, ⟨-, hb⟩ | ⟨-, ha⟩⟩ := whenPassed_eq_next h
  · right
    split at hb
    · simp at hb
    · dsimp only at hb
      split at hb
      · simp at hb
      · split at hb
        · exact ⟨m, _, hm, .inl (by simpa [eq_comm] using hb)⟩
        · simp at hb
        · rename_i u hu
          obtain ⟨-, hadm, rfl⟩ := store_eq_done.1 hu
          exact ⟨m, _, hm, .inr ⟨_, _, admits_bound (sizeBytes_pos _) hadm, hb⟩⟩
  · exact .inl ha

/-- Everything a block transfer can answer with a next state (R265). -/
theorem blockTransfer_eq_next {bm : BlockMode} {wb : Bool} {rn : Reg} {list : BitVec 16} {misuse : Bool}
    {loop : Mode → List Reg → Word → State → BlockEnd} (h : blockTransfer c bm wb rn list misuse s loop = .next t) :
    s.advance = .next t ∨ ∃ m start written, s.mode = some m ∧
      finishBlock m wb rn (s.rd m rn) written (loop m (regsOf list) start s) = .next t := by
  obtain ⟨m, hm, ⟨-, hb⟩ | ⟨-, ha⟩⟩ := whenPassed_eq_next h
  · right
    split at hb
    · simp at hb
    · dsimp only at hb
      split at hb
      · simp at hb
      · split at hb
        · simp at hb
        · exact ⟨m, _, _, hm, hb⟩
  · exact .inl ha

/-- Everything an `MSR` can come to (R288, R289). -/
theorem msr_eq_next {m : Mode} {spsr : Bool} {fields : BitVec 4} {operand : Word}
    (h : s.msr m spsr fields operand = .next t) :
    (spsr = true ∧ ∃ v, (s.setSpsr (s.spsr.write m v)).advance = .next t ∧ m.hasSpsr = true) ∨
    (spsr = false ∧ ∃ new, new = psrMerge s.cpsr operand (cpsrMask m fields) ∧
      psrReserved new = psrReserved s.cpsr ∧ psrT new = false ∧ (psrMode new).isSome = true ∧
      (s.setCpsr new).advance = .next t) := by
  unfold State.msr at h
  cases spsr
  · right
    simp only [Bool.false_eq_true, if_false, State.msrCpsr] at h
    refine ⟨rfl, _, rfl, ?_⟩
    split at h
    · simp at h
    · rename_i h1
      split at h
      · simp at h
      · rename_i h2
        split at h
        · simp at h
        · rename_i h3
          refine ⟨by simpa using h1, by simpa using h2, ?_, h⟩
          cases hx : psrMode (psrMerge s.cpsr operand (cpsrMask m fields)) <;> simp_all
  · left
    simp only [if_true, State.msrSpsr] at h
    refine ⟨rfl, ?_⟩
    split at h
    · simp at h
    · rename_i old ho
      refine ⟨_, h, ?_⟩
      cases m <;> simp_all [Spsrs.read, Mode.hasSpsr]

/-! ### All instructions -/

/-- Everything an instruction can make of a state in mode `m`, whichever instruction it is. -/
inductive Effect (s : State) (m : Mode) : State → Prop where
  /-- Registers change, and the pc moves on. -/
  | plain (regs : Regs) (t : State) (h : (s.setRegs regs).advance = .next t) : Effect s m t
  /-- Registers and flags change, and the pc moves on. -/
  | flags (regs : Regs) (n z cf v : Bool) (draws : Nat) (t : State)
      (h : (((s.setRegs regs).setCpsr (psrSetFlags n z cf v s.cpsr)).setDraws draws).advance = .next t) : Effect s m t
  /-- Registers change, and the pc goes to a word-aligned address. -/
  | jump (regs : Regs) (a : Word) (h : isAligned a 4 = true) : Effect s m ((s.setRegs regs).setPc a)
  /-- A branch. -/
  | branch (regs : Regs) (offset : BitVec 24) : Effect s m ((s.setRegs regs).setPc (branchTarget s.pc offset))
  /-- Memory and registers change, and the pc moves on. -/
  | store (regs : Regs) (mem : Memory) (stored : List Nat) (t : State)
      (hm : s.memOk = true → (s.setMem mem stored).memOk = true)
      (h : ((s.setMem mem stored).setRegs regs).advance = .next t) : Effect s m t
  /-- An exception is taken, registers and memory having changed. -/
  | exception (regs : Regs) (mem : Memory) (stored : List Nat) (e : Exc)
      (hm : s.memOk = true → (s.setMem mem stored).memOk = true) :
      Effect s m (((s.setMem mem stored).setRegs regs).raise e)
  /-- A return from an exception. -/
  | ret (result : Word) (t : State) (h : s.exceptionReturn m result = .next t) : Effect s m t
  /-- An `MSR`. -/
  | psr (spsr : Bool) (fields : BitVec 4) (operand : Word) (t : State) (h : s.msr m spsr fields operand = .next t) :
      Effect s m t

/-- A register write is an update of the register file. -/
theorem setReg_eq_setRegs (m : Mode) (r : Reg) (v : Word) : ∃ regs, s.setReg m r v = s.setRegs regs :=
  ⟨_, State.setReg_eq s m r v⟩

/-- A base write-back is an update of the register file. -/
theorem writeBack_eq_setRegs (m : Mode) (ix : Index) (rn : Reg) (v : Word) :
    ∃ regs, s.writeBack m ix rn v = s.setRegs regs := by
  unfold State.writeBack
  split
  · exact setReg_eq_setRegs m rn v
  · exact ⟨s.regs, rfl⟩

/-- Moving on is an effect. -/
theorem Effect.of_advance {m : Mode} (h : s.advance = .next t) : Effect s m t := .plain s.regs t h

/-- What a data-processing destination comes to is an effect. -/
theorem Effect.of_putResult {m : Mode} {st : Bool} {rd : Reg} {o : AluOut} (h : s.putResult m st rd o = .next t) :
    Effect s m t := by
  obtain ⟨regs, hr⟩ := setReg_eq_setRegs (s := s) m rd o.result
  rcases putResult_eq_next h with ⟨-, -, h⟩ | ⟨-, -, ha, rfl⟩ | ⟨-, -, h⟩ | ⟨-, -, h⟩
  · exact .ret _ _ h
  · exact .jump s.regs _ ha
  · rw [hr] at h; exact .flags regs _ _ _ _ s.draws _ h
  · rw [hr] at h; exact .plain regs _ h

/-- Taking Data Abort from a single transfer is an effect. -/
theorem Effect.of_transferAbort {m : Mode} {ix : Index} {rn : Reg} {v : Word} :
    Effect s m (s.transferAbort m ix rn v) := by
  obtain ⟨u, hu, rfl | rfl⟩ := transferAbort_eq (s := s) m ix rn v
  · rw [hu]; exact .exception u.regs u.mem u.storedTo _ id
  · obtain ⟨regs, hr⟩ := writeBack_eq_setRegs (s := s) m ix rn v
    rw [hu, hr]; exact .exception regs s.mem s.storedTo _ id

/-- A word address is aligned (R31). -/
theorem isAligned_wordAligned (v : Word) : isAligned (wordAligned v) 4 = true := by
  have h : (v &&& 0xFFFFFFFC#32).toNat % 4 = 0 := by
    have h1 : (v &&& 0xFFFFFFFC#32) &&& 3#32 = 0 := by
      rw [BitVec.and_assoc]; simp
    have h2 : ((v &&& 0xFFFFFFFC#32) &&& 3#32).toNat = (v &&& 0xFFFFFFFC#32).toNat % 4 := by
      rw [BitVec.toNat_and]
      exact Nat.and_two_pow_sub_one_eq_mod _ 2
    rw [← h2, h1]; rfl
  simpa [isAligned, wordAligned] using h

/-- What a single load comes to is an effect. -/
theorem Effect.of_loadSingle {ix : Index} {up : Bool} {rd rn : Reg} {misuse : Bool} {sz : Size} {extend : Word → Word}
    {offset : Mode → Word} (h : loadSingle c ix up rd rn misuse sz extend s offset = .next t) :
    ∃ m, s.mode = some m ∧ Effect s m t := by
  rcases loadSingle_eq_next h with ha | ⟨m, sum, v, hm, rfl | rfl | ha⟩
  · obtain ⟨m, hm, -⟩ := whenPassed_eq_next h
    exact ⟨m, hm, .of_advance ha⟩
  · exact ⟨m, hm, .of_transferAbort⟩
  · obtain ⟨regs, hr⟩ := writeBack_eq_setRegs (s := s) m ix rn sum
    rw [hr]; exact ⟨m, hm, .jump regs _ (isAligned_wordAligned v)⟩
  · obtain ⟨regs, hr⟩ := setReg_eq_setRegs (s := s) m rd v
    obtain ⟨regs', hr'⟩ := writeBack_eq_setRegs (s := s.setRegs regs) m ix rn sum
    rw [hr, hr'] at ha
    exact ⟨m, hm, .plain regs' _ ha⟩

/-- What a single store comes to is an effect. -/
theorem Effect.of_storeSingle {ix : Index} {up : Bool} {rd rn : Reg} {misuse : Bool} {sz : Size}
    {offset : Mode → Word} (h : storeSingle c ix up rd rn misuse sz s offset = .next t) :
    ∃ m, s.mode = some m ∧ Effect s m t := by
  rcases storeSingle_eq_next h with ha | ⟨m, sum, hm, rfl | ⟨a, v, hb, ha⟩⟩
  · obtain ⟨m, hm, -⟩ := whenPassed_eq_next h
    exact ⟨m, hm, .of_advance ha⟩
  · exact ⟨m, hm, .of_transferAbort⟩
  · obtain ⟨regs, hr⟩ := writeBack_eq_setRegs (s := s.poke a (sizeBytes sz) v) m ix rn sum
    rw [hr] at ha
    exact ⟨m, hm, .store regs _ _ _ (memOk_poke hb) ha⟩

/-- What an `LDM` comes to is an effect. -/
theorem Effect.of_blockLoad {bm : BlockMode} {wb : Bool} {rn : Reg} {list : BitVec 16} {misuse : Bool}
    (h : blockTransfer c bm wb rn list misuse s loadWords = .next t) : ∃ m, s.mode = some m ∧ Effect s m t := by
  rcases blockTransfer_eq_next h with ha | ⟨m, start, written, hm, hf⟩
  · obtain ⟨m, hm, -⟩ := whenPassed_eq_next h
    exact ⟨m, hm, .of_advance ha⟩
  · refine ⟨m, hm, ?_⟩
    rcases finishBlock_eq_next hf with ⟨u, v, he, rfl⟩ | ⟨u, a, he, rfl⟩ | ⟨u, he, ha⟩
    · obtain ⟨regs, rfl⟩ := loadWords_frame m _ _ s u (by rw [he]; rfl)
      obtain ⟨regs', hr⟩ := setReg_eq_setRegs (s := s.setRegs regs) m rn v
      rw [hr]; exact .exception regs' s.mem s.storedTo _ id
    · obtain ⟨regs, rfl⟩ := loadWords_frame m _ _ s u (by rw [he]; rfl)
      obtain ⟨v, rfl⟩ := loadWords_pc_aligned m _ _ s _ a he
      obtain ⟨regs', hr⟩ := setReg_eq_setRegs (s := s.setRegs regs) m rn written
      rw [hr]
      cases wb
      · exact .jump regs _ (isAligned_wordAligned v)
      · exact .jump regs' _ (isAligned_wordAligned v)
    · obtain ⟨regs, rfl⟩ := loadWords_frame m _ _ s u (by rw [he]; rfl)
      obtain ⟨regs', hr⟩ := setReg_eq_setRegs (s := s.setRegs regs) m rn written
      rw [hr] at ha
      cases wb
      · exact .plain regs _ ha
      · exact .plain regs' _ ha

/-- What an `STM` comes to is an effect. -/
theorem Effect.of_blockStore {bm : BlockMode} {wb : Bool} {rn : Reg} {list : BitVec 16} {misuse : Bool}
    (h : blockTransfer c bm wb rn list misuse s storeWords = .next t) : ∃ m, s.mode = some m ∧ Effect s m t := by
  rcases blockTransfer_eq_next h with ha | ⟨m, start, written, hm, hf⟩
  · obtain ⟨m, hm, -⟩ := whenPassed_eq_next h
    exact ⟨m, hm, .of_advance ha⟩
  · refine ⟨m, hm, ?_⟩
    rcases finishBlock_eq_next hf with ⟨u, v, he, rfl⟩ | ⟨u, a, he, rfl⟩ | ⟨u, he, ha⟩
    · obtain ⟨mem, stored, rfl, hok⟩ := storeWords_frame m _ _ s u (by rw [he]; rfl)
      obtain ⟨regs, hr⟩ := setReg_eq_setRegs (s := s.setMem mem stored) m rn v
      rw [hr]; exact .exception regs mem stored _ hok
    · cases storeWords_no_pc m _ _ s u _ he
    · obtain ⟨mem, stored, rfl, hok⟩ := storeWords_frame m _ _ s u (by rw [he]; rfl)
      obtain ⟨regs, hr⟩ := setReg_eq_setRegs (s := s.setMem mem stored) m rn written
      rw [hr] at ha
      cases wb
      · exact .store s.regs mem stored _ hok ha
      · exact .store regs mem stored _ hok ha

/-- What a data-processing instruction with `Rd` and `Rn` comes to is an effect. -/
theorem Effect.of_dataProcess {st : Bool} {rd rn : Reg} {op2 : Operand2} {f : Word → Word → Bool → AluOut}
    (h : dataProcess c st rd rn op2 s f = .next t) : ∃ m, s.mode = some m ∧ Effect s m t := by
  rcases dataProcess_eq_next h with ha | ⟨m, o, hm, hp⟩
  · obtain ⟨m, hm, -⟩ := whenPassed_eq_next h
    exact ⟨m, hm, .of_advance ha⟩
  · exact ⟨m, hm, .of_putResult hp⟩

/-- What a move comes to is an effect. -/
theorem Effect.of_moveOp {st : Bool} {rd : Reg} {op2 : Operand2} {f : Word → Bool → AluOut}
    (h : moveOp c st rd op2 s f = .next t) : ∃ m, s.mode = some m ∧ Effect s m t := by
  rcases moveOp_eq_next h with ha | ⟨m, o, hm, hp⟩
  · obtain ⟨m, hm, -⟩ := whenPassed_eq_next h
    exact ⟨m, hm, .of_advance ha⟩
  · exact ⟨m, hm, .of_putResult hp⟩

/-- What a comparison comes to is an effect. -/
theorem Effect.of_compareOp {rn : Reg} {op2 : Operand2} {f : Word → Word → Bool → AluOut}
    (h : compareOp c rn op2 s f = .next t) : ∃ m, s.mode = some m ∧ Effect s m t := by
  rcases compareOp_eq_next h with ha | ⟨m, o, hm, hp⟩
  · obtain ⟨m, hm, -⟩ := whenPassed_eq_next h
    exact ⟨m, hm, .of_advance ha⟩
  · exact ⟨m, hm, .flags s.regs _ _ _ _ s.draws _ hp⟩

/-- What a 32-bit multiply comes to is an effect. -/
theorem Effect.of_multiply {st : Bool} {rd : Reg} {misuse : Bool} {f : Mode → Word}
    (h : multiply c st rd misuse s f = .next t) : ∃ m, s.mode = some m ∧ Effect s m t := by
  rcases multiply_eq_next h with ha | ⟨m, hm, hp⟩
  · obtain ⟨m, hm, -⟩ := whenPassed_eq_next h
    exact ⟨m, hm, .of_advance ha⟩
  · obtain ⟨regs, hr⟩ := setReg_eq_setRegs (s := s) m rd (f m)
    rw [hr] at hp
    cases st
    · exact ⟨m, hm, .plain regs _ hp⟩
    · exact ⟨m, hm, .flags regs _ _ _ _ _ _ hp⟩

/-- What a long multiply comes to is an effect. -/
theorem Effect.of_multiplyLong {st : Bool} {rdLo rdHi rm rs : Reg} {f : Mode → BitVec 64}
    (h : multiplyLong c st rdLo rdHi rm rs s f = .next t) : ∃ m, s.mode = some m ∧ Effect s m t := by
  rcases multiplyLong_eq_next h with ha | ⟨m, lo, hi, hm, hp⟩
  · obtain ⟨m, hm, -⟩ := whenPassed_eq_next h
    exact ⟨m, hm, .of_advance ha⟩
  · obtain ⟨regs, hr⟩ := setReg_eq_setRegs (s := s) m rdLo lo
    obtain ⟨regs', hr'⟩ := setReg_eq_setRegs (s := s.setRegs regs) m rdHi hi
    rw [hr, hr'] at hp
    cases st
    · exact ⟨m, hm, .plain regs' _ hp⟩
    · exact ⟨m, hm, .flags regs' _ _ _ _ _ _ hp⟩

/-- What an instruction that is not one of the shapes above comes to is an effect, if its body is. -/
theorem Effect.of_whenPassed {body : Mode → Out} (h : whenPassed c s body = .next t)
    (hb : ∀ m, s.mode = some m → body m = .next t → Effect s m t) : ∃ m, s.mode = some m ∧ Effect s m t := by
  obtain ⟨m, hm, ⟨-, hx⟩ | ⟨-, ha⟩⟩ := whenPassed_eq_next h
  · exact ⟨m, hm, hb m hm hx⟩
  · exact ⟨m, hm, .of_advance ha⟩

/-- Everything the 44 instructions can do. -/
theorem exec_effect {i : Instr} (h : exec i s = .next t) : ∃ m, s.mode = some m ∧ Effect s m t := by
  cases i with
  | b =>
    refine Effect.of_whenPassed h fun m _ hx => ?_
    cases hx
    exact .branch s.regs _
  | bl =>
    refine Effect.of_whenPassed h fun m _ hx => ?_
    cases hx
    rw [State.setReg_eq]
    exact .branch _ _
  | swi =>
    refine Effect.of_whenPassed h fun m _ hx => ?_
    cases hx
    exact .exception s.regs s.mem s.storedTo _ id
  | mrs =>
    refine Effect.of_whenPassed h fun m _ hx => ?_
    split at hx
    · simp at hx
    · split at hx
      · split at hx
        · simp at hx
        · rw [State.setReg_eq] at hx; exact .plain _ _ hx
      · rw [State.setReg_eq] at hx; exact .plain _ _ hx
  | msrReg =>
    refine Effect.of_whenPassed h fun m _ hx => ?_
    split at hx
    · simp at hx
    · exact .psr _ _ _ _ hx
  | msrImm => exact Effect.of_whenPassed h fun m _ hx => .psr _ _ _ _ hx
  | and | eor | sub | rsb | add | adc | sbc | rsc | orr | bic =>
    simp only [exec, execAnd, execEor, execSub, execRsb, execAdd, execAdc, execSbc, execRsc, execOrr, execBic] at h
    exact Effect.of_dataProcess h
  | mov | mvn =>
    simp only [exec, execMov, execMvn] at h
    exact Effect.of_moveOp h
  | tst | teq | cmp | cmn =>
    simp only [exec, execTst, execTeq, execCmp, execCmn] at h
    exact Effect.of_compareOp h
  | mul | mla =>
    simp only [exec, execMul, execMla] at h
    exact Effect.of_multiply h
  | umull | umlal | smull | smlal =>
    simp only [exec, execUmull, execUmlal, execSmull, execSmlal] at h
    exact Effect.of_multiplyLong h
  | ldr | ldrb | ldrh | ldrsb | ldrsh =>
    simp only [exec, execLdr, execLdrb, execLdrh, execLdrsb, execLdrsh] at h
    exact Effect.of_loadSingle h
  | str | strb | strh =>
    simp only [exec, execStr, execStrb, execStrh] at h
    exact Effect.of_storeSingle h
  | ldmia | ldmib | ldmda | ldmdb =>
    simp only [exec, execLdmia, execLdmib, execLdmda, execLdmdb] at h
    exact Effect.of_blockLoad h
  | stmia | stmib | stmda | stmdb =>
    simp only [exec, execStmia, execStmib, execStmda, execStmdb] at h
    exact Effect.of_blockStore h

end Sys2Proof.Machine
end

