-- ==== Sys2Proof/Laws/PerInstr.lean ====
section
/-! SUPPORT. Laws stated of every instruction, one lemma per constructor. `CondField`: bits 31:28 of the encoding are
the number of the condition (R90, R110). -/

namespace Sys2Proof.Laws.CondField

/-- The condition field of an encoded instruction is the number of its condition (R90). -/
def Statement (i : Instr) : Prop := field (encode i) 28 4 = i.cond.num

/-- Format DP. -/
theorem encodeDp_cond (c : Cond) (op : BitVec 4) (st : Bool) (rn rd : BitVec 4) (o : Operand2) :
    field (encodeDp c op st rn rd o) 28 4 = c.num := by
  unfold encodeDp
  rw [field_packed _ _ _ (by decide)]
  iterate 6 rw [extract_append_high _ _ _ _ (by decide)]
  exact extract_whole _

/-- Formats MUL and MULL. -/
theorem encodeMul_cond (c : Cond) (op : BitVec 4) (st : Bool) (hi lo : BitVec 4) (rs rm : Reg) :
    field (encodeMul c op st hi lo rs rm) 28 4 = c.num := by
  unfold encodeMul
  rw [field_packed _ _ _ (by decide)]
  iterate 8 rw [extract_append_high _ _ _ _ (by decide)]
  exact extract_whole _

/-- Format LS. -/
theorem encodeSingle_cond (c : Cond) (byte load : Bool) (ix : Index) (up : Bool) (rd rn : Reg) (off : Offset) :
    field (encodeSingle c byte load ix up rd rn off) 28 4 = c.num := by
  unfold encodeSingle
  rw [field_packed _ _ _ (by decide)]
  iterate 9 rw [extract_append_high _ _ _ _ (by decide)]
  exact extract_whole _

/-- Format LSH. -/
theorem encodeHalf_cond (c : Cond) (load : Bool) (sh : BitVec 2) (ix : Index) (up : Bool) (rd rn : Reg)
    (off : HalfOffset) : field (encodeHalf c load sh ix up rd rn off) 28 4 = c.num := by
  unfold encodeHalf
  rw [field_packed _ _ _ (by decide)]
  iterate 13 rw [extract_append_high _ _ _ _ (by decide)]
  exact extract_whole _

/-- Format LSM. -/
theorem encodeBlock_cond (c : Cond) (p u load wb : Bool) (rn : Reg) (list : BitVec 16) :
    field (encodeBlock c p u load wb rn list) 28 4 = c.num := by
  unfold encodeBlock
  rw [field_packed _ _ _ (by decide)]
  iterate 8 rw [extract_append_high _ _ _ _ (by decide)]
  exact extract_whole _

/-- Formats B and SWI. -/
theorem branch_cond (c : Cond) (op : BitVec 4) (x : BitVec 24) :
    field (packed (c.num ++ op ++ x)) 28 4 = c.num := by
  rw [field_packed _ _ _ (by decide)]
  iterate 2 rw [extract_append_high _ _ _ _ (by decide)]
  exact extract_whole _

theorem b (c : Cond) (offset : BitVec 24) :
    Statement (.b c offset) := branch_cond ..

theorem bl (c : Cond) (offset : BitVec 24) :
    Statement (.bl c offset) := branch_cond ..

theorem and (c : Cond) (st : Bool) (rd rn : Reg) (op2 : Operand2) :
    Statement (.and c st rd rn op2) := encodeDp_cond ..

theorem eor (c : Cond) (st : Bool) (rd rn : Reg) (op2 : Operand2) :
    Statement (.eor c st rd rn op2) := encodeDp_cond ..

theorem sub (c : Cond) (st : Bool) (rd rn : Reg) (op2 : Operand2) :
    Statement (.sub c st rd rn op2) := encodeDp_cond ..

theorem rsb (c : Cond) (st : Bool) (rd rn : Reg) (op2 : Operand2) :
    Statement (.rsb c st rd rn op2) := encodeDp_cond ..

theorem add (c : Cond) (st : Bool) (rd rn : Reg) (op2 : Operand2) :
    Statement (.add c st rd rn op2) := encodeDp_cond ..

theorem adc (c : Cond) (st : Bool) (rd rn : Reg) (op2 : Operand2) :
    Statement (.adc c st rd rn op2) := encodeDp_cond ..

theorem sbc (c : Cond) (st : Bool) (rd rn : Reg) (op2 : Operand2) :
    Statement (.sbc c st rd rn op2) := encodeDp_cond ..

theorem rsc (c : Cond) (st : Bool) (rd rn : Reg) (op2 : Operand2) :
    Statement (.rsc c st rd rn op2) := encodeDp_cond ..

theorem tst (c : Cond) (rn : Reg) (op2 : Operand2) :
    Statement (.tst c rn op2) := encodeDp_cond ..

theorem teq (c : Cond) (rn : Reg) (op2 : Operand2) :
    Statement (.teq c rn op2) := encodeDp_cond ..

theorem cmp (c : Cond) (rn : Reg) (op2 : Operand2) :
    Statement (.cmp c rn op2) := encodeDp_cond ..

theorem cmn (c : Cond) (rn : Reg) (op2 : Operand2) :
    Statement (.cmn c rn op2) := encodeDp_cond ..

theorem orr (c : Cond) (st : Bool) (rd rn : Reg) (op2 : Operand2) :
    Statement (.orr c st rd rn op2) := encodeDp_cond ..

theorem mov (c : Cond) (st : Bool) (rd : Reg) (op2 : Operand2) :
    Statement (.mov c st rd op2) := encodeDp_cond ..

theorem bic (c : Cond) (st : Bool) (rd rn : Reg) (op2 : Operand2) :
    Statement (.bic c st rd rn op2) := encodeDp_cond ..

theorem mvn (c : Cond) (st : Bool) (rd : Reg) (op2 : Operand2) :
    Statement (.mvn c st rd op2) := encodeDp_cond ..

theorem mul (c : Cond) (st : Bool) (rd rm rs : Reg) :
    Statement (.mul c st rd rm rs) := encodeMul_cond ..

theorem mla (c : Cond) (st : Bool) (rd rm rs rn : Reg) :
    Statement (.mla c st rd rm rs rn) := encodeMul_cond ..

theorem umull (c : Cond) (st : Bool) (rdLo rdHi rm rs : Reg) :
    Statement (.umull c st rdLo rdHi rm rs) := encodeMul_cond ..

theorem umlal (c : Cond) (st : Bool) (rdLo rdHi rm rs : Reg) :
    Statement (.umlal c st rdLo rdHi rm rs) := encodeMul_cond ..

theorem smull (c : Cond) (st : Bool) (rdLo rdHi rm rs : Reg) :
    Statement (.smull c st rdLo rdHi rm rs) := encodeMul_cond ..

theorem smlal (c : Cond) (st : Bool) (rdLo rdHi rm rs : Reg) :
    Statement (.smlal c st rdLo rdHi rm rs) := encodeMul_cond ..

theorem ldr (c : Cond) (ix : Index) (up : Bool) (rd rn : Reg) (off : Offset) :
    Statement (.ldr c ix up rd rn off) := encodeSingle_cond ..

theorem str (c : Cond) (ix : Index) (up : Bool) (rd rn : Reg) (off : Offset) :
    Statement (.str c ix up rd rn off) := encodeSingle_cond ..

theorem ldrb (c : Cond) (ix : Index) (up : Bool) (rd rn : Reg) (off : Offset) :
    Statement (.ldrb c ix up rd rn off) := encodeSingle_cond ..

theorem strb (c : Cond) (ix : Index) (up : Bool) (rd rn : Reg) (off : Offset) :
    Statement (.strb c ix up rd rn off) := encodeSingle_cond ..

theorem ldrh (c : Cond) (ix : Index) (up : Bool) (rd rn : Reg) (off : HalfOffset) :
    Statement (.ldrh c ix up rd rn off) := encodeHalf_cond ..

theorem strh (c : Cond) (ix : Index) (up : Bool) (rd rn : Reg) (off : HalfOffset) :
    Statement (.strh c ix up rd rn off) := encodeHalf_cond ..

theorem ldrsb (c : Cond) (ix : Index) (up : Bool) (rd rn : Reg) (off : HalfOffset) :
    Statement (.ldrsb c ix up rd rn off) := encodeHalf_cond ..

theorem ldrsh (c : Cond) (ix : Index) (up : Bool) (rd rn : Reg) (off : HalfOffset) :
    Statement (.ldrsh c ix up rd rn off) := encodeHalf_cond ..

theorem ldmia (c : Cond) (wb : Bool) (rn : Reg) (list : BitVec 16) :
    Statement (.ldmia c wb rn list) := encodeBlock_cond ..

theorem ldmib (c : Cond) (wb : Bool) (rn : Reg) (list : BitVec 16) :
    Statement (.ldmib c wb rn list) := encodeBlock_cond ..

theorem ldmda (c : Cond) (wb : Bool) (rn : Reg) (list : BitVec 16) :
    Statement (.ldmda c wb rn list) := encodeBlock_cond ..

theorem ldmdb (c : Cond) (wb : Bool) (rn : Reg) (list : BitVec 16) :
    Statement (.ldmdb c wb rn list) := encodeBlock_cond ..

theorem stmia (c : Cond) (wb : Bool) (rn : Reg) (list : BitVec 16) :
    Statement (.stmia c wb rn list) := encodeBlock_cond ..

theorem stmib (c : Cond) (wb : Bool) (rn : Reg) (list : BitVec 16) :
    Statement (.stmib c wb rn list) := encodeBlock_cond ..

theorem stmda (c : Cond) (wb : Bool) (rn : Reg) (list : BitVec 16) :
    Statement (.stmda c wb rn list) := encodeBlock_cond ..

theorem stmdb (c : Cond) (wb : Bool) (rn : Reg) (list : BitVec 16) :
    Statement (.stmdb c wb rn list) := encodeBlock_cond ..

theorem swi (c : Cond) (number : BitVec 24) :
    Statement (.swi c number) := branch_cond ..

theorem mrs (c : Cond) (spsr : Bool) (rd : Reg) :
    Statement (.mrs c spsr rd) := by
  show field (packed _) 28 4 = c.num
  rw [field_packed _ _ _ (by decide)]
  iterate 6 rw [extract_append_high _ _ _ _ (by decide)]
  exact extract_whole _

theorem msrReg (c : Cond) (spsr : Bool) (fields : BitVec 4) (rm : Reg) :
    Statement (.msrReg c spsr fields rm) := by
  show field (packed _) 28 4 = c.num
  rw [field_packed _ _ _ (by decide)]
  iterate 7 rw [extract_append_high _ _ _ _ (by decide)]
  exact extract_whole _

theorem msrImm (c : Cond) (spsr : Bool) (fields : BitVec 4) (rot : BitVec 4) (imm8 : BitVec 8) :
    Statement (.msrImm c spsr fields rot imm8) := by
  show field (packed _) 28 4 = c.num
  rw [field_packed _ _ _ (by decide)]
  iterate 7 rw [extract_append_high _ _ _ _ (by decide)]
  exact extract_whole _

end Sys2Proof.Laws.CondField
end

