-- ==== Sys2Proof/Tests/Slice0.lean ====
section
/-! SUPPORT. Tests. The expected values are the spec's: the worked examples of the instruction rules and the vectors of
spec/95_test_vectors.md, or follow by hand from the rule that is named. The last part shows for each obligation that its
hypotheses can be met. -/

namespace Sys2Proof.Tests

open Machine Claims

/-! ### Well-formedness: an ill-formed term for each check -/

/-- R153: each register of form 3 in turn is r15; forms 1 and 2 take r15. -/
theorem test_wf_register_shift :
    Instr.wellFormed (.add .al false .r15 .r1 (.shiftReg .r2 .lsl .r3)) = false ∧
    Instr.wellFormed (.add .al false .r0 .r15 (.shiftReg .r2 .lsl .r3)) = false ∧
    Instr.wellFormed (.add .al false .r0 .r1 (.shiftReg .r15 .lsl .r3)) = false ∧
    Instr.wellFormed (.add .al false .r0 .r1 (.shiftReg .r2 .lsl .r15)) = false ∧
    Instr.wellFormed (.cmp .al .r15 (.shiftReg .r2 .lsl .r3)) = false ∧
    Instr.wellFormed (.mov .al false .r15 (.shiftReg .r2 .lsl .r3)) = false ∧
    Instr.wellFormed (.add .al false .r15 .r15 (.shiftImm .r15 .lsl 0)) = true := by decide

/-- R207. -/
theorem test_wf_multiply :
    Instr.wellFormed (.mul .al false .r1 .r1 .r2) = false ∧ Instr.wellFormed (.mul .al false .r15 .r1 .r2) = false ∧
    Instr.wellFormed (.mla .al false .r0 .r1 .r2 .r15) = false ∧
    Instr.wellFormed (.umull .al false .r0 .r0 .r2 .r3) = false ∧
    Instr.wellFormed (.umlal .al false .r0 .r2 .r2 .r3) = false ∧
    Instr.wellFormed (.smull .al false .r2 .r0 .r2 .r3) = false ∧
    Instr.wellFormed (.smlal .al false .r0 .r1 .r2 .r15) = false ∧
    Instr.wellFormed (.mul .al false .r0 .r1 .r1) = true := by decide

/-- R227. -/
theorem test_wf_single :
    Instr.wellFormed (.ldr .al .preIndexed true .r0 .r15 (.imm 4)) = false ∧
    Instr.wellFormed (.str .al .postIndexed true .r1 .r1 (.imm 4)) = false ∧
    Instr.wellFormed (.ldr .al .offset true .r0 .r1 (.reg .r15 .lsl 0)) = false ∧
    Instr.wellFormed (.ldr .al .preIndexed true .r0 .r1 (.reg .r1 .lsl 0)) = false ∧
    Instr.wellFormed (.ldrb .al .offset true .r15 .r1 (.imm 4)) = false ∧
    Instr.wellFormed (.strh .al .offset true .r15 .r1 (.imm 4)) = false ∧
    Instr.wellFormed (.ldr .al .offset true .r15 .r15 (.imm 4)) = true := by decide

/-- R264. -/
theorem test_wf_block :
    Instr.wellFormed (.ldmia .al false .r1 0x0000) = false ∧ Instr.wellFormed (.ldmib .al false .r15 0x0001) = false ∧
    Instr.wellFormed (.ldmda .al true .r1 0x0003) = false ∧ Instr.wellFormed (.stmia .al false .r1 0x0000) = false ∧
    Instr.wellFormed (.stmib .al false .r15 0x0001) = false ∧ Instr.wellFormed (.stmdb .al true .r1 0x0003) = false ∧
    Instr.wellFormed (.stmda .al true .r1 0x0006) = true ∧ Instr.wellFormed (.ldmdb .al false .r1 0x0002) = true := by
  decide

/-- R287, R290. -/
theorem test_wf_psr :
    Instr.wellFormed (.mrs .al false .r15) = false ∧ Instr.wellFormed (.msrReg .al true 15 .r15) = false ∧
    Instr.wellFormed (.mrs .al true .r14) = true := by decide

/-! ### Decoding -/

/-- Formats B and SWI, bit by bit (R92, R93; E11 of 95_test_vectors.md). -/
theorem test_decode_branch :
    decode 0b11101010111111111111111111111110 = .instr (.b .al 0xFFFFFE) ∧
    decode 0b11101011000000000000000000111100 = .instr (.bl .al 0x3C) ∧
    decode 0b11101111000100100011010001010110 = .instr (.swi .al 0x123456) := by decide

/-- Format DP in its three forms, bit by bit (R94, R95). -/
theorem test_decode_data_processing_forms :
    decode 0b11100010000100010000010011111111 = .instr (.and .al true .r0 .r1 (.imm 4 0xFF)) ∧
    decode 0b11100001100100010000001000000010 = .instr (.orr .al true .r0 .r1 (.shiftImm .r2 .lsl 4)) ∧
    decode 0b11100001101100000000001101010001 = .instr (.mov .al true .r0 (.shiftReg .r1 .asr .r3)) := by decide

/-- The worked examples of R160 to R167. -/
theorem test_decode_arithmetic :
    decode 0xE0010002 = .instr (.and .al false .r0 .r1 (.shiftImm .r2 .lsl 0)) ∧
    decode 0xE0310001 = .instr (.eor .al true .r0 .r1 (.shiftImm .r1 .lsl 0)) ∧
    decode 0xE2511001 = .instr (.sub .al true .r1 .r1 (.imm 0 1)) ∧
    decode 0xE2610000 = .instr (.rsb .al false .r0 .r1 (.imm 0 0)) ∧
    decode 0xE28F0000 = .instr (.add .al false .r0 .r15 (.imm 0 0)) ∧
    decode 0xE0B10002 = .instr (.adc .al true .r0 .r1 (.shiftImm .r2 .lsl 0)) ∧
    decode 0xE0D10002 = .instr (.sbc .al true .r0 .r1 (.shiftImm .r2 .lsl 0)) ∧
    decode 0xE2F10005 = .instr (.rsc .al true .r0 .r1 (.imm 0 5)) := by decide

/-- The worked examples of R168 to R175. -/
theorem test_decode_comparisons_and_moves :
    decode 0xE3100102 = .instr (.tst .al .r0 (.imm 1 2)) ∧
    decode 0xE1300001 = .instr (.teq .al .r0 (.shiftImm .r1 .lsl 0)) ∧
    decode 0x1350000A = .instr (.cmp .ne .r0 (.imm 0 10)) ∧
    decode 0xE3700001 = .instr (.cmn .al .r0 (.imm 0 1)) ∧
    decode 0xE1810002 = .instr (.orr .al false .r0 .r1 (.shiftImm .r2 .lsl 0)) ∧
    decode 0x03A00001 = .instr (.mov .eq false .r0 (.imm 0 1)) ∧
    decode 0xE3C100FF = .instr (.bic .al false .r0 .r1 (.imm 0 0xFF)) ∧
    decode 0xE1F00001 = .instr (.mvn .al true .r0 (.shiftImm .r1 .lsl 0)) := by decide

/-- Formats MUL and MULL, the first bit by bit (R96, R97, R201 to R206). -/
theorem test_decode_multiply :
    decode 0b11100000000100000000001010010001 = .instr (.mul .al true .r0 .r1 .r2) ∧
    decode 0xE0203291 = .instr (.mla .al false .r0 .r1 .r2 .r3) ∧
    decode 0xE0810392 = .instr (.umull .al false .r0 .r1 .r2 .r3) ∧
    decode 0xE0A10392 = .instr (.umlal .al false .r0 .r1 .r2 .r3) ∧
    decode 0xE0C10392 = .instr (.smull .al false .r0 .r1 .r2 .r3) ∧
    decode 0xE0E10392 = .instr (.smlal .al false .r0 .r1 .r2 .r3) := by decide

/-- Format LS, the first bit by bit (R98, R226, R230 to R234). -/
theorem test_decode_single :
    decode 0b11100111100100010000000100000010 = .instr (.ldr .al .offset true .r0 .r1 (.reg .r2 .lsl 2)) ∧
    decode 0xE5110008 = .instr (.ldr .al .offset false .r0 .r1 (.imm 8)) ∧
    decode 0xE5A1000C = .instr (.str .al .preIndexed true .r0 .r1 (.imm 12)) ∧
    decode 0xE481000C = .instr (.str .al .postIndexed true .r0 .r1 (.imm 12)) ∧
    decode 0x05D10000 = .instr (.ldrb .eq .offset true .r0 .r1 (.imm 0)) ∧
    decode 0xE5C10000 = .instr (.strb .al .offset true .r0 .r1 (.imm 0)) := by decide

/-- Format LSH, the first bit by bit (R99, R235 to R238). -/
theorem test_decode_half :
    decode 0b11100001110100010000000010110010 = .instr (.ldrh .al .offset true .r0 .r1 (.imm 2)) ∧
    decode 0xE19100B2 = .instr (.ldrh .al .offset true .r0 .r1 (.reg .r2)) ∧
    decode 0xE0D100B2 = .instr (.ldrh .al .postIndexed true .r0 .r1 (.imm 2)) ∧
    decode 0xE1C100B2 = .instr (.strh .al .offset true .r0 .r1 (.imm 2)) ∧
    decode 0xE1D100D1 = .instr (.ldrsb .al .offset true .r0 .r1 (.imm 1)) ∧
    decode 0xE1D100F2 = .instr (.ldrsh .al .offset true .r0 .r1 (.imm 2)) := by decide

/-- Format LSM, the first bit by bit (R100, R269). -/
theorem test_decode_block :
    decode 0b11101000101110100000000000010011 = .instr (.ldmia .al true .r10 0x0013) ∧
    decode 0xE99A0013 = .instr (.ldmib .al false .r10 0x0013) ∧
    decode 0xE81A0013 = .instr (.ldmda .al false .r10 0x0013) ∧
    decode 0xE91A0013 = .instr (.ldmdb .al false .r10 0x0013) ∧
    decode 0xE88A0013 = .instr (.stmia .al false .r10 0x0013) ∧
    decode 0xE98A0013 = .instr (.stmib .al false .r10 0x0013) ∧
    decode 0xE80A0013 = .instr (.stmda .al false .r10 0x0013) ∧
    decode 0xE92A0013 = .instr (.stmdb .al true .r10 0x0013) := by decide

/-- Formats MRS, MSRR and MSRI, the first bit by bit (R101, R102, R287 to R291). -/
theorem test_decode_psr :
    decode 0b11100001010011110000000000000000 = .instr (.mrs .al true .r0) ∧
    decode 0xE121F000 = .instr (.msrReg .al false 1 .r0) ∧
    decode 0xE16FF000 = .instr (.msrReg .al true 15 .r0) ∧
    decode 0xE328F20F = .instr (.msrImm .al false 8 2 0x0F) := by decide

/-- R114: MOV with a bit of its SBZ field set, MRS with a bit of its SBO field clear. R116, R117. -/
theorem test_decode_refused :
    decode 0xE1A10002 = .refused .shouldBeBits ∧ decode 0xE10E0000 = .refused .shouldBeBits ∧
    decode 0xF0810002 = .refused .conditionNever ∧ decode 0xE7F000F0 = .undefined := by decide

/-- The host's two functions, on the word of `ADD r0,r1,r2` (R164) and of a row's word with a condition that fails. -/
theorem test_host_functions :
    decodeTableWord 32 0xE0810002 = some (.add .al false .r0 .r1 (.shiftImm .r2 .lsl 0)) ∧
    decodeTableWord 32 0x0E000010 = none ∧
    step (State.reset.withFetchWord 32 0xE0810002) =
      exec (.add .al false .r0 .r1 (.shiftImm .r2 .lsl 0)) (State.reset.withFetchWord 32 0xE0810002) := by
  refine ⟨by decide, by decide, rfl⟩

/-! ### One step of each instruction -/

/-- A state at 0x8000 with the given `cpsr` and r0 to r3. -/
def start (cpsr r0 r1 r2 r3 : Word) : State :=
  { State.reset with pc := 0x8000, cpsr := cpsr, regs := { Regs.zero with r0 := r0, r1 := r1, r2 := r2, r3 := r3 } }

/-- Whether an outcome is a next state. -/
def goes (o : Out) : Bool :=
  match o with
  | .next _ => true
  | _ => false

/-- A view of the next state when the word `w` is run. -/
def runs {α : Type} (s : State) (w : Nat) (view : State → α) : Option α :=
  match step (s.withFetchWord 32 w) with
  | .next t => some (view t)
  | _ => none

/-- r0, the top four bits of the `cpsr`, and the pc. -/
def r0Flags (t : State) : Word × BitVec 4 × Word := (t.regs.r0, t.cpsr.extractLsb' 28 4, t.pc)

/-- r0 and r1. -/
def r0r1 (t : State) : Word × Word := (t.regs.r0, t.regs.r1)

theorem test_b : runs (start 0x10 0 0 0 0) 0xEAFFFFFE State.pc = some 0x8000 := by decide

theorem test_bl :
    runs { start 0x10 0 0 0 0 with pc := 0x8008 } 0xEB00003C (fun t => (t.pc, t.regs.r14)) = some (0x8100, 0x800C) := by
  decide

theorem test_and :
    runs (start 0x10000010 0 0x12345678 0 0) 0xE21104FF r0Flags = some (0x12000000, 0b0011, 0x8004) := by decide

theorem test_eor :
    runs (start 0xB0000010 0 0xDEADBEEF 0 0) 0xE0310001 r0Flags = some (0, 0b0111, 0x8004) := by decide

theorem test_sub :
    runs (start 0x10 0 0x80000000 1 0) 0xE0510002 r0Flags = some (0x7FFFFFFF, 0b0011, 0x8004) := by decide

theorem test_sub_borrow :
    runs (start 0x10 0 3 5 0) 0xE0510002 r0Flags = some (0xFFFFFFFE, 0b1000, 0x8004) := by decide

theorem test_rsb :
    runs (start 0x10 0 0x80000000 0 0) 0xE2710000 r0Flags = some (0x80000000, 0b1001, 0x8004) := by decide

theorem test_add :
    runs (start 0x10 0 0x80000000 0x80000000 0) 0xE0910002 r0Flags = some (0, 0b0111, 0x8004) := by decide

theorem test_add_reads_pc : runs (start 0x10 0 0 0 0) 0xE28F0004 r0Flags = some (0x800C, 0, 0x8004) := by decide

theorem test_adc :
    runs (start 0x20000010 0 0xFFFFFFFF 0xFFFFFFFF 0) 0xE0B10002 r0Flags = some (0xFFFFFFFF, 0b1010, 0x8004) := by
  decide

theorem test_sbc :
    runs (start 0x10 0 0x80000000 0 0) 0xE0D10002 r0Flags = some (0x7FFFFFFF, 0b0011, 0x8004) := by decide

theorem test_rsc : runs (start 0x10 0 0 0 0) 0xE2F10005 r0Flags = some (4, 0b0010, 0x8004) := by decide

theorem test_tst :
    runs (start 0x10000010 0xFFFFFFFF 0 0 0) 0xE3100102 r0Flags = some (0xFFFFFFFF, 0b1011, 0x8004) := by decide

theorem test_teq :
    runs (start 0x30000010 0x80000000 1 0 0) 0xE1300001 r0Flags = some (0x80000000, 0b1011, 0x8004) := by decide

theorem test_cmp :
    runs (start 0x10 0x80000000 1 0 0) 0xE1500001 r0Flags = some (0x80000000, 0b0011, 0x8004) := by decide

theorem test_cmn :
    runs (start 0x10 0x7FFFFFFF 0 0 0) 0xE3700001 r0Flags = some (0x7FFFFFFF, 0b1001, 0x8004) := by decide

theorem test_orr :
    runs (start 0x10000010 0 0 0x10000001 0) 0xE1910202 r0Flags = some (0x10, 0b0011, 0x8004) := by decide

theorem test_mov :
    runs (start 0x10000010 0 0x40000003 0 0) 0xE1B00101 r0Flags = some (0xC, 0b0011, 0x8004) := by decide

theorem test_bic :
    runs (start 0x10 0 0x12345678 0 0) 0xE3C100FF r0Flags = some (0x12345600, 0, 0x8004) := by decide

theorem test_mvn :
    runs (start 0x30000010 5 0xFFFFFFFF 0 0) 0xE1F00001 r0Flags = some (0, 0b0111, 0x8004) := by decide

/-- R316, R157: `MOVS pc, lr` in Supervisor mode. -/
theorem test_exception_return :
    runs { start 0xD3 0 0 0 0 with
           regs := { Regs.zero with r14_svc := 0x9004 }, spsr := { Spsrs.zero with svc := 0x60000010 } }
      0xE1B0F00E (fun t => (t.pc, t.cpsr)) = some (0x9004, 0x60000010) := by decide

/-- R131: `ADDNE` with Z = 1. -/
theorem test_condition_fails : runs (start 0x40000010 7 1 2 0) 0x10810002 r0Flags = some (7, 0b0100, 0x8004) := by
  decide

theorem test_mul : runs (start 0x10 0 7 6 0) 0xE0000291 r0Flags = some (42, 0, 0x8004) := by decide

/-- R208: `MULS` of 0x10000 and 0x10000 gives 0, N = 0, Z = 1, V as it was; one bit is drawn. -/
theorem test_mul_flags :
    runs (start 0x90000010 5 0x10000 0x10000 0) 0xE0100291
      (fun t => (t.regs.r0, t.draws)) = some (0, 1) := by decide

theorem test_mla : runs (start 0x10 0 7 6 0xFFFFFFFF) 0xE0203291 r0Flags = some (41, 0, 0x8004) := by decide

theorem test_umull : runs (start 0x10 0 0 0xFFFFFFFF 0xFFFFFFFF) 0xE0810392 r0r1 = some (1, 0xFFFFFFFE) := by
  decide

theorem test_umlal : runs (start 0x10 0xFFFFFFFF 0 1 1) 0xE0A10392 r0r1 = some (0, 1) := by decide

theorem test_smull : runs (start 0x10 0 0 0xFFFFFFFF 1) 0xE0C10392 r0r1 = some (0xFFFFFFFF, 0xFFFFFFFF) := by
  decide

theorem test_smlal : runs (start 0x10 1 0 0xFFFFFFFF 2) 0xE0E10392 r0r1 = some (0xFFFFFFFF, 0xFFFFFFFF) := by
  decide

/-- `start` in User mode with r1 = 0x1000 and four words from 0x1000 up: 0x00008001, 0x80018011, 0x22, 0xCAFEF00D. -/
def loaded (r0 : Word) : State :=
  let words := [0x00008001, 0x80018011, 0x22, 0xCAFEF00D]
  { start 0x10 r0 0x1000 3 0 with
    mem := Memory.writeBytes [] 0x1000 16 fun k => laneOf (words.getD (k / 4) 0) (k % 4) }

theorem test_ldr : runs (loaded 0) 0xE7910102 r0r1 = some (0xCAFEF00D, 0x1000) := by decide

/-- R223, R224: `LDR r0,[r1],#4` (P = 0, W = 0) reads at r1, then adds. -/
theorem test_ldr_post_indexed : runs (loaded 0) 0xE4910004 r0r1 = some (0x00008001, 0x1004) := by decide

theorem test_ldrb : runs (loaded 0) 0xE5D10001 r0r1 = some (0x80, 0x1000) := by decide
theorem test_ldrh : runs (loaded 0) 0xE1D100B6 r0r1 = some (0x8001, 0x1000) := by decide
theorem test_ldrsb : runs (loaded 0) 0xE1D100D1 r0r1 = some (0xFFFFFF80, 0x1000) := by decide
theorem test_ldrsh : runs (loaded 0) 0xE1D100F6 r0r1 = some (0xFFFF8001, 0x1000) := by decide

/-- r1 and the four bytes from an address up. -/
def r1Bytes (a : Nat) (t : State) : Word × List Byte := (t.regs.r1, (List.range 4).map fun k => t.mem.read (a + k))

/-- E8 of 95_test_vectors.md. -/
theorem test_str :
    runs (start 0x10 5 0x200 0 0) 0xE5A1000C (r1Bytes 0x20C) = some (0x20C, [5, 0, 0, 0]) := by decide

theorem test_strb :
    runs (start 0x10 0x12345678 0x1002 0 0) 0xE5C10000 (r1Bytes 0x1000) = some (0x1002, [0, 0, 0x78, 0]) := by
  decide

theorem test_strh :
    runs (start 0x10 0x12345678 0x1000 0 0) 0xE1C100B2 (r1Bytes 0x1000) = some (0x1000, [0, 0, 0x78, 0x56]) := by
  decide

/-- R62: the halfword store in big-endian order. -/
theorem test_strh_big_endian :
    runs { start 0x10 0x12345678 0x1000 0 0 with params := { Params.default with bigEndian := true } } 0xE1C100B2
      (r1Bytes 0x1000) = some (0x1000, [0, 0, 0x56, 0x78]) := by decide

/-- User mode, r10 at 0x1000, r0, r1, r4 = 0xA0, 0xA1, 0xA4, and each word of 0xFF4 to 0x100C holding its own address
(E10 of 95_test_vectors.md). -/
def figure : State :=
  { start 0x10 0xA0 0xA1 0 0 with
    regs := { Regs.zero with r0 := 0xA0, r1 := 0xA1, r4 := 0xA4, r10 := 0x1000 }
    mem := Memory.writeBytes [] 0xFF4 28 fun k => laneOf (BitVec.ofNat 32 (0xFF4 + k / 4 * 4)) (k % 4) }

/-- r0, r1, r4 and r10. -/
def figureRegs (t : State) : Word × Word × Word × Word := (t.regs.r0, t.regs.r1, t.regs.r4, t.regs.r10)

/-- The words of 0xFF4 to 0x100C, and r10. -/
def figureWords (t : State) : List Word × Word :=
  ((List.range 7).map fun k => t.peek (BitVec.ofNat 32 (0xFF4 + 4 * k)) 4, t.regs.r10)

theorem test_ldmia : runs figure 0xE8BA0013 figureRegs = some (0x1000, 0x1004, 0x1008, 0x100C) := by decide
theorem test_ldmib : runs figure 0xE9BA0013 figureRegs = some (0x1004, 0x1008, 0x100C, 0x100C) := by decide
theorem test_ldmda : runs figure 0xE83A0013 figureRegs = some (0xFF8, 0xFFC, 0x1000, 0xFF4) := by decide
theorem test_ldmdb : runs figure 0xE91A0013 figureRegs = some (0xFF4, 0xFF8, 0xFFC, 0x1000) := by decide

theorem test_stmia :
    runs figure 0xE8AA0013 figureWords = some ([0xFF4, 0xFF8, 0xFFC, 0xA0, 0xA1, 0xA4, 0x100C], 0x100C) := by
  decide

theorem test_stmib :
    runs figure 0xE9AA0013 figureWords = some ([0xFF4, 0xFF8, 0xFFC, 0x1000, 0xA0, 0xA1, 0xA4], 0x100C) := by
  decide

theorem test_stmda :
    runs figure 0xE80A0013 figureWords = some ([0xFF4, 0xA0, 0xA1, 0xA4, 0x1004, 0x1008, 0x100C], 0x1000) := by
  decide

theorem test_stmdb :
    runs figure 0xE92A0013 figureWords = some ([0xA0, 0xA1, 0xA4, 0x1000, 0x1004, 0x1008, 0x100C], 0xFF4) := by
  decide

/-- The worked example of R280. -/
theorem test_swi :
    runs { start 0x60000010 0 0 0 0 with pc := 0x8010 } 0xEF123456
      (fun t => (t.regs.r14_svc, t.spsr.svc, t.cpsr, t.pc)) = some (0x8014, 0x60000010, 0x60000093, 0x8) := by
  decide

theorem test_mrs : runs (start 0x800000D3 0 0 0 0) 0xE10F0000 r0Flags = some (0x800000D3, 8, 0x8004) := by decide

theorem test_msr_register : runs (start 0xD3 0x1F 0 0 0) 0xE121F000 State.cpsr = some 0x1F := by decide

theorem test_msr_immediate : runs (start 0x10 0 0 0 0) 0xE328F20F State.cpsr = some 0xF0000010 := by decide

/-- R291: `MSR CPSR_c, #0xD3` in User mode does nothing. -/
theorem test_msr_user : runs (start 0x10 0 0 0 0) 0xE321F0D3 State.cpsr = some 0x10 := by decide

/-- R117, R307: a word of the UNDEFINED space. -/
theorem test_undefined :
    runs (start 0x60000010 0 0 0 0) 0xE7F000F0 (fun t => (t.regs.r14_und, t.spsr.und, t.cpsr, t.pc)) =
      some (0x8004, 0x60000010, 0x6000009B, 0x4) := by decide

/-! ### The hypotheses of the obligations can be met -/

/-- `goes`, of a step. -/
abbrev steps (s : State) : Prop := goes (step s) = true

/-- A state whose next step fetches `w`. -/
def fetching (cpsr : Word) (w : Nat) : State := (start cpsr 0 0 0 0).withFetchWord 32 w

/-- A state whose accesses of a kind and width abort from `first` up. -/
def aborting (kind : AccessKind) (sz : Size) (first : Word) (s : State) : State :=
  { s with env := { Env.quiet with aborts := [⟨kind, sz, first, 0xFFFFFFFF, true, true⟩] } }

theorem witness_EncodeOfDecode : decode 0xE0810002 = .instr (.add .al false .r0 .r1 (.shiftImm .r2 .lsl 0)) := by decide

/-- The three clauses: a row that matches with its SBZ bits clear and set, and a word that no row matches. -/
theorem witness_OpcodeTableRows :
    (∃ r ∈ opcodeTable, r.Matches 0xE1A00002 ∧ (0xE1A00002 : Word) &&& r.sbz = 0) ∧
    (∃ r ∈ opcodeTable, r.Matches 0xE1A10002 ∧ (0xE1A10002 : Word) &&& r.sbz ≠ 0) ∧
    (∀ r ∈ opcodeTable, ¬ r.Matches 0xE7F000F0) ∧
    field 0xE1A00002 28 4 ≠ 0b1111#4 ∧ field 0xE1A10002 28 4 ≠ 0b1111#4 ∧ field 0xE7F000F0 28 4 ≠ 0b1111#4 := by decide

theorem witness_UndefinedSpace :
    Fetches (fetching 0x10 0xE7F000F0) 0xE7F000F0 ∧ condOf 0xE7F000F0 = some .al ∧
    conditionPassed .al (fetching 0x10 0xE7F000F0).cpsr = true ∧ field 0xE7F000F0 25 3 = 0b011#3 ∧
    bitAt 0xE7F000F0 4 = true ∧ decode 0xE7F000F0 = .undefined ∧ issue 0xE7F000F0 0x10 = .undefined := by decide

theorem witness_NeverCondition :
    Fetches (fetching 0x10 0xF7F000F0) 0xF7F000F0 ∧ field 0xF7F000F0 28 4 = 0b1111#4 := by decide

theorem witness_UnallocatedRefused_step :
    Fetches (fetching 0x10 0xE1000091) 0xE1000091 ∧ condOf 0xE1000091 = some .al ∧
    conditionPassed .al (fetching 0x10 0xE1000091).cpsr = true ∧ decode 0xE1000091 = .refused .swap := by decide

theorem witness_UnallocatedRefused_any :
    field 0xEE000000 28 4 ≠ 0b1111#4 ∧ (∀ r ∈ opcodeTable, ¬ r.Matches 0xEE000000) ∧
    ¬ (field 0xEE000000 25 3 = 0b011#3 ∧ bitAt 0xEE000000 4 = true) := by decide

/-- One word for each row of the table of R118. -/
theorem witness_UnallocatedRefused_rows :
    (0xE1000091 : Word) &&& 0x0FB000F0 = 0x01000090 ∧ (0xE12FFF1E : Word) &&& 0x0FF000F0 = 0x01200010 ∧
    ((0xE4B10004 : Word) &&& 0x0D200000 = 0x04200000 ∧ ¬ ((0xE4B10004 : Word) &&& 0x02000010 = 0x02000010)) ∧
    ((0xE0F100B2 : Word) &&& 0x0F200090 = 0x00200090 ∧ (0xE0F100B2 : Word) &&& 0x00000060 ≠ 0) ∧
    ((0xE1C100D0 : Word) &&& 0x0E1000D0 = 0x000000D0 ∧ (0xE1C100D0 : Word) &&& 0x01200000 ≠ 0x00200000) ∧
    (0xE8FD8000 : Word) &&& 0x0E400000 = 0x08400000 ∧ (0xE0400291 : Word) &&& 0x0FC000F0 = 0x00400090 ∧
    (0xED900000 : Word) &&& 0x0E000000 = 0x0C000000 ∧ (0xEE000010 : Word) &&& 0x0F000000 = 0x0E000000 := by decide

/-- A word of the miscellaneous space. -/
theorem witness_UnallocatedRefused_miscellaneous :
    (0xE1000050 : Word) &&& 0x0D900000 = 0x01000000 ∧ (0xE1000050 : Word) &&& 0x02000090 ≠ 0x00000090 ∧
    (0xE1000050 : Word) &&& 0x0FF000F0 ≠ 0x01200010 ∧ (0xE1000050 : Word) &&& 0x0FB000F0 ≠ 0x01000000 ∧
    (0xE1000050 : Word) &&& 0x0FB000F0 ≠ 0x01200000 ∧ (0xE1000050 : Word) &&& 0x0FB00000 ≠ 0x03200000 := by decide

theorem witness_StepRunsDecoded :
    let s := fetching 0x10 0xE0810002
    (s.env.fiqLine = false ∨ psrF s.cpsr = true) ∧ (s.env.irqLine = false ∨ psrI s.cpsr = true) ∧
    psrT s.cpsr = false ∧ psrJ s.cpsr = false ∧ s.mode ≠ none ∧ Accessible s .fetch s.pc .word ∧
    (∀ k < 4, s.pc.toNat + k ∉ s.storedTo) ∧
    decodeBytes s.params.bigEndian ((List.range 4).map fun k => s.mem.read (s.pc.toNat + k)) =
      .instr (.add .al false .r0 .r1 (.shiftImm .r2 .lsl 0)) := by decide

/-- The three clauses; the word of the first is of the UNDEFINED space and its condition is NE with Z = 1. -/
theorem witness_FailedCondition :
    (Fetches (fetching 0x40000010 0x17F000F0) 0x17F000F0 ∧ condOf 0x17F000F0 = some .ne ∧
      conditionPassed .ne (fetching 0x40000010 0x17F000F0).cpsr = false ∧ Room (fetching 0x40000010 0x17F000F0)) ∧
    (let s : State := { start 0x10 0 0 0 0 with pc := 0xFFFFFFF8 };
      s.mode = some .user ∧ conditionPassed (Instr.cond (.b .eq 0)) s.cpsr = false ∧ Room s) ∧
    (Fetches (fetching 0x10 0xFFFFFFFF) 0xFFFFFFFF ∧ field 0xFFFFFFFF 28 4 = 0b1111#4) := by decide

theorem witness_ComparisonOrderings :
    Passes (start 0x10 0 0 0 0) .user .al ∧ Room (start 0x10 0 0 0 0) ∧
    (Operand2.shiftReg .r1 .ror .r2).pcMisuse [.r0] = false := by decide

theorem witness_BranchTargets : Passes { start 0x40000010 0 0 0 0 with pc := 0xFFFFFFFC } .user .eq := by decide

theorem witness_LogicalResults :
    Passes (start 0x10 0 0 0 0) .user .al ∧ Room (start 0x10 0 0 0 0) ∧ Reg.r14 ≠ .r15 ∧
    (Operand2.shiftReg .r1 .ror .r2).pcMisuse (Logical.regs .mov .r14 .r15) = false ∧
    (Operand2.shiftImm .r15 .ror 0).pcMisuse (Logical.regs .and .r14 .r15) = false := by decide

theorem witness_ArithmeticResults :
    Passes (start 0xD3 0 0 0 0) .supervisor .al ∧ Room (start 0xD3 0 0 0 0) ∧ Reg.r0 ≠ .r15 ∧
    (Operand2.shiftImm .r15 .lsl 0).pcMisuse [.r0, .r15] = false := by decide

theorem witness_ComparisonFlags :
    Passes (start 0xD3 0 0 0 0) .supervisor .al ∧ Room (start 0xD3 0 0 0 0) ∧
    (Operand2.imm 15 255).pcMisuse [.r15] = false := by decide

/-- `MOV r15, r0` with r0 aligned and not, with `Result` spelt out; and a `CMP` word with an `Rd` field. -/
theorem witness_ResultJump :
    let aligned := start 0x10 0x9000 0 0 0
    let odd := start 0x10 0x9002 0 0 0
    let o : Operand2 := .shiftImm .r0 .lsl 0
    Passes aligned .user .al ∧ Passes odd .user .al ∧ o.pcMisuse (Dest.regs (.logical .mov) .r15 .r0) = false ∧
    (∀ i < 32, (0x9000 : Word).getLsbD i =
      Logical.bit .mov ((aligned.rd .user .r0).getLsbD i) ((aligned.operand2 .user o).value.getLsbD i)) ∧
    (0x9000 : Word).extractLsb' 0 2 = 0 ∧
    (∀ i < 32, (0x9002 : Word).getLsbD i =
      Logical.bit .mov ((odd.rd .user .r0).getLsbD i) ((odd.operand2 .user o).value.getLsbD i)) ∧
    (0x9002 : Word).extractLsb' 0 2 ≠ 0 ∧
    (field 0xE1501001 28 4 ≠ 0b1111#4 ∧ (0xE1501001 : Word) &&& 0x0D900000 = 0x01100000 ∧
      (0xE1501001 : Word) &&& 0x02000090 ≠ 0x00000090 ∧ field 0xE1501001 12 4 ≠ 0) := by decide

/-- `SUBS r15, r14, #4` in System mode, and in Supervisor mode with an `spsr` that passes and one that does not. -/
theorem witness_ExceptionReturn :
    let s := { start 0xD3 0 0 0 0 with
      regs := { Regs.zero with r14_svc := 0x9004 }, spsr := { Spsrs.zero with svc := 0x60000010 } }
    let o : Operand2 := .imm 0 4
    Passes (start 0xDF 0 0 0 0) .system .al ∧ psrJ (start 0xDF 0 0 0 0).cpsr = false ∧
    Passes s .supervisor .al ∧ psrJ s.cpsr = false ∧ o.pcMisuse (Dest.regs (.arith .sub) .r15 .r14) = false ∧
    ((0x9000 : Word).toNat : Int) =
      Arith.exact .sub (s.rd .supervisor .r14).toNat (s.operand2 .supervisor o).value.toNat (psrC s.cpsr) % 2 ^ 32 ∧
    s.spsr.read .supervisor = some 0x60000010 ∧
    (psrT 0x60000010 = false ∧ psrJ 0x60000010 = false ∧ psrMode 0x60000010 ≠ none ∧
      (0x60000010 : Word).getLsbD 27 = s.cpsr.getLsbD 27 ∧
      (0x60000010 : Word).extractLsb' 25 2 = s.cpsr.extractLsb' 25 2 ∧
      (0x60000010 : Word).extractLsb' 8 16 = s.cpsr.extractLsb' 8 16 ∧ (0x9000 : Word).extractLsb' 0 2 = 0) ∧
    psrMode 0 = none := by decide

/-- Each way of putting r15 into a register-controlled shift. -/
theorem witness_RegisterShifts :
    Passes (start 0xD3 0 0 0 0) .supervisor .al ∧ Reg.r14 ≠ .r15 ∧
    Reg.r15 ∈ Dest.regs (.logical .mvn) .r15 .r0 ∧ Reg.r15 ∈ Dest.regs (.arith .add) .r0 .r15 := by decide

theorem witness_RegisterBanks :
    Reg.index .r7 ≤ 7 ∧ (8 ≤ Reg.index .r8 ∧ Reg.index .r12 ≤ 12) ∧ Mode.system ≠ .fiq ∧
    physReg .r14 .abort = some .r14_abt := by decide

theorem witness_ShortMultiplies :
    Passes (start 0xD3 0 0 0 0) .supervisor .al ∧ Room (start 0xD3 0 0 0 0) ∧
    (Reg.r0 ≠ .r15 ∧ Reg.r1 ≠ .r15 ∧ Reg.r14 ≠ .r15 ∧ Reg.r0 ≠ .r1) := by decide

theorem witness_LongMultiplies :
    Passes (start 0xD3 0 0 0 0) .supervisor .al ∧ Room (start 0xD3 0 0 0 0) ∧
    (Reg.r0 ≠ .r15 ∧ Reg.r1 ≠ .r15 ∧ Reg.r2 ≠ .r15 ∧ Reg.r1 ≠ .r0 ∧ Reg.r1 ≠ .r2 ∧ Reg.r0 ≠ .r2) := by decide

/-- Each clause, with operands that only it refuses. -/
theorem witness_MultiplyRestrictions :
    Passes (start 0xD3 0 0 0 0) .supervisor .al ∧ mulMisuse .r1 .r1 .r2 none = true ∧
    mulMisuse .r0 .r1 .r2 (some .r15) = true ∧ mulLongMisuse .r0 .r0 .r2 .r3 = true ∧
    mulLongMisuse .r0 .r2 .r2 .r3 = true ∧ mulLongMisuse .r2 .r0 .r2 .r3 = true := by decide

/-- `LDR r0,[r1,#4]!` at the last word of the address space. -/
theorem witness_LoadWord :
    let s := start 0x10 0 0xFFFFFFF8 0 0
    Passes s .user .al ∧ Room s ∧ Reg.r0 ≠ .r15 ∧ transferMisuse .preIndexed .r0 .r1 (Offset.reg? (.imm 4)) = false ∧
    Accessible s .read (accessAddr .preIndexed (s.rd .user .r1) (sumOf s .user true .r1 (.imm 4))) .word := by decide

/-- The byte form at the last byte, the halfword forms at the last halfword of the address space. -/
theorem witness_LoadNarrow :
    let s := start 0x10 0 0xFFFFFFFC 3 2
    Passes s .user .al ∧ Room s ∧ narrowTransferMisuse .offset .r0 .r1 (some .r2) = false ∧
    Accessible s .read (accessAddr .offset (s.rd .user .r1) (sumOf s .user true .r1 (.reg .r2 .lsl 0))) .byte ∧
    Accessible s .read (accessAddr .offset (s.rd .user .r1) (halfSumOf s .user true .r1 (.reg .r3))) .half ∧
    Accessible s .read (accessAddr .offset (s.rd .user .r1) (halfSumOf s .user true .r1 (.reg .r2))) .byte := by decide

theorem witness_LoadPc :
    let s := start 0x10 0 0x1000 0 0
    Passes s .user .al ∧ transferMisuse .postIndexed .r15 .r1 (Offset.reg? (.imm 4)) = false ∧
    Accessible s .read (accessAddr .postIndexed (s.rd .user .r1) (sumOf s .user false .r1 (.imm 4))) .word := by decide

theorem witness_StoreSingle :
    let s := start 0x10 0 0xFFFFFFFC 3 2
    Passes s .user .al ∧ Room s ∧ s.memOk = true ∧ transferMisuse .offset .r15 .r1 (Offset.reg? (.imm 0)) = false ∧
    Accessible s .write (accessAddr .offset (s.rd .user .r1) (sumOf s .user true .r1 (.imm 0))) .word ∧
    narrowTransferMisuse .offset .r0 .r1 (some .r2) = false ∧
    Accessible s .write (accessAddr .offset (s.rd .user .r1) (sumOf s .user true .r1 (.reg .r2 .lsl 0))) .byte ∧
    Accessible s .write (accessAddr .offset (s.rd .user .r1) (halfSumOf s .user true .r1 (.reg .r3))) .half := by decide

/-- Bases 0x1002 for words, 0x1001 for halfwords, and 0x1001 for a block. -/
theorem witness_MisalignedRefused :
    let s := start 0x10 0 0x1002 0x1001 0
    Passes s .user .al ∧ transferMisuse .offset .r0 .r1 none = false ∧
    (accessAddr .offset (s.rd .user .r1) (sumOf s .user true .r1 (.imm 0))).extractLsb' 0 2 ≠ 0 ∧
    narrowTransferMisuse .offset .r0 .r2 none = false ∧
    (accessAddr .offset (s.rd .user .r2) (halfSumOf s .user true .r2 (.imm 0))).getLsbD 0 = true ∧
    (s.rd .user .r2).extractLsb' 0 2 ≠ 0 ∧ ldmMisuse true .r2 0x0001 = false ∧ stmMisuse true .r2 0x000C = false := by
  decide

/-- An abort of each kind and width, at an aligned address. -/
theorem witness_TransferAbort :
    let s := start 0x10 0 0x1000 0 0
    let a := accessAddr .preIndexed (s.rd .user .r1) (sumOf s .user true .r1 (.imm 4))
    Passes s .user .al ∧ transferMisuse .preIndexed .r15 .r1 none = false ∧
    narrowTransferMisuse .preIndexed .r0 .r1 none = false ∧ isAligned a 4 = true ∧ isAligned a 2 = true ∧
    halfSumOf s .user true .r1 (.imm 4) = a ∧
    (∀ k ∈ [AccessKind.read, .write], ∀ z ∈ [Size.byte, .half, .word],
      Passes (aborting k z 0x1004 s) .user .al ∧ (aborting k z 0x1004 s).aborts k a z = true) := by decide

/-- The three refusing clauses and the three allowing ones. -/
theorem witness_TransferRestrictions :
    Passes (start 0x10 0 0x1000 0 0) .user .al ∧
    ((Index.postIndexed = .preIndexed ∨ Index.postIndexed = .postIndexed) ∧ (Reg.r15 = .r15 ∨ Reg.r15 = .r0)) ∧
    ((Index.preIndexed = .preIndexed ∨ Index.preIndexed = .postIndexed) ∧ Reg.r1 = .r1) ∧
    (Reg.r0 ≠ .r15 ∧ Reg.r2 ≠ .r15 ∧ Reg.r1 ≠ .r15 ∧ Reg.r2 ≠ .r1) := by decide

/-- The least and the greatest number of registers. -/
theorem witness_BlockAddresses : (1 ≤ 1 ∧ 1 ≤ 16) ∧ (1 ≤ 16 ∧ 16 ≤ 16) := by decide

/-- The first lists of one and of fifteen registers, the second with r15 and ending at the top of the address space. -/
theorem witness_BlockLoad :
    let s := start 0x10 0 0xFFFFFFC4 0x1000 0
    Passes s .user .al ∧ Room s ∧
    (ldmMisuse true .r2 0x0001 = false ∧ isAligned (s.rd .user .r2) 4 = true ∧
      BlockAccessible s .read (blockStart .da (s.rd .user .r2) (listSize 0x0001)) (listSize 0x0001)) ∧
    (ldmMisuse true .r1 0xFFFD = false ∧ isAligned (s.rd .user .r1) 4 = true ∧ inList 0xFFFD .r15 = true ∧
      BlockAccessible s .read (blockStart .ia (s.rd .user .r1) (listSize 0xFFFD)) (listSize 0xFFFD)) := by decide

theorem witness_BlockStore :
    let s := start 0x10 0 0 0xFFFFFFFC 0
    Passes s .user .al ∧ stmMisuse true .r2 0xFFFC = false ∧ isAligned (s.rd .user .r2) 4 = true ∧ Room s ∧
    s.memOk = true ∧
    BlockAccessible s .write (blockStart .da (s.rd .user .r2) (listSize 0xFFFC)) (listSize 0xFFFC) := by decide

/-- Each clause, with operands that only it refuses. -/
theorem witness_BlockRestrictions :
    Passes (start 0x10 0 0 0 0) .user .al ∧ inList 0x0002 .r1 = true ∧
    (inList 0x0003 .r1 = true ∧ rankIn 0x0003 .r1 ≠ 0) ∧
    (field 0xE8FD8000 28 4 ≠ 0b1111#4 ∧ field 0xE8FD8000 25 3 = 0b100#3 ∧ bitAt 0xE8FD8000 22 = true) := by decide

/-- A block of three words of which the first, or the third, aborts. -/
theorem witness_BlockDataAbort :
    ∀ p ∈ [(0, (0x1000 : Word)), (2, 0x1008)],
      let r := aborting .read .word p.2 (start 0x10 0 0x1000 0 0)
      let w := aborting .write .word p.2 (start 0x10 0 0x1000 0 0)
      Passes r .user .al ∧ Passes w .user .al ∧ isAligned (r.rd .user .r1) 4 = true ∧
      (0x1000 : Word).toNat + 4 * listSize 0x001C ≤ 2 ^ 32 ∧ p.1 < listSize 0x001C ∧
      ldmMisuse true .r1 0x001C = false ∧ stmMisuse true .r1 0x001C = false ∧ w.memOk = true ∧
      BlockAccessible r .read (blockStart .ia (r.rd .user .r1) (listSize 0x001C)) p.1 ∧
      r.aborts .read (wordAt (blockStart .ia (r.rd .user .r1) (listSize 0x001C)) p.1) .word = true ∧
      BlockAccessible w .write (blockStart .ia (w.rd .user .r1) (listSize 0x001C)) p.1 ∧
      w.aborts .write (wordAt (blockStart .ia (w.rd .user .r1) (listSize 0x001C)) p.1) .word = true := by decide

/-- Each of the four pairs. -/
theorem witness_PushPopInverse :
    let s := start 0x10 0 0x1000 0 0
    ∀ bm ∈ [BlockMode.db, .ia, .ib, .da],
      Passes s .user .al ∧ ldmMisuse true .r1 0x4010 = false ∧ isAligned (s.rd .user .r1) 4 = true ∧ s.memOk = true ∧
      s.pc.toNat + 8 < 2 ^ 32 ∧
      BlockAccessible s .write (blockStart bm (s.rd .user .r1) (listSize 0x4010)) (listSize 0x4010) ∧
      BlockAccessible s .read (blockStart bm (s.rd .user .r1) (listSize 0x4010)) (listSize 0x4010) := by decide

theorem witness_MrsReads :
    Passes (start 0xD3 0 0 0 0) .supervisor .al ∧ Room (start 0xD3 0 0 0 0) ∧ Reg.r0 ≠ .r15 ∧
    (start 0xD3 0 0 0 0).spsr.read .supervisor = some 0 := by decide

/-- `CPSR_c` with 0x1F, which is written, and with 0x3F, which would set T. -/
theorem witness_MsrPrivileged :
    let s := start 0xD3 0 0 0 0
    Passes s .supervisor .al ∧ Room s ∧ Mode.supervisor ≠ .user ∧ Reg.r0 ≠ .r15 ∧
    (∀ k < 32, (0x1F : Word).getLsbD k =
      if (1 : BitVec 4).getLsbD (k / 8) then (0x1F : Word).getLsbD k else s.cpsr.getLsbD k) ∧
    ((0x1F : Word).extractLsb' 8 20 = s.cpsr.extractLsb' 8 20 ∧ psrT 0x1F = false ∧ psrMode 0x1F ≠ none) ∧
    (∀ k < 32, (0x3F : Word).getLsbD k =
      if (1 : BitVec 4).getLsbD (k / 8) then (0x3F : Word).getLsbD k else s.cpsr.getLsbD k) ∧ psrT 0x3F = true := by
  decide

/-- The three clauses: a mask without `f`, `f` with bits 27:24 as they are, and `f` with another value there. -/
theorem witness_MsrUser :
    let s := start 0x10 0 0 0 0
    Passes s .user .al ∧ Room s ∧ psrT s.cpsr = false ∧ (7 : BitVec 4).getLsbD 3 = false ∧
    (8 : BitVec 4).getLsbD 3 = true ∧ (0xF0000000 : Word).extractLsb' 24 4 = s.cpsr.extractLsb' 24 4 ∧
    (0x0F000000 : Word).extractLsb' 24 4 ≠ s.cpsr.extractLsb' 24 4 := by decide

theorem witness_MsrSpsr :
    Passes (start 0x91 0 0 0 0) .fiq .al ∧ Room (start 0x91 0 0 0 0) ∧
    (start 0x91 0 0 0 0).spsr.read .fiq = some 0 := by decide

theorem witness_PsrTransferRefusals :
    Passes (start 0x10 0 0 0 0) .user .al ∧ Passes (start 0x9F 0 0 0 0) .system .al ∧ Reg.r14 ≠ .r15 := by decide

theorem witness_SoftwareInterrupt : Passes { start 0x10 0 0 0 0 with pc := 0xFFFFFFFC } .user .al := by decide

/-- The three clauses: both lines high and unmasked, both high with FIQ masked, both high with both masked. -/
theorem witness_InterruptsTaken :
    let s (cpsr : Word) : State := { start cpsr 0 0 0 0 with env := { irqLine := true, fiqLine := true, aborts := [] } }
    ((s 0x10).env.fiqLine = true ∧ psrF (s 0x10).cpsr = false) ∧
    (psrF (s 0x50).cpsr = true ∧ (s 0x50).env.irqLine = true ∧ psrI (s 0x50).cpsr = false) ∧
    (psrF (s 0xD0).cpsr = true ∧ psrI (s 0xD0).cpsr = true) := by decide

theorem witness_PrefetchAbort :
    let s := aborting .fetch .word 0x8000 (start 0x10 0 0 0 0)
    s.interrupt = none ∧ s.legal = true ∧ s.aborts .fetch s.pc .word = true := by decide

theorem witness_ReturnUndoesEntry : (start 0x10 0 0 0 0).legal = true := by decide

theorem witness_StepKeepsLegal : (start 0x10 0 0 0 0).legal = true ∧ steps (start 0x10 0 0 0 0) := by decide

/-- A step that stores. -/
theorem witness_StepKeepsMemoryForm :
    ((start 0x10 5 0x200 0 0).withFetchWord 32 0xE581000C).memOk = true ∧
    steps ((start 0x10 5 0x200 0 0).withFetchWord 32 0xE581000C) := by decide

/-- A step that takes an exception and one that does not. -/
theorem witness_UserModeConfined :
    (fetching 0x10 0xEF000000).mode = some .user ∧ steps (fetching 0x10 0xEF000000) ∧
    (fetching 0x10 0xE321F0D3).mode = some .user ∧ steps (fetching 0x10 0xE321F0D3) := by decide

theorem witness_EnvironmentMoves :
    steps (start 0x10 0 0 0 0) ∧ (start 0x10 0 0 0 0).envToCome = [] ∧
    steps { start 0x10 0 0 0 0 with envToCome := [Env.quiet], storedTo := [0x1000] } := by decide

theorem witness_FlagWriters :
    goes (exec (.add .al false .r0 .r1 (.imm 0 1)) (start 0x10 0 0 0 0)) = true ∧
    writesFlags (.add .al false .r0 .r1 (.imm 0 1)) = false := by decide

theorem witness_OnlyStoresWriteMemory :
    goes (exec (.ldr .al .offset true .r0 .r1 (.imm 4)) (start 0x10 0 0 0 0)) = true ∧
    isStore (.ldr .al .offset true .r0 .r1 (.imm 4)) = false := by decide

/-- The last word of the address space. -/
theorem witness_ByteOrder :
    4 ∈ [1, 2, 4] ∧ (0xFFFFFFFC : Word).toNat + 4 ≤ 2 ^ 32 ∧ (start 0x10 0 0 0 0).memOk = true ∧
    (fetching 0x10 0xE0810002).fetch = .word 0xE0810002 ∧ steps (fetching 0x10 0xE0810002) := by decide

theorem witness_MixedWidths :
    (start 0x10 0 0 0 0).memOk = true ∧ isAligned 0xFFFFFFFC 4 = true ∧
    (start 0x10 0 0 0 0).params.bigEndian = false ∧
    { start 0x10 0 0 0 0 with params := { Params.default with bigEndian := true } }.params.bigEndian = true := by decide

/-- A store of the last byte of the word at the pc. -/
theorem witness_FetchOfStoredRefused :
    let s := { start 0x10 0 0 0 0 with storedTo := [0x8003] }
    s.interrupt = none ∧ s.legal = true ∧ Accessible s .fetch s.pc .word ∧ s.pc.toNat + 3 ∈ s.storedTo ∧
    (start 0x10 0 0 0 0).store 0x1000 .word 1 = .done ((start 0x10 0 0 0 0).poke 0x1000 4 1) := by decide

/-- A fetch outside `MEM_MAP`; a word, a halfword and a byte outside it, at the last address of each; a block whose first
word is outside it, and one that passes the top. -/
theorem witness_AddressSpaceStops_unmapped :
    let s := { start 0x10 0 0xFFFFFFFC 3 2 with params := { Params.default with memMap := [] } }
    (s.interrupt = none ∧ s.legal = true ∧ s.aborts .fetch s.pc .word = false ∧ s.admits s.pc 4 = false) ∧
    Passes s .user .al ∧ transferMisuse .offset .r0 .r1 none = false ∧
    narrowTransferMisuse .offset .r0 .r1 (some .r3) = false ∧
    (∀ k ∈ [AccessKind.read, .write], ∀ p ∈ [(sumOf s .user true .r1 (.imm 0), Size.word),
        (halfSumOf s .user true .r1 (.reg .r3), .half), (sumOf s .user true .r1 (.reg .r2 .lsl 0), .byte)],
      isAligned (accessAddr .offset (s.rd .user .r1) p.1) (sizeBytes p.2) = true ∧
      s.aborts k (accessAddr .offset (s.rd .user .r1) p.1) p.2 = false ∧
      s.admits (accessAddr .offset (s.rd .user .r1) p.1) (sizeBytes p.2) = false) ∧
    (isAligned (s.rd .user .r1) 4 = true ∧ ldmMisuse false .r1 0x0001 = false ∧ stmMisuse false .r1 0x0001 = false ∧
      (blockStart .ia (s.rd .user .r1) (listSize 0x0001)).toNat + 4 * listSize 0x0001 ≤ 2 ^ 32 ∧
      0 < listSize 0x0001 ∧
      ∀ k ∈ [AccessKind.read, .write],
        BlockAccessible s k (blockStart .ia (s.rd .user .r1) (listSize 0x0001)) 0 ∧
        s.aborts k (wordAt (blockStart .ia (s.rd .user .r1) (listSize 0x0001)) 0) .word = false ∧
        s.admits (wordAt (blockStart .ia (s.rd .user .r1) (listSize 0x0001)) 0) 4 = false) ∧
    (ldmMisuse false .r1 0x0003 = false ∧ stmMisuse false .r1 0x0003 = false ∧
      2 ^ 32 < (blockStart .ia (s.rd .user .r1) (listSize 0x0003)).toNat + 4 * listSize 0x0003) := by decide

/-- A block of three words of which the last is outside `MEM_MAP`. -/
theorem witness_AddressSpaceStops_block :
    let s := { start 0x10 0 0x1000 0 0 with params := { Params.default with memMap := [⟨0x1000, 0x1007⟩] } }
    Passes s .user .al ∧ isAligned (s.rd .user .r1) 4 = true ∧ 2 < listSize 0x001C ∧
    (blockStart .ia (s.rd .user .r1) (listSize 0x001C)).toNat + 4 * listSize 0x001C ≤ 2 ^ 32 ∧
    ldmMisuse true .r1 0x001C = false ∧ stmMisuse true .r1 0x001C = false ∧
    ∀ k ∈ [AccessKind.read, .write],
      BlockAccessible s k (blockStart .ia (s.rd .user .r1) (listSize 0x001C)) 2 ∧
      s.aborts k (wordAt (blockStart .ia (s.rd .user .r1) (listSize 0x001C)) 2) .word = false ∧
      s.admits (wordAt (blockStart .ia (s.rd .user .r1) (listSize 0x001C)) 2) 4 = false := by decide

/-- The last word: an instruction of each shape that passes and does not write r15, one that fails, and a word of the
UNDEFINED space that fails. -/
theorem witness_AddressSpaceStops_lastWord :
    let s := { start 0xD3 0 0x1000 0 0 with pc := 0xFFFFFFFC }
    let f := { start 0x400000D3 0 0 0 0 with pc := 0xFFFFFFFC }.withFetchWord 32 0x17F000F0
    Passes s .supervisor .al ∧
    WritesNoPc s .supervisor (.add .al true .r0 .r15 (.imm 0 1)) ∧
    WritesNoPc s .supervisor (.cmp .al .r1 (.shiftReg .r0 .lsl .r2)) ∧
    WritesNoPc s .supervisor (.smlal .al true .r0 .r1 .r2 .r3) ∧
    WritesNoPc s .supervisor (.ldr .al .preIndexed true .r0 .r1 (.imm 4)) ∧
    WritesNoPc s .supervisor (.str .al .offset true .r15 .r1 (.imm 4)) ∧
    WritesNoPc s .supervisor (.ldrsh .al .postIndexed false .r0 .r1 (.imm 2)) ∧
    WritesNoPc s .supervisor (.ldmia .al true .r1 0x0001) ∧ WritesNoPc s .supervisor (.stmdb .al true .r1 0x8000) ∧
    WritesNoPc s .supervisor (.mrs .al true .r0) ∧ WritesNoPc s .supervisor (.msrImm .al false 1 0 0x1F) ∧
    conditionPassed (Instr.cond (.b .eq 0)) s.cpsr = false ∧
    (f.pc = 0xFFFFFFFC ∧ Fetches f 0x17F000F0 ∧ condOf 0x17F000F0 = some .ne ∧
      conditionPassed .ne f.cpsr = false) := by
  simp only [WritesNoPc, BlockReachable, MsrAllowed]
  decide

/-- R31: `MOV r0,r0` at the last word. -/
theorem test_last_word :
    exec (.mov .al false .r0 (.shiftImm .r0 .lsl 0)) { start 0x10 0 0 0 0 with pc := 0xFFFFFFFC } =
      .fault .pcPastTop := rfl

/-- Log 18: `STR r15,[r1]` at 0xFFFFFFF4 with `PC_STORE_OFFSET` 12. -/
theorem test_stored_pc_wraps :
    State.storeValue { start 0x10 0 0 0 0 with
      pc := 0xFFFFFFF4, params := { Params.default with pcStoreOffset := .plus12 } } .user .r15 = 0 := by decide

end Sys2Proof.Tests
end

namespace Sys2Proof.Claims
/-! What every operation of the state keeps of the inputs (R8, R47) and of memory with its marks (R61, R76). Each rule
takes what was kept up to a state `u` to what is kept after the operation on `u`. -/

open Machine

variable {s t u : State}

/-- A state has its own inputs. -/
theorem SameInputs.refl (s : State) : SameInputs s s := ⟨rfl, rfl, rfl⟩

/-- The end of an instruction keeps the inputs. -/
theorem SameInputs.of_advance (h : u.advance = .next t) (hu : SameInputs s u) : SameInputs s t := by
  obtain ⟨-, rfl⟩ := advance_eq_next.1 h
  exact hu

/-- Taking an exception keeps the inputs. -/
theorem SameInputs.raise (hu : SameInputs s u) (e : Exc) : SameInputs s (u.raise e) := by
  simpa [SameInputs] using hu

/-- A state has its own memory. -/
theorem SameMemory.refl (s : State) : SameMemory s s := ⟨fun _ => rfl, rfl⟩

/-- The end of an instruction writes no memory. -/
theorem SameMemory.of_advance (h : u.advance = .next t) (hu : SameMemory s u) : SameMemory s t := by
  obtain ⟨-, rfl⟩ := advance_eq_next.1 h
  exact hu

/-- Taking an exception writes no memory. -/
theorem SameMemory.raise (hu : SameMemory s u) (e : Exc) : SameMemory s (u.raise e) := by
  simpa [SameMemory] using hu

/-- A register write writes no memory. -/
theorem SameMemory.setReg (hu : SameMemory s u) (m : Mode) (r : Reg) (v : Word) : SameMemory s (u.setReg m r v) := by
  simpa [SameMemory] using hu

/-- A base write-back writes no memory. -/
theorem SameMemory.writeBack (hu : SameMemory s u) (m : Mode) (ix : Index) (rn : Reg) (v : Word) :
    SameMemory s (u.writeBack m ix rn v) := by
  simpa [SameMemory] using hu

/-- Every address marked as stored to in `s` is marked in `t` (R76). -/
def KeepsMarks (s t : State) : Prop := ∀ a, a ∈ s.storedTo → a ∈ t.storedTo

/-- Marks are kept along two moves in a row. -/
theorem KeepsMarks.trans (hsu : KeepsMarks s u) (hut : KeepsMarks u t) : KeepsMarks s t :=
  fun a ha => hut a (hsu a ha)

/-- The same memory has the same marks. -/
theorem SameMemory.keepsMarks (h : SameMemory s t) : KeepsMarks s t := by
  obtain ⟨-, hs⟩ := h
  exact fun a ha => hs ▸ ha

end Sys2Proof.Claims

namespace Sys2Proof.Machine
/-! What every step keeps: the parameters, the environment up to its own move, and the marks of the addresses stored to
(R8, R47, R76). -/

open Claims

variable {s t u : State} {c : Cond}

/-! ### The parameters and the environment -/

/-- No effect of an instruction reaches the parameters or the environment. -/
theorem Effect.sameInputs {m : Mode} (h : Effect s m t) : SameInputs s t := by
  cases h with
  | plain regs t h => exact SameInputs.of_advance h ⟨rfl, rfl, rfl⟩
  | flags regs n z cf v draws t h => exact SameInputs.of_advance h ⟨rfl, rfl, rfl⟩
  | jump regs a h => exact ⟨rfl, rfl, rfl⟩
  | branch regs offset => exact ⟨rfl, rfl, rfl⟩
  | store regs mem stored t hm h => exact SameInputs.of_advance h ⟨rfl, rfl, rfl⟩
  | exception regs mem stored e hm =>
    exact SameInputs.raise (u := (s.setMem mem stored).setRegs regs) ⟨rfl, rfl, rfl⟩ e
  | ret result t h =>
    obtain ⟨new, -, -, -, -, -, -, rfl⟩ := exceptionReturn_eq_next.1 h
    exact ⟨rfl, rfl, rfl⟩
  | psr spsr fields operand t h =>
    rcases msr_eq_next h with ⟨-, v, ha, -⟩ | ⟨-, new, -, -, -, -, ha⟩
    · exact SameInputs.of_advance ha ⟨rfl, rfl, rfl⟩
    · exact SameInputs.of_advance ha ⟨rfl, rfl, rfl⟩

/-- No instruction changes a parameter or the environment (R8, R47). -/
theorem exec_sameInputs {i : Instr} (h : exec i s = .next t) : SameInputs s t := by
  obtain ⟨m, -, he⟩ := exec_effect h
  exact he.sameInputs

/-- Before the environment's move a step changes neither a parameter nor the environment. -/
theorem stepCore_sameInputs (h : stepCore s = .next t) : SameInputs s t := by
  rcases stepCore_eq_next h with
    ⟨e, -, -, rfl⟩ | ⟨-, -, rfl⟩ | ⟨w, -, -, -, rfl⟩ | ⟨w, -, -, -, ha⟩ | ⟨w, i, -, -, -, hx⟩
  · exact (SameInputs.refl s).raise e
  · exact (SameInputs.refl s).raise _
  · exact (SameInputs.refl s).raise _
  · exact SameInputs.of_advance ha (.refl s)
  · exact exec_sameInputs hx

/-- With no entry left the environment stays as it is (log 6). -/
theorem tick_of_nil (h : s.envToCome = []) : s.tick = s := by
  simp [State.tick, h]

/-- With an entry left the environment becomes that entry (log 6). -/
theorem tick_of_cons {e : Env} {es : List Env} (h : s.envToCome = e :: es) : s.tick = s.setEnv e es := by
  simp [State.tick, h]

/-! ### Memory under the instructions that do not store -/

/-- Data Abort from a single transfer leaves memory as it is (R225). -/
theorem transferAbort_sameMemory (s : State) (m : Mode) (ix : Index) (rn : Reg) (v : Word) :
    SameMemory s (s.transferAbort m ix rn v) := by
  obtain ⟨u, hu, rfl | rfl⟩ := transferAbort_eq (s := s) m ix rn v
  · rw [hu]; exact (SameMemory.refl _).raise _
  · rw [hu]; exact ((SameMemory.refl _).writeBack m ix rn v).raise _

/-- The destination of a data-processing instruction is no byte of memory. -/
theorem putResult_sameMemory {m : Mode} {st : Bool} {rd : Reg} {o : AluOut} (h : s.putResult m st rd o = .next t) :
    SameMemory s t := by
  have hr := (SameMemory.refl s).setReg m rd o.result
  rcases putResult_eq_next h with ⟨-, -, h⟩ | ⟨-, -, -, rfl⟩ | ⟨-, -, h⟩ | ⟨-, -, h⟩
  · obtain ⟨new, -, -, -, -, -, -, rfl⟩ := exceptionReturn_eq_next.1 h
    exact .refl s
  · exact .refl s
  · exact .of_advance h hr
  · exact .of_advance h hr

/-- An `MSR` leaves memory as it is. -/
theorem msr_sameMemory {m : Mode} {spsr : Bool} {fields : BitVec 4} {operand : Word}
    (h : s.msr m spsr fields operand = .next t) : SameMemory s t := by
  rcases msr_eq_next h with ⟨-, v, ha, -⟩ | ⟨-, new, -, -, -, -, ha⟩
  · exact .of_advance ha (.refl s)
  · exact .of_advance ha (.refl s)

/-- A 32-bit multiply leaves memory as it is. -/
theorem multiply_sameMemory {st : Bool} {rd : Reg} {misuse : Bool} {f : Mode → Word}
    (h : multiply c st rd misuse s f = .next t) : SameMemory s t := by
  rcases multiply_eq_next h with ha | ⟨m, -, hp⟩
  · exact .of_advance ha (.refl s)
  · have hr := (SameMemory.refl s).setReg m rd (f m)
    cases st with
    | false => exact .of_advance hp hr
    | true => exact .of_advance hp hr

/-- A long multiply leaves memory as it is. -/
theorem multiplyLong_sameMemory {st : Bool} {rdLo rdHi rm rs : Reg} {f : Mode → BitVec 64}
    (h : multiplyLong c st rdLo rdHi rm rs s f = .next t) : SameMemory s t := by
  rcases multiplyLong_eq_next h with ha | ⟨m, lo, hi, -, hp⟩
  · exact .of_advance ha (.refl s)
  · have hr := ((SameMemory.refl s).setReg m rdLo lo).setReg m rdHi hi
    cases st with
    | false => exact .of_advance hp hr
    | true => exact .of_advance hp hr

/-- A single load leaves memory as it is, and so does its abort. -/
theorem loadSingle_sameMemory {ix : Index} {up : Bool} {rd rn : Reg} {misuse : Bool} {sz : Size} {extend : Word → Word}
    {offset : Mode → Word} (h : loadSingle c ix up rd rn misuse sz extend s offset = .next t) : SameMemory s t := by
  rcases loadSingle_eq_next h with ha | ⟨m, sum, v, -, rfl | rfl | ha⟩
  · exact .of_advance ha (.refl s)
  · exact transferAbort_sameMemory s m ix rn sum
  · exact (SameMemory.refl s).writeBack m ix rn sum
  · exact .of_advance ha (((SameMemory.refl s).setReg m rd v).writeBack m ix rn sum)

/-- The end of a block transfer touches no memory that its loop did not (R265, R268). -/
theorem finishBlock_sameMemory {m : Mode} {wb : Bool} {rn : Reg} {b written : Word} {e : BlockEnd}
    (h : finishBlock m wb rn b written e = .next t) : ∃ u, e.state? = some u ∧ SameMemory u t := by
  have hr : ∀ u : State, SameMemory u (if wb then u.setReg m rn written else u) := fun u => by
    cases wb with
    | false => exact .refl u
    | true => exact (SameMemory.refl u).setReg m rn written
  rcases finishBlock_eq_next h with ⟨u, v, rfl, rfl⟩ | ⟨u, a, rfl, rfl⟩ | ⟨u, rfl, ha⟩
  · exact ⟨u, rfl, ((SameMemory.refl u).setReg m rn v).raise _⟩
  · exact ⟨u, rfl, hr u⟩
  · exact ⟨u, rfl, .of_advance ha (hr u)⟩

/-- An `LDM` leaves memory as it is, and so does its abort. -/
theorem blockLoad_sameMemory {bm : BlockMode} {wb : Bool} {rn : Reg} {list : BitVec 16} {misuse : Bool}
    (h : blockTransfer c bm wb rn list misuse s loadWords = .next t) : SameMemory s t := by
  rcases blockTransfer_eq_next h with ha | ⟨m, start, written, -, hf⟩
  · exact .of_advance ha (.refl s)
  · obtain ⟨u, hu, hut⟩ := finishBlock_sameMemory hf
    obtain ⟨regs, rfl⟩ := loadWords_frame m _ _ s u hu
    exact hut

/-- An instruction leaves memory as it is if its body does. -/
theorem whenPassed_sameMemory {body : Mode → Out} (h : whenPassed c s body = .next t)
    (hb : ∀ m, body m = .next t → SameMemory s t) : SameMemory s t := by
  obtain ⟨m, -, ⟨-, hx⟩ | ⟨-, ha⟩⟩ := whenPassed_eq_next h
  · exact hb m hx
  · exact .of_advance ha (.refl s)

/-- An instruction that is no store leaves memory and its marks as they are (R61), an abort of a load included. -/
theorem exec_sameMemory {i : Instr} (h : exec i s = .next t) (hi : isStore i = false) : SameMemory s t := by
  cases i with
  | b =>
    refine whenPassed_sameMemory h fun m hx => ?_
    cases hx
    exact .refl s
  | bl =>
    refine whenPassed_sameMemory h fun m hx => ?_
    cases hx
    exact (SameMemory.refl s).setReg m .r14 _
  | swi =>
    refine whenPassed_sameMemory h fun m hx => ?_
    cases hx
    exact (SameMemory.refl s).raise _
  | mrs =>
    refine whenPassed_sameMemory h fun m hx => ?_
    split at hx
    · cases hx
    · split at hx
      · split at hx
        · cases hx
        · exact .of_advance hx ((SameMemory.refl s).setReg m _ _)
      · exact .of_advance hx ((SameMemory.refl s).setReg m _ _)
  | msrReg =>
    refine whenPassed_sameMemory h fun m hx => ?_
    split at hx
    · cases hx
    · exact msr_sameMemory hx
  | msrImm => exact whenPassed_sameMemory h fun m hx => msr_sameMemory hx
  | and | eor | sub | rsb | add | adc | sbc | rsc | orr | bic =>
    simp only [exec, execAnd, execEor, execSub, execRsb, execAdd, execAdc, execSbc, execRsc, execOrr, execBic] at h
    rcases dataProcess_eq_next h with ha | ⟨m, o, -, hp⟩
    · exact .of_advance ha (.refl s)
    · exact putResult_sameMemory hp
  | mov | mvn =>
    simp only [exec, execMov, execMvn] at h
    rcases moveOp_eq_next h with ha | ⟨m, o, -, hp⟩
    · exact .of_advance ha (.refl s)
    · exact putResult_sameMemory hp
  | tst | teq | cmp | cmn =>
    simp only [exec, execTst, execTeq, execCmp, execCmn] at h
    rcases compareOp_eq_next h with ha | ⟨m, o, -, hp⟩
    · exact .of_advance ha (.refl s)
    · exact .of_advance hp (.refl s)
  | mul | mla =>
    simp only [exec, execMul, execMla] at h
    exact multiply_sameMemory h
  | umull | umlal | smull | smlal =>
    simp only [exec, execUmull, execUmlal, execSmull, execSmlal] at h
    exact multiplyLong_sameMemory h
  | ldr | ldrb | ldrh | ldrsb | ldrsh =>
    simp only [exec, execLdr, execLdrb, execLdrh, execLdrsb, execLdrsh] at h
    exact loadSingle_sameMemory h
  | ldmia | ldmib | ldmda | ldmdb =>
    simp only [exec, execLdmia, execLdmib, execLdmda, execLdmdb] at h
    exact blockLoad_sameMemory h
  | str | strb | strh | stmia | stmib | stmda | stmdb => cases hi

/-! ### Marks under the stores -/

/-- A store adds marks and takes none away. -/
theorem poke_keepsMarks (s : State) (addr : Word) (n : Nat) (v : Word) : KeepsMarks s (s.poke addr n v) :=
  fun a ha => (storedTo_poke a).2 (.inr ha)

/-- A single store keeps the marks, and so does its abort. -/
theorem storeSingle_keepsMarks {ix : Index} {up : Bool} {rd rn : Reg} {misuse : Bool} {sz : Size}
    {offset : Mode → Word} (h : storeSingle c ix up rd rn misuse sz s offset = .next t) : KeepsMarks s t := by
  rcases storeSingle_eq_next h with ha | ⟨m, sum, -, rfl | ⟨addr, v, -, ha⟩⟩
  · exact (SameMemory.of_advance ha (.refl s)).keepsMarks
  · exact (transferAbort_sameMemory s m ix rn sum).keepsMarks
  · have hpoked := SameMemory.of_advance ha ((SameMemory.refl _).writeBack m ix rn sum)
    exact (poke_keepsMarks s addr _ v).trans hpoked.keepsMarks

/-- The loop of `STM` keeps the marks, wherever it ends. -/
theorem storeWords_keepsMarks (m : Mode) (rs : List Reg) (addr : Word) (s u : State)
    (h : (storeWords m rs addr s).state? = some u) : KeepsMarks s u := by
  induction rs generalizing addr s with
  | nil => cases h; exact fun _ => id
  | cons r rest ih =>
    unfold storeWords at h
    cases hl : s.store addr .word (s.storeValue m r) with
    | abort => rw [hl] at h; cases h; exact fun _ => id
    | fault f => rw [hl] at h; cases h
    | done v =>
      rw [hl] at h
      obtain ⟨-, -, rfl⟩ := store_eq_done.1 hl
      exact (poke_keepsMarks s addr _ _).trans (ih _ _ h)

/-- An `STM` keeps the marks, and so does its abort after some of its words (R268). -/
theorem blockStore_keepsMarks {bm : BlockMode} {wb : Bool} {rn : Reg} {list : BitVec 16} {misuse : Bool}
    (h : blockTransfer c bm wb rn list misuse s storeWords = .next t) : KeepsMarks s t := by
  rcases blockTransfer_eq_next h with ha | ⟨m, start, written, -, hf⟩
  · exact (SameMemory.of_advance ha (.refl s)).keepsMarks
  · obtain ⟨u, hu, hut⟩ := finishBlock_sameMemory hf
    exact (storeWords_keepsMarks m _ _ s u hu).trans hut.keepsMarks

/-- No instruction takes a mark away. -/
theorem exec_keepsMarks {i : Instr} (h : exec i s = .next t) : KeepsMarks s t := by
  cases hi : isStore i with
  | false => exact (exec_sameMemory h hi).keepsMarks
  | true =>
    cases i with
    | str | strb | strh =>
      simp only [exec, execStr, execStrb, execStrh] at h
      exact storeSingle_keepsMarks h
    | stmia | stmib | stmda | stmdb =>
      simp only [exec, execStmia, execStmib, execStmda, execStmdb] at h
      exact blockStore_keepsMarks h
    | _ => cases hi

/-- No step takes a mark away (R76). -/
theorem stepCore_keepsMarks (h : stepCore s = .next t) : KeepsMarks s t := by
  rcases stepCore_eq_next h with
    ⟨e, -, -, rfl⟩ | ⟨-, -, rfl⟩ | ⟨w, -, -, -, rfl⟩ | ⟨w, -, -, -, ha⟩ | ⟨w, i, -, -, -, hx⟩
  · exact ((SameMemory.refl s).raise e).keepsMarks
  · exact ((SameMemory.refl s).raise _).keepsMarks
  · exact ((SameMemory.refl s).raise _).keepsMarks
  · exact (SameMemory.of_advance ha (.refl s)).keepsMarks
  · exact exec_keepsMarks hx

/-- Settles O54: all of a step but the environment's move keeps the inputs and the marks, and that move is the one the
claim names. -/
theorem environmentMoves : Obligations.EnvironmentMoves := by
  intro s t h
  obtain ⟨u, hu, rfl⟩ := step_eq_next.1 h
  obtain ⟨hparams, henv, htoCome⟩ := stepCore_sameInputs hu
  refine ⟨by rw [State.tick_params, hparams], ?_, fun a ha => ?_⟩
  · cases hes : s.envToCome with
    | nil =>
      rw [hes] at htoCome
      rw [tick_of_nil htoCome, henv, htoCome]
    | cons e es =>
      rw [hes] at htoCome
      rw [tick_of_cons htoCome, State.setEnv_env, State.setEnv_envToCome]
  · rw [State.tick_storedTo]
    exact stepCore_keepsMarks hu a ha

end Sys2Proof.Machine

namespace Sys2Proof.Machine
/-! The legal states (R28, R36, R42, R49): word alignment of the addresses that become the pc, and what every step keeps
of legality. -/

variable {s t u : State}

/-! ### Word alignment -/

/-- An address is word aligned exactly where its two low bits are 0 (R64). -/
theorem isAligned_four_iff (a : Word) : isAligned a 4 = true ↔ a.setWidth 2 = 0#2 := by
  simp [isAligned, ← BitVec.toNat_inj]

/-- The sum of word-aligned addresses is word aligned, past the top too. -/
theorem isAligned_add {a b : Word} (ha : isAligned a 4 = true) (hb : isAligned b 4 = true) :
    isAligned (a + b) 4 = true := by
  rw [isAligned_four_iff] at *
  rw [BitVec.setWidth_add _ _ (by decide), ha, hb]
  rfl

/-- The offset of a branch in bytes, sign-extended, is a multiple of 4 (R104). -/
theorem isAligned_branchOffset (offset : BitVec 24) : isAligned ((offset ++ 0b00#2).signExtend 32) 4 = true := by
  rw [isAligned_four_iff]
  apply BitVec.eq_of_getLsbD_eq
  intro i hi
  have h32 : i < 32 := by omega
  have h26 : i < 24 + 2 := by omega
  simp only [BitVec.getLsbD_setWidth, BitVec.getLsbD_signExtend, BitVec.getLsbD_append, hi, h32, h26, decide_true,
    Bool.true_and, if_true]

/-- A branch from a word-aligned pc goes to a word-aligned address (R143). -/
theorem isAligned_branchTarget {pc : Word} (offset : BitVec 24) (h : isAligned pc 4 = true) :
    isAligned (branchTarget pc offset) 4 = true :=
  isAligned_add (isAligned_add h rfl) (isAligned_branchOffset offset)

/-- Every exception vector is word aligned (R71, R306). -/
theorem isAligned_vector (vb : VectorBase) (e : Exc) : isAligned (vb.addr + e.vector) 4 = true := by
  apply isAligned_add
  · cases vb <;> rfl
  · cases e <;> rfl

/-! ### Legality -/

/-- The four parts of legality. -/
theorem legal_iff :
    s.legal = true ↔
      isAligned s.pc 4 = true ∧ s.mode.isSome = true ∧ psrT s.cpsr = false ∧ psrReserved s.cpsr = 0 := by
  simp [State.legal, and_assoc]

/-- A legal state has the J bit 0, which is one of the reserved bits (R38, R42). -/
theorem psrJ_of_legal (h : s.legal = true) : psrJ s.cpsr = false := by
  obtain ⟨-, -, -, hr⟩ := legal_iff.1 h
  have hbit : (psrReserved s.cpsr).getLsbD 16 = psrJ s.cpsr := by simp [psrReserved, psrJ]
  rw [← hbit, hr]
  rfl

/-- Legality depends on the pc and the `cpsr` only. -/
theorem legal_congr (hpc : t.pc = s.pc) (hcpsr : t.cpsr = s.cpsr) (h : s.legal = true) : t.legal = true := by
  rw [legal_iff, State.mode_congr t s hcpsr, hpc, hcpsr, ← legal_iff]
  exact h

/-- A legal state stays legal with another word-aligned pc. -/
theorem legal_setPc {a : Word} (h : s.legal = true) (ha : isAligned a 4 = true) : (s.setPc a).legal = true := by
  obtain ⟨-, hm, hT, hR⟩ := legal_iff.1 h
  exact legal_iff.2 ⟨ha, hm, hT, hR⟩

/-- A legal state stays legal under a `cpsr` with a legal mode, T = 0 and the reserved bits it had: the checks of R157
and R288. -/
theorem legal_setCpsr {new : Word} (h : s.legal = true) (hm : (psrMode new).isSome = true) (hT : psrT new = false)
    (hR : psrReserved new = psrReserved s.cpsr) : (s.setCpsr new).legal = true := by
  obtain ⟨hpc, -, -, hR0⟩ := legal_iff.1 h
  exact legal_iff.2 ⟨hpc, hm, hT, hR.trans hR0⟩

/-- A flag write keeps legality. -/
theorem legal_setFlags (n z c v : Bool) (h : s.legal = true) :
    (s.setCpsr (psrSetFlags n z c v s.cpsr)).legal = true := by
  obtain ⟨-, hm, hT, -⟩ := legal_iff.1 h
  exact legal_setCpsr h (by rwa [psrMode_psrSetFlags]) (by rwa [psrT_psrSetFlags]) (psrReserved_psrSetFlags ..)

/-- The end of an instruction keeps legality. -/
theorem legal_of_advance (ha : u.advance = .next t) (h : u.legal = true) : t.legal = true := by
  obtain ⟨-, rfl⟩ := advance_eq_next.1 ha
  obtain ⟨hpc, -, -, -⟩ := legal_iff.1 h
  exact legal_setPc h (isAligned_add hpc rfl)

/-- Taking an exception keeps legality (R306). -/
theorem legal_raise (e : Exc) (h : s.legal = true) : (s.raise e).legal = true := by
  obtain ⟨-, -, -, hR⟩ := legal_iff.1 h
  rw [legal_iff, State.mode, State.raise_pc, State.raise_cpsr]
  exact ⟨isAligned_vector _ e, by simp, psrT_entryPsr e s.cpsr, by rw [psrReserved_entryPsr, hR]⟩

/-- The environment's move keeps legality. -/
theorem legal_tick (h : s.legal = true) : s.tick.legal = true := legal_congr s.tick_pc s.tick_cpsr h

/-- Every effect of an instruction keeps legality. -/
theorem Effect.legal {m : Mode} (he : Effect s m t) (h : s.legal = true) : t.legal = true := by
  cases he with
  | plain regs t ha => exact legal_of_advance ha (legal_congr (s := s) rfl rfl h)
  | flags regs n z cf v draws t ha =>
    exact legal_of_advance ha (legal_congr (s := s.setCpsr _) rfl rfl (legal_setFlags n z cf v h))
  | jump regs a ha => exact legal_setPc (legal_congr (s := s) rfl rfl h) ha
  | branch regs offset =>
    obtain ⟨hpc, -, -, -⟩ := legal_iff.1 h
    exact legal_setPc (legal_congr (s := s) rfl rfl h) (isAligned_branchTarget offset hpc)
  | store regs mem stored t hm ha => exact legal_of_advance ha (legal_congr (s := s) rfl rfl h)
  | exception regs mem stored e hm => exact legal_raise e (legal_congr (s := s) rfl rfl h)
  | ret result t ha =>
    obtain ⟨new, -, hT, -, hm, hR, hal, rfl⟩ := exceptionReturn_eq_next.1 ha
    exact legal_setPc (legal_setCpsr h hm hT hR) hal
  | psr spsr fields operand t ha =>
    rcases msr_eq_next ha with ⟨-, v, ha, -⟩ | ⟨-, new, -, hR, hT, hm, ha⟩
    · exact legal_of_advance ha (legal_congr (s := s) rfl rfl h)
    · exact legal_of_advance ha (legal_setCpsr h hm hT hR)

/-- Before the environment's move a step keeps legality. -/
theorem stepCore_legal (hx : stepCore s = .next t) (h : s.legal = true) : t.legal = true := by
  rcases stepCore_eq_next hx with
    ⟨e, -, -, rfl⟩ | ⟨-, -, rfl⟩ | ⟨w, -, -, -, rfl⟩ | ⟨w, -, -, -, ha⟩ | ⟨w, i, -, -, -, hi⟩
  · exact legal_raise e h
  · exact legal_raise _ h
  · exact legal_raise _ h
  · exact legal_of_advance ha h
  · obtain ⟨m, -, he⟩ := exec_effect hi
    exact he.legal h

/-- Settles O51: every effect of an instruction, every exception entry and the environment's move keep legality. -/
theorem stepKeepsLegal : Obligations.StepKeepsLegal := by
  intro s t h hstep
  obtain ⟨u, hu, rfl⟩ := step_eq_next.1 hstep
  exact legal_tick (stepCore_legal hu h)

end Sys2Proof.Machine

namespace Sys2Proof.Claims
/-! What every operation of the state that writes no flag keeps of the flags (R44). -/

open Machine

variable {s t u : State}

/-- The flags of `t` are those of `s`. -/
abbrev SameFlags (s t : State) : Prop := Flags t (psrN s.cpsr) (psrZ s.cpsr) (psrC s.cpsr) (psrV s.cpsr)

/-- The flags depend on the `cpsr` only. -/
theorem SameFlags.of_cpsr (h : t.cpsr = s.cpsr) : SameFlags s t := by
  rw [SameFlags, Flags, h]
  exact ⟨rfl, rfl, rfl, rfl⟩

/-- The flags are bits 31:28 of the `cpsr` (R33). -/
theorem SameFlags.of_bits (h : ∀ i, 28 ≤ i → i < 32 → t.cpsr.getLsbD i = s.cpsr.getLsbD i) : SameFlags s t :=
  ⟨h 31 (by decide) (by decide), h 30 (by decide) (by decide), h 29 (by decide) (by decide),
    h 28 (by decide) (by decide)⟩

/-- Moving on from a state with the `cpsr` of `s` keeps the flags. -/
theorem SameFlags.of_advance (h : u.advance = .next t) (hu : u.cpsr = s.cpsr) : SameFlags s t := by
  obtain ⟨-, rfl⟩ := advance_eq_next.1 h
  exact of_cpsr hu

/-- Taking an exception from a state with the `cpsr` of `s` keeps the flags (R306). -/
theorem SameFlags.raise (hu : u.cpsr = s.cpsr) (e : Exc) : SameFlags s (u.raise e) := by
  rw [SameFlags, Flags, State.raise_cpsr, hu]
  exact ⟨psrN_entryPsr .., psrZ_entryPsr .., psrC_entryPsr .., psrV_entryPsr ..⟩

end Sys2Proof.Claims

namespace Sys2Proof.Machine
/-! Which instructions write no flag (R44): one lemma per shape of instruction, for its form that writes none. -/

open Claims

variable {s t u : State} {c : Cond}

/-- Without the `f` field the mask of an `MSR` leaves bits 31:24 out (R41, R286). -/
theorem getLsbD_byteMask_high {fields : BitVec 4} (hf : fields.getLsbD 3 = false) (i : Nat) (h24 : 24 ≤ i) :
    (byteMask fields).getLsbD i = false := by
  have hsmall : (byteMask fields).toNat < 2 ^ 24 := by revert hf fields; decide
  exact Nat.testBit_lt_two_pow (hsmall.trans_le (Nat.pow_le_pow_right (by decide) h24))

/-- Without the `f` field the mask of an `MSR` to the `cpsr` leaves bits 31:24 out, in User mode too (R288). -/
theorem getLsbD_cpsrMask_high {fields : BitVec 4} (m : Mode) (hf : fields.getLsbD 3 = false) (i : Nat)
    (h24 : 24 ≤ i) : (cpsrMask m fields).getLsbD i = false := by
  unfold cpsrMask
  split
  · rw [BitVec.getLsbD_and, getLsbD_byteMask_high hf i h24, Bool.false_and]
  · exact getLsbD_byteMask_high hf i h24

/-- A bit that the mask leaves out stays as it was. -/
theorem getLsbD_psrMerge_of_unmasked {p operand mask : Word} {i : Nat} (hi : i < 32) (hm : mask.getLsbD i = false) :
    (psrMerge p operand mask).getLsbD i = p.getLsbD i := by
  simp only [psrMerge, BitVec.getLsbD_or, BitVec.getLsbD_and, BitVec.getLsbD_not, hm, hi, decide_true, Bool.not_false,
    Bool.and_true, Bool.and_false, Bool.or_false]

/-- An `MSR` of an `spsr`, or of the `cpsr` without the `f` field, keeps the flags. -/
theorem msr_sameFlags {m : Mode} {spsr : Bool} {fields : BitVec 4} {operand : Word}
    (h : s.msr m spsr fields operand = .next t) (hw : (!spsr && fields.getLsbD 3) = false) : SameFlags s t := by
  rcases msr_eq_next h with ⟨-, v, ha, -⟩ | ⟨rfl, new, rfl, -, -, -, ha⟩
  · exact .of_advance ha rfl
  · obtain ⟨-, rfl⟩ := advance_eq_next.1 ha
    exact .of_bits fun i h28 h32 =>
      getLsbD_psrMerge_of_unmasked h32 (getLsbD_cpsrMask_high m hw i (by omega))

/-- The destination of a data-processing instruction without `S` keeps the flags. -/
theorem putResult_sameFlags {m : Mode} {rd : Reg} {o : AluOut} (h : s.putResult m false rd o = .next t) :
    SameFlags s t := by
  rcases putResult_eq_next h with ⟨-, hst, -⟩ | ⟨-, -, -, rfl⟩ | ⟨-, hst, -⟩ | ⟨-, -, h⟩
  · cases hst
  · exact .of_cpsr rfl
  · cases hst
  · exact .of_advance h (State.setReg_cpsr ..)

/-- A data-processing instruction with `Rd` and `Rn` and without `S` keeps the flags. -/
theorem dataProcess_sameFlags {rd rn : Reg} {op2 : Operand2} {f : Word → Word → Bool → AluOut}
    (h : dataProcess c false rd rn op2 s f = .next t) : SameFlags s t := by
  rcases dataProcess_eq_next h with ha | ⟨m, o, -, hp⟩
  · exact .of_advance ha rfl
  · exact putResult_sameFlags hp

/-- A move without `S` keeps the flags. -/
theorem moveOp_sameFlags {rd : Reg} {op2 : Operand2} {f : Word → Bool → AluOut}
    (h : moveOp c false rd op2 s f = .next t) : SameFlags s t := by
  rcases moveOp_eq_next h with ha | ⟨m, o, -, hp⟩
  · exact .of_advance ha rfl
  · exact putResult_sameFlags hp

/-- A 32-bit multiply without `S` keeps the flags. -/
theorem multiply_sameFlags {rd : Reg} {misuse : Bool} {f : Mode → Word}
    (h : multiply c false rd misuse s f = .next t) : SameFlags s t := by
  rcases multiply_eq_next h with ha | ⟨m, -, hp⟩
  · exact .of_advance ha rfl
  · exact .of_advance hp (State.setReg_cpsr ..)

/-- A long multiply without `S` keeps the flags. -/
theorem multiplyLong_sameFlags {rdLo rdHi rm rs : Reg} {f : Mode → BitVec 64}
    (h : multiplyLong c false rdLo rdHi rm rs s f = .next t) : SameFlags s t := by
  rcases multiplyLong_eq_next h with ha | ⟨m, lo, hi, -, hp⟩
  · exact .of_advance ha rfl
  · exact .of_advance hp (by rw [State.setReg_cpsr, State.setReg_cpsr])

/-- Data Abort from a single transfer keeps the flags (R225). -/
theorem transferAbort_sameFlags (s : State) (m : Mode) (ix : Index) (rn : Reg) (v : Word) :
    SameFlags s (s.transferAbort m ix rn v) := by
  obtain ⟨u, hu, rfl | rfl⟩ := transferAbort_eq (s := s) m ix rn v
  · rw [hu]; exact .raise rfl _
  · rw [hu]; exact .raise (writeBack_cpsr ..) _

/-- A single load keeps the flags, and so does its abort. -/
theorem loadSingle_sameFlags {ix : Index} {up : Bool} {rd rn : Reg} {misuse : Bool} {sz : Size} {extend : Word → Word}
    {offset : Mode → Word} (h : loadSingle c ix up rd rn misuse sz extend s offset = .next t) : SameFlags s t := by
  rcases loadSingle_eq_next h with ha | ⟨m, sum, v, -, rfl | rfl | ha⟩
  · exact .of_advance ha rfl
  · exact transferAbort_sameFlags s m ix rn sum
  · exact .of_cpsr (writeBack_cpsr ..)
  · exact .of_advance ha (by rw [writeBack_cpsr, State.setReg_cpsr])

/-- A single store keeps the flags, and so does its abort. -/
theorem storeSingle_sameFlags {ix : Index} {up : Bool} {rd rn : Reg} {misuse : Bool} {sz : Size}
    {offset : Mode → Word} (h : storeSingle c ix up rd rn misuse sz s offset = .next t) : SameFlags s t := by
  rcases storeSingle_eq_next h with ha | ⟨m, sum, -, rfl | ⟨addr, v, -, ha⟩⟩
  · exact .of_advance ha rfl
  · exact transferAbort_sameFlags s m ix rn sum
  · exact .of_advance ha (by rw [writeBack_cpsr, State.poke_cpsr])

/-- The end of a block transfer keeps the flags where its loop kept the `cpsr` (R265, R268). -/
theorem finishBlock_sameFlags {m : Mode} {wb : Bool} {rn : Reg} {b written : Word} {e : BlockEnd}
    (h : finishBlock m wb rn b written e = .next t) (he : ∀ u, e.state? = some u → u.cpsr = s.cpsr) :
    SameFlags s t := by
  have hwb : ∀ u : State, u.cpsr = s.cpsr → (if wb then u.setReg m rn written else u).cpsr = s.cpsr := by
    intro u hu
    split
    · rw [State.setReg_cpsr, hu]
    · exact hu
  rcases finishBlock_eq_next h with ⟨u, v, rfl, rfl⟩ | ⟨u, a, rfl, rfl⟩ | ⟨u, rfl, ha⟩
  · exact .raise (by rw [State.setReg_cpsr, he u rfl]) _
  · exact .of_cpsr (hwb u (he u rfl))
  · exact .of_advance ha (hwb u (he u rfl))

/-- An `LDM` keeps the flags, and so does its abort. -/
theorem blockLoad_sameFlags {bm : BlockMode} {wb : Bool} {rn : Reg} {list : BitVec 16} {misuse : Bool}
    (h : blockTransfer c bm wb rn list misuse s loadWords = .next t) : SameFlags s t := by
  rcases blockTransfer_eq_next h with ha | ⟨m, start, written, -, hf⟩
  · exact .of_advance ha rfl
  · refine finishBlock_sameFlags hf fun u hu => ?_
    obtain ⟨regs, rfl⟩ := loadWords_frame m _ _ s u hu
    rfl

/-- An `STM` keeps the flags, and so does its abort. -/
theorem blockStore_sameFlags {bm : BlockMode} {wb : Bool} {rn : Reg} {list : BitVec 16} {misuse : Bool}
    (h : blockTransfer c bm wb rn list misuse s storeWords = .next t) : SameFlags s t := by
  rcases blockTransfer_eq_next h with ha | ⟨m, start, written, -, hf⟩
  · exact .of_advance ha rfl
  · refine finishBlock_sameFlags hf fun u hu => ?_
    obtain ⟨mem, stored, rfl, -⟩ := storeWords_frame m _ _ s u hu
    rfl

/-- An instruction keeps the flags if its body does. -/
theorem whenPassed_sameFlags {body : Mode → Out} (h : whenPassed c s body = .next t)
    (hb : ∀ m, body m = .next t → SameFlags s t) : SameFlags s t := by
  obtain ⟨m, -, ⟨-, hx⟩ | ⟨-, ha⟩⟩ := whenPassed_eq_next h
  · exact hb m hx
  · exact .of_advance ha rfl

/-- `MRS` keeps the flags. -/
theorem execMrs_sameFlags {spsr : Bool} {rd : Reg} (h : execMrs c spsr rd s = .next t) : SameFlags s t := by
  refine whenPassed_sameFlags h fun m hx => ?_
  split at hx
  · cases hx
  · split at hx
    · split at hx
      · cases hx
      · exact .of_advance hx (State.setReg_cpsr ..)
    · exact .of_advance hx (State.setReg_cpsr ..)

/-- Settles O55: each shape of instruction, in the forms that R44 does not name, keeps the flags. -/
theorem flagWriters : Obligations.FlagWriters := by
  intro i s t h hw
  cases i with
  | b => exact whenPassed_sameFlags h fun m hx => by cases hx; exact .of_cpsr rfl
  | bl => exact whenPassed_sameFlags h fun m hx => by cases hx; exact .of_cpsr (State.setReg_cpsr ..)
  | swi => exact whenPassed_sameFlags h fun m hx => by cases hx; exact .raise rfl _
  | and | eor | sub | rsb | add | adc | sbc | rsc | orr | bic =>
    simp only [exec, execAnd, execEor, execSub, execRsb, execAdd, execAdc, execSbc, execRsc, execOrr, execBic] at h
    cases hw
    exact dataProcess_sameFlags h
  | mov | mvn =>
    simp only [exec, execMov, execMvn] at h
    cases hw
    exact moveOp_sameFlags h
  | tst | teq | cmp | cmn => cases hw
  | mul | mla =>
    simp only [exec, execMul, execMla] at h
    cases hw
    exact multiply_sameFlags h
  | umull | umlal | smull | smlal =>
    simp only [exec, execUmull, execUmlal, execSmull, execSmlal] at h
    cases hw
    exact multiplyLong_sameFlags h
  | ldr | ldrb | ldrh | ldrsb | ldrsh =>
    simp only [exec, execLdr, execLdrb, execLdrh, execLdrsb, execLdrsh] at h
    exact loadSingle_sameFlags h
  | str | strb | strh =>
    simp only [exec, execStr, execStrb, execStrh] at h
    exact storeSingle_sameFlags h
  | ldmia | ldmib | ldmda | ldmdb =>
    simp only [exec, execLdmia, execLdmib, execLdmda, execLdmdb] at h
    exact blockLoad_sameFlags h
  | stmia | stmib | stmda | stmdb =>
    simp only [exec, execStmia, execStmib, execStmda, execStmdb] at h
    exact blockStore_sameFlags h
  | mrs => exact execMrs_sameFlags h
  | msrReg =>
    refine whenPassed_sameFlags h fun m hx => ?_
    split at hx
    · cases hx
    · exact msr_sameFlags hx hw
  | msrImm => exact whenPassed_sameFlags h fun m hx => msr_sameFlags hx hw

end Sys2Proof.Machine

namespace Sys2Proof.Machine
/-! Where the address space ends a run (R31, R68, R69, R261): what each shape of instruction comes to outside `MEM_MAP`,
past the top and at the last word. -/

open Claims

variable {s : State} {m : Mode} {c : Cond}

/-! ### Single transfers -/

section
variable {ix : Index} {up : Bool} {rd rn : Reg} {misuse : Bool} {sz : Size} {extend : Word → Word}
  {offset : Mode → Word} {addr : Word} {f : Fault}

/-- A single load stops with the fault of its access (R224). -/
theorem loadSingle_of_fault (hp : Passes s m c) (hmis : misuse = false)
    (haddr : accessAddr ix (s.rd m rn) (indexed up (s.rd m rn) (offset m)) = addr)
    (hal : isAligned addr (sizeBytes sz) = true) (hl : s.load addr sz = .fault f) :
    loadSingle c ix up rd rn misuse sz extend s offset = .fault f := by
  rw [loadSingle, whenPassed_of_passed hp.1 hp.2]
  simp [hmis, haddr, hal, hl]

/-- A single store stops with the fault of its access (R224). -/
theorem storeSingle_of_fault (hp : Passes s m c) (hmis : misuse = false)
    (haddr : accessAddr ix (s.rd m rn) (indexed up (s.rd m rn) (offset m)) = addr)
    (hal : isAligned addr (sizeBytes sz) = true) (hl : s.store addr sz (s.storeValue m rd) = .fault f) :
    storeSingle c ix up rd rn misuse sz s offset = .fault f := by
  rw [storeSingle, whenPassed_of_passed hp.1 hp.2]
  simp [hmis, haddr, hal, hl]

/-- A single load of a register other than r15 whose access is done ends with `pc + 4`, the loaded register and then the
base written (R224). -/
theorem loadSingle_of_done {v : Word} (hp : Passes s m c) (hmis : misuse = false) (hrd : rd ≠ .r15)
    (haddr : accessAddr ix (s.rd m rn) (indexed up (s.rd m rn) (offset m)) = addr)
    (hal : isAligned addr (sizeBytes sz) = true) (hl : s.load addr sz = .done v) :
    loadSingle c ix up rd rn misuse sz extend s offset =
      ((s.setReg m rd (extend v)).writeBack m ix rn (indexed up (s.rd m rn) (offset m))).advance := by
  rw [loadSingle, whenPassed_of_passed hp.1 hp.2]
  simp [hmis, haddr, hal, hl, hrd]

/-- A single store whose access is done ends with `pc + 4`, the base written (R224). -/
theorem storeSingle_of_done {t : State} (hp : Passes s m c) (hmis : misuse = false)
    (haddr : accessAddr ix (s.rd m rn) (indexed up (s.rd m rn) (offset m)) = addr)
    (hal : isAligned addr (sizeBytes sz) = true) (hl : s.store addr sz (s.storeValue m rd) = .done t) :
    storeSingle c ix up rd rn misuse sz s offset =
      (t.writeBack m ix rn (indexed up (s.rd m rn) (offset m))).advance := by
  rw [storeSingle, whenPassed_of_passed hp.1 hp.2]
  simp [hmis, haddr, hal, hl]

/-- A single load outside `MEM_MAP` that does not abort (R68). -/
theorem loadSingle_of_unmapped (hp : Passes s m c) (hmis : misuse = false)
    (haddr : accessAddr ix (s.rd m rn) (indexed up (s.rd m rn) (offset m)) = addr)
    (hal : isAligned addr (sizeBytes sz) = true) (hab : s.aborts .read addr sz = false)
    (hmap : s.admits addr (sizeBytes sz) = false) :
    loadSingle c ix up rd rn misuse sz extend s offset = .fault (.unmapped addr) :=
  loadSingle_of_fault hp hmis haddr hal (load_of_unmapped hab hmap)

/-- A single store outside `MEM_MAP` that does not abort (R68). -/
theorem storeSingle_of_unmapped (hp : Passes s m c) (hmis : misuse = false)
    (haddr : accessAddr ix (s.rd m rn) (indexed up (s.rd m rn) (offset m)) = addr)
    (hal : isAligned addr (sizeBytes sz) = true) (hab : s.aborts .write addr sz = false)
    (hmap : s.admits addr (sizeBytes sz) = false) :
    storeSingle c ix up rd rn misuse sz s offset = .fault (.unmapped addr) :=
  storeSingle_of_fault hp hmis haddr hal (store_of_unmapped hab hmap)

end

/-- All eight single transfers stop outside `MEM_MAP`. -/
theorem unmappedTransferStops : UnmappedTransferStops := by
  intro s m c ix up rd rn hp stops
  refine ⟨fun off => ⟨fun hmis => ?_, fun hmis => ?_⟩, fun off hmis => ?_⟩
  · exact ⟨loadSingle_of_unmapped hp hmis rfl, storeSingle_of_unmapped hp hmis rfl⟩
  · exact ⟨loadSingle_of_unmapped hp hmis rfl, storeSingle_of_unmapped hp hmis rfl⟩
  · exact ⟨loadSingle_of_unmapped hp hmis rfl, storeSingle_of_unmapped hp hmis rfl,
      loadSingle_of_unmapped hp hmis rfl, loadSingle_of_unmapped hp hmis rfl⟩

/-! ### Block transfers -/

/-- The `LDM` of an addressing mode is a block transfer with the loop of loads. -/
theorem exec_ldm (bm : BlockMode) (c : Cond) (wb : Bool) (rn : Reg) (list : BitVec 16) (s : State) :
    exec (ldm bm c wb rn list) s = blockTransfer c bm wb rn list (ldmMisuse wb rn list) s loadWords := by
  cases bm <;> rfl

/-- The `STM` of an addressing mode is a block transfer with the loop of stores. -/
theorem exec_stm (bm : BlockMode) (c : Cond) (wb : Bool) (rn : Reg) (list : BitVec 16) (s : State) :
    exec (stm bm c wb rn list) s = blockTransfer c bm wb rn list (stmMisuse wb rn list) s storeWords := by
  cases bm <;> rfl

/-- The loop of a block transfer runs over as many registers as the list has bits set (R261). -/
theorem regsOf_length_eq_listSize (list : BitVec 16) : (regsOf list).length = listSize list := regsOf_length list

/-- The registers the loop runs over are those of the list. -/
theorem mem_regsOf {list : BitVec 16} {r : Reg} (h : r ∈ regsOf list) : inList list r = true :=
  (List.mem_filter.1 h).2

section
variable {bm : BlockMode} {wb : Bool} {rn : Reg} {list : BitVec 16} {misuse : Bool}
  {loop : Mode → List Reg → Word → State → BlockEnd}

/-- A block transfer from an aligned base that stays below the top runs its loop and then its end (R261, R265). -/
theorem blockTransfer_of_fits (hp : Passes s m c) (hmis : misuse = false) (hal : isAligned (s.rd m rn) 4 = true)
    (hfit : (blockStart bm (s.rd m rn) (listSize list)).toNat + 4 * listSize list ≤ 2 ^ 32) :
    blockTransfer c bm wb rn list misuse s loop =
      finishBlock m wb rn (s.rd m rn) (blockWriteBack bm (s.rd m rn) (listSize list))
        (loop m (regsOf list) (blockStart bm (s.rd m rn) (listSize list)) s) := by
  rw [blockTransfer, whenPassed_of_passed hp.1 hp.2]
  simp only [hmis, hal, regsOf_length_eq_listSize, Bool.false_eq_true, Bool.not_true, if_false]
  rw [if_neg (by omega)]

/-- A block transfer from an aligned base that would pass the top (R69, R261). -/
theorem blockTransfer_of_pastTop (hp : Passes s m c) (hmis : misuse = false) (hal : isAligned (s.rd m rn) 4 = true)
    (htop : 2 ^ 32 < (blockStart bm (s.rd m rn) (listSize list)).toNat + 4 * listSize list) :
    blockTransfer c bm wb rn list misuse s loop =
      .fault (.blockPastTop (blockStart bm (s.rd m rn) (listSize list))) := by
  rw [blockTransfer, whenPassed_of_passed hp.1 hp.2]
  simp only [hmis, hal, regsOf_length_eq_listSize, Bool.false_eq_true, Bool.not_true, if_false]
  rw [if_pos htop]

end

/-- The loop of `LDM` stops at the first word outside `MEM_MAP`, where those before it can be accessed (R68). -/
theorem loadWords_of_unmapped {rs : List Reg} {start : Word} {j : Nat} (hj : j < rs.length)
    (h15 : ∀ k < j, rs[k]? ≠ some .r15) (hacc : BlockAccessible s .read start j)
    (hab : s.aborts .read (wordAt start j) .word = false) (hmap : s.admits (wordAt start j) 4 = false) :
    loadWords m rs start s = .fault (.unmapped (wordAt start j)) := by
  obtain ⟨regs, hpre⟩ := loadWords_prefix m j rs start s hj.le h15 hacc.2
  have hl : (s.setRegs regs).load (start + BitVec.ofNat 32 (4 * j)) .word = .fault (.unmapped (wordAt start j)) :=
    load_of_unmapped hab hmap
  rw [hpre, List.drop_eq_getElem_cons hj, loadWords]
  simp only [hl]

/-- The loop of `STM` stops at the first word outside `MEM_MAP`, where those before it can be accessed (R68). -/
theorem storeWords_of_unmapped {rs : List Reg} {start : Word} {j : Nat} (hj : j < rs.length)
    (hacc : BlockAccessible s .write start j) (hab : s.aborts .write (wordAt start j) .word = false)
    (hmap : s.admits (wordAt start j) 4 = false) :
    storeWords m rs start s = .fault (.unmapped (wordAt start j)) := by
  obtain ⟨mem, stored, hpre⟩ := storeWords_prefix m j rs start s hj.le hacc.2
  have hl (v : Word) : (s.setMem mem stored).store (start + BitVec.ofNat 32 (4 * j)) .word v =
      .fault (.unmapped (wordAt start j)) :=
    store_of_unmapped hab hmap
  rw [hpre, List.drop_eq_getElem_cons hj, storeWords]
  simp only [hl]

/-- All eight block transfers stop at a word outside `MEM_MAP`; r15 stands last in the list, so that no word before that
one is r15's. -/
theorem unmappedBlockStops : UnmappedBlockStops := by
  intro bm s m c wb rn list j hp hal start hfit hj stops
  have hlen : j < (regsOf list).length := by rw [regsOf_length_eq_listSize]; exact hj
  have h15 : ∀ k < j, (regsOf list)[k]? ≠ some .r15 := fun k hk h => by
    have := regsOf_getElem_r15 list k h
    omega
  refine ⟨fun hmis hacc hab hmap => ?_, fun hmis hacc hab hmap => ?_⟩
  · rw [exec_ldm, blockTransfer_of_fits hp hmis hal hfit, loadWords_of_unmapped hlen h15 hacc hab hmap]
    rfl
  · rw [exec_stm, blockTransfer_of_fits hp hmis hal hfit, storeWords_of_unmapped hlen hacc hab hmap]
    rfl

/-- All eight block transfers stop where the block would pass the top. -/
theorem blockPastTopStops : BlockPastTopStops := by
  intro bm s m c wb rn list hp hal start htop
  refine ⟨fun hmis => ?_, fun hmis => ?_⟩
  · rw [exec_ldm, blockTransfer_of_pastTop hp hmis hal htop]
  · rw [exec_stm, blockTransfer_of_pastTop hp hmis hal htop]

/-- The loop of `LDM` over accessible words, r15 not among the registers: it ends having changed registers only. -/
theorem loadWords_of_accessible {rs : List Reg} {start : Word} (h15 : Reg.r15 ∉ rs)
    (hacc : BlockAccessible s .read start rs.length) :
    ∃ regs, loadWords m rs start s = .done (s.setRegs regs) none := by
  obtain ⟨regs, hpre⟩ := loadWords_prefix m rs.length rs start s le_rfl
    (fun k _ h => h15 (List.mem_of_getElem? h)) hacc.2
  exact ⟨regs, by rw [hpre, List.drop_length]; rfl⟩

/-- The loop of `STM` over accessible words: it ends having changed memory and its marks only. -/
theorem storeWords_of_accessible {rs : List Reg} {start : Word} (hacc : BlockAccessible s .write start rs.length) :
    ∃ mem stored, storeWords m rs start s = .done (s.setMem mem stored) none := by
  obtain ⟨mem, stored, hpre⟩ := storeWords_prefix m rs.length rs start s le_rfl hacc.2
  exact ⟨mem, stored, by rw [hpre, List.drop_length]; rfl⟩

/-! ### The fetch -/

/-- A fetch from outside `MEM_MAP` that does not abort stops (R68). -/
theorem unmappedFetchStops : UnmappedFetchStops := by
  intro s hirq hlegal hab hmap
  obtain ⟨hpc, hmode, hT, -⟩ := legal_iff.1 hlegal
  have hfetch : s.fetch = .fault (.unmapped s.pc) := by
    simp [State.fetch, hT, psrJ_of_legal hlegal, hpc, Option.isNone_eq_false_iff.2 hmode, hab, hmap]
  simp [step, stepCore, hirq, hfetch, tickOut]

/-! ### The last word of the address space -/

/-- A byte, halfword or signed transfer that R227 does not turn away is of a register other than r15. -/
theorem ne_r15_of_narrow {ix : Index} {rd rn : Reg} {rm : Option Reg}
    (h : narrowTransferMisuse ix rd rn rm = false) : rd ≠ .r15 := by
  rintro rfl
  simp [narrowTransferMisuse] at h

section
variable (hpc : s.pc = 0xFFFFFFFC) (hp : Passes s m c)
include hpc

/-- At the last word a result for a register other than r15 stops, with or without `S` (R31). -/
theorem putResult_of_top {st : Bool} {rd : Reg} {o : AluOut} (hrd : rd ≠ .r15) :
    s.putResult m st rd o = .fault .pcPastTop := by
  rw [State.putResult, if_neg hrd]
  split
  · exact advance_of_top (by rw [State.setAluFlags_pc, State.setReg_pc, hpc])
  · exact advance_of_top (by rw [State.setReg_pc, hpc])

/-- At the last word the end of a block transfer that loaded no r15 stops (R31). -/
theorem finishBlock_of_top {u : State} {wb : Bool} {rn : Reg} {b written : Word} (hu : u.pc = s.pc) :
    finishBlock m wb rn b written (.done u none) = .fault .pcPastTop := by
  refine advance_of_top ?_
  split
  · rw [State.setReg_pc, hu, hpc]
  · rw [hu, hpc]

/-- At the last word an `MSR` that no check turns away stops (R31). -/
theorem msr_of_top {spsr : Bool} {fields : BitVec 4} {operand : Word} (h : MsrAllowed s m spsr fields operand) :
    s.msr m spsr fields operand = .fault .pcPastTop := by
  unfold State.msr
  cases spsr with
  | true =>
    obtain ⟨old, hold⟩ := Option.ne_none_iff_exists'.1 h
    simp only [if_true, State.msrSpsr, hold]
    exact advance_of_top hpc
  | false =>
    obtain ⟨hR, hT, hm⟩ := h
    simp only [Bool.false_eq_true, if_false, State.msrCpsr, hR, hT, bne_self_eq_false, Option.isNone_iff_eq_none, hm]
    exact advance_of_top hpc

include hp

/-- At the last word a data-processing instruction with a destination other than r15 stops. -/
theorem dataProcess_of_top {st : Bool} {rd rn : Reg} {op2 : Operand2} {f : Word → Word → Bool → AluOut}
    (hmis : op2.pcMisuse [rd, rn] = false) (hrd : rd ≠ .r15) :
    dataProcess c st rd rn op2 s f = .fault .pcPastTop := by
  rw [dataProcess, whenPassed_of_passed hp.1 hp.2, hmis]
  exact putResult_of_top hpc hrd

/-- At the last word a move to a register other than r15 stops. -/
theorem moveOp_of_top {st : Bool} {rd : Reg} {op2 : Operand2} {f : Word → Bool → AluOut}
    (hmis : op2.pcMisuse [rd] = false) (hrd : rd ≠ .r15) : moveOp c st rd op2 s f = .fault .pcPastTop := by
  rw [moveOp, whenPassed_of_passed hp.1 hp.2, hmis]
  exact putResult_of_top hpc hrd

/-- At the last word a comparison stops. -/
theorem compareOp_of_top {rn : Reg} {op2 : Operand2} {f : Word → Word → Bool → AluOut}
    (hmis : op2.pcMisuse [rn] = false) : compareOp c rn op2 s f = .fault .pcPastTop := by
  rw [compareOp, whenPassed_of_passed hp.1 hp.2, hmis]
  exact advance_of_top hpc

/-- At the last word a 32-bit multiply stops. -/
theorem multiply_of_top {st : Bool} {rd : Reg} {misuse : Bool} {f : Mode → Word} (hmis : misuse = false) :
    multiply c st rd misuse s f = .fault .pcPastTop := by
  rw [multiply, whenPassed_of_passed hp.1 hp.2, hmis]
  have hpc' : (s.setReg m rd (f m)).pc = 0xFFFFFFFC := by rw [State.setReg_pc, hpc]
  cases st with
  | true => exact advance_of_top hpc'
  | false => exact advance_of_top hpc'

/-- At the last word a long multiply stops. -/
theorem multiplyLong_of_top {st : Bool} {rdLo rdHi rm rs : Reg} {f : Mode → BitVec 64}
    (hmis : mulLongMisuse rdLo rdHi rm rs = false) :
    multiplyLong c st rdLo rdHi rm rs s f = .fault .pcPastTop := by
  rw [multiplyLong, whenPassed_of_passed hp.1 hp.2, hmis]
  have hpc' (lo hi : Word) : ((s.setReg m rdLo lo).setReg m rdHi hi).pc = 0xFFFFFFFC := by
    rw [State.setReg_pc, State.setReg_pc, hpc]
  cases st with
  | true => exact advance_of_top (hpc' _ _)
  | false => exact advance_of_top (hpc' _ _)

/-- At the last word a single load of a register other than r15 stops. -/
theorem loadSingle_of_top {ix : Index} {up : Bool} {rd rn : Reg} {misuse : Bool} {sz : Size} {extend : Word → Word}
    {offset : Mode → Word} (hmis : misuse = false) (hrd : rd ≠ .r15)
    (hacc : Accessible s .read (accessAddr ix (s.rd m rn) (indexed up (s.rd m rn) (offset m))) sz) :
    loadSingle c ix up rd rn misuse sz extend s offset = .fault .pcPastTop := by
  obtain ⟨hal, hab, hmap⟩ := hacc
  rw [loadSingle_of_done hp hmis hrd rfl hal (load_eq_done.2 ⟨hab, hmap, rfl⟩)]
  exact advance_of_top (by rw [writeBack_pc, State.setReg_pc, hpc])

/-- At the last word a byte, halfword or signed load stops: its register is not r15 (R227). -/
theorem narrowLoad_of_top {ix : Index} {up : Bool} {rd rn : Reg} {rm : Option Reg} {sz : Size} {extend : Word → Word}
    {offset : Mode → Word} (hmis : narrowTransferMisuse ix rd rn rm = false)
    (hacc : Accessible s .read (accessAddr ix (s.rd m rn) (indexed up (s.rd m rn) (offset m))) sz) :
    loadSingle c ix up rd rn (narrowTransferMisuse ix rd rn rm) sz extend s offset = .fault .pcPastTop :=
  loadSingle_of_top hpc hp hmis (ne_r15_of_narrow hmis) hacc

/-- At the last word a single store stops. -/
theorem storeSingle_of_top {ix : Index} {up : Bool} {rd rn : Reg} {misuse : Bool} {sz : Size} {offset : Mode → Word}
    (hmis : misuse = false)
    (hacc : Accessible s .write (accessAddr ix (s.rd m rn) (indexed up (s.rd m rn) (offset m))) sz) :
    storeSingle c ix up rd rn misuse sz s offset = .fault .pcPastTop := by
  obtain ⟨hal, hab, hmap⟩ := hacc
  rw [storeSingle_of_done hp hmis rfl hal (store_eq_done.2 ⟨hab, hmap, rfl⟩)]
  exact advance_of_top (by rw [writeBack_pc, State.poke_pc, hpc])

/-- At the last word an `LDM` without r15 in its list stops. -/
theorem blockLoad_of_top {bm : BlockMode} {wb : Bool} {rn : Reg} {list : BitVec 16} {misuse : Bool}
    (hmis : misuse = false) (h : inList list .r15 = false ∧ BlockReachable s m .read bm rn list) :
    blockTransfer c bm wb rn list misuse s loadWords = .fault .pcPastTop := by
  obtain ⟨h15, hal, hacc⟩ := h
  have hno : Reg.r15 ∉ regsOf list := fun hmem => by rw [mem_regsOf hmem] at h15; cases h15
  rw [blockTransfer_of_fits hp hmis hal hacc.1]
  rw [← regsOf_length_eq_listSize] at hacc ⊢
  obtain ⟨regs, hloop⟩ := loadWords_of_accessible (m := m) hno hacc
  rw [hloop]
  exact finishBlock_of_top hpc rfl

/-- At the last word an `STM` stops. -/
theorem blockStore_of_top {bm : BlockMode} {wb : Bool} {rn : Reg} {list : BitVec 16} {misuse : Bool}
    (hmis : misuse = false) (h : BlockReachable s m .write bm rn list) :
    blockTransfer c bm wb rn list misuse s storeWords = .fault .pcPastTop := by
  obtain ⟨hal, hacc⟩ := h
  rw [blockTransfer_of_fits hp hmis hal hacc.1]
  rw [← regsOf_length_eq_listSize] at hacc ⊢
  obtain ⟨mem, stored, hloop⟩ := storeWords_of_accessible (m := m) hacc
  rw [hloop]
  exact finishBlock_of_top hpc rfl

/-- At the last word an `MRS` to a register other than r15, of a status register that can be read, stops. -/
theorem execMrs_of_top {spsr : Bool} {rd : Reg} (hrd : rd ≠ .r15) (h : spsr = true → s.spsr.read m ≠ none) :
    execMrs c spsr rd s = .fault .pcPastTop := by
  rw [execMrs, whenPassed_of_passed hp.1 hp.2, if_neg hrd]
  cases spsr with
  | true =>
    obtain ⟨v, hv⟩ := Option.ne_none_iff_exists'.1 (h rfl)
    simp only [if_true, hv]
    exact advance_of_top (by rw [State.setReg_pc, hpc])
  | false => exact advance_of_top (by rw [State.setReg_pc, hpc])

/-- At the last word an `MSR` of a register other than r15 that no check turns away stops. -/
theorem execMsrReg_of_top {spsr : Bool} {fields : BitVec 4} {rm : Reg} (hrm : rm ≠ .r15)
    (h : MsrAllowed s m spsr fields (s.rd m rm)) : execMsrReg c spsr fields rm s = .fault .pcPastTop := by
  rw [execMsrReg, whenPassed_of_passed hp.1 hp.2, if_neg hrm]
  exact msr_of_top hpc h

/-- At the last word an `MSR` of an immediate that no check turns away stops. -/
theorem execMsrImm_of_top {spsr : Bool} {fields rot : BitVec 4} {imm8 : BitVec 8}
    (h : MsrAllowed s m spsr fields (rotatedImm rot imm8)) :
    execMsrImm c spsr fields rot imm8 s = .fault .pcPastTop := by
  rw [execMsrImm, whenPassed_of_passed hp.1 hp.2]
  exact msr_of_top hpc h

end

/-- At the last word every instruction that passes and does not write r15 stops (R31). -/
theorem exec_of_top {i : Instr} (hpc : s.pc = 0xFFFFFFFC) (hp : Passes s m i.cond) (h : WritesNoPc s m i) :
    exec i s = .fault .pcPastTop := by
  obtain ⟨hwf, hw⟩ := h
  cases i with
  | b | bl | swi => exact hw.elim
  | and | eor | sub | rsb | add | adc | sbc | rsc | orr | bic =>
    simp only [exec, execAnd, execEor, execSub, execRsb, execAdd, execAdc, execSbc, execRsc, execOrr, execBic]
    exact dataProcess_of_top hpc hp (by simpa [Instr.wellFormed] using hwf) hw
  | mov | mvn =>
    simp only [exec, execMov, execMvn]
    exact moveOp_of_top hpc hp (by simpa [Instr.wellFormed] using hwf) hw
  | tst | teq | cmp | cmn =>
    simp only [exec, execTst, execTeq, execCmp, execCmn]
    exact compareOp_of_top hpc hp (by simpa [Instr.wellFormed] using hwf)
  | mul | mla =>
    simp only [exec, execMul, execMla]
    exact multiply_of_top hpc hp (by simpa [Instr.wellFormed] using hwf)
  | umull | umlal | smull | smlal =>
    simp only [exec, execUmull, execUmlal, execSmull, execSmlal]
    exact multiplyLong_of_top hpc hp (by simpa [Instr.wellFormed] using hwf)
  | ldr => exact loadSingle_of_top hpc hp (by simpa [Instr.wellFormed] using hwf) hw.1 hw.2
  | ldrb | ldrh | ldrsb | ldrsh =>
    simp only [exec, execLdrb, execLdrh, execLdrsb, execLdrsh]
    exact narrowLoad_of_top hpc hp (by simpa [Instr.wellFormed] using hwf) hw
  | str | strb | strh =>
    simp only [exec, execStr, execStrb, execStrh]
    exact storeSingle_of_top hpc hp (by simpa [Instr.wellFormed] using hwf) hw
  | ldmia | ldmib | ldmda | ldmdb =>
    simp only [exec, execLdmia, execLdmib, execLdmda, execLdmdb]
    exact blockLoad_of_top hpc hp (by simpa [Instr.wellFormed] using hwf) hw
  | stmia | stmib | stmda | stmdb =>
    simp only [exec, execStmia, execStmib, execStmda, execStmdb]
    exact blockStore_of_top hpc hp (by simpa [Instr.wellFormed] using hwf) hw
  | mrs => exact execMrs_of_top hpc hp (by simpa [Instr.wellFormed] using hwf) hw
  | msrReg => exact execMsrReg_of_top hpc hp (by simpa [Instr.wellFormed] using hwf) hw
  | msrImm => exact execMsrImm_of_top hpc hp hw

/-- A fetched word whose condition fails only moves the pc, whatever its other bits are (R131). -/
theorem step_of_failed {w : Word} (hf : Fetches s w) (hc : condOf w = some c)
    (hfail : conditionPassed c s.cpsr = false) : step s = tickOut s.advance := by
  have hissue : issue w s.cpsr = .skip := by simp [issue, hc, hfail]
  obtain ⟨hirq, hword⟩ := hf
  simp only [step, stepCore, hirq, hword, hissue]

/-- At the last word there is no `pc + 4` to go to. -/
theorem lastWordStops : LastWordStops := by
  refine ⟨fun s i m hpc hp h => exec_of_top hpc hp h, fun s i m hpc hm hc => ?_, fun s w c hpc hf hw hc => ?_⟩
  · rw [exec_of_failed hm hc, advance_of_top hpc]
  · rw [step_of_failed hf hw hc, advance_of_top hpc]
    rfl

/-- Settles O60, from its five families. -/
theorem addressSpaceStops : Obligations.AddressSpaceStops :=
  ⟨unmappedFetchStops, unmappedTransferStops, unmappedBlockStops, blockPastTopStops, lastWordStops⟩

end Sys2Proof.Machine

namespace Sys2Proof
/-! The decoder keeps the condition field: an instruction decoded under a condition has that condition (R90, R112). -/

/-- Where `d` is an instruction, its condition is `c`. -/
def Decoded.HasCond (c : Cond) (d : Decoded) : Prop := ∀ i, d = .instr i → i.cond = c

variable {c : Cond}

@[simp] theorem hasCond_instr (i : Instr) : (Decoded.instr i).HasCond c ↔ i.cond = c := by
  simp [Decoded.HasCond]

@[simp] theorem hasCond_undefined : Decoded.undefined.HasCond c := fun _ h => by cases h

@[simp] theorem hasCond_refused (why : Undecodable) : (Decoded.refused why).HasCond c := fun _ h => by cases h

/-- The check of the SBZ and SBO bits changes no condition (R114). -/
@[simp] theorem hasCond_unlessBits (bad : Bool) (i : Instr) :
    (unlessBits bad i).HasCond c ↔ bad = true ∨ i.cond = c := by
  cases bad <;> simp [unlessBits]

/-- Both branches of a test have the condition. -/
theorem hasCond_ite {p : Prop} [Decidable p] {a b : Decoded} (ha : a.HasCond c) (hb : b.HasCond c) :
    (if p then a else b).HasCond c := by
  split
  · exact ha
  · exact hb

variable (w : Word) (c : Cond)

/-- Format DP. -/
theorem hasCond_decodeDp (o : Operand2) : (decodeDp w c o).HasCond c := by
  unfold decodeDp
  dsimp only
  split <;> simp [Instr.cond]

/-- Formats MUL and MULL. -/
theorem hasCond_decodeMul : (decodeMul w c).HasCond c := by
  unfold decodeMul
  dsimp only
  split
  case h_7 => exact hasCond_ite (hasCond_refused _) (hasCond_refused _)
  all_goals simp [Instr.cond]

/-- Format LSH. -/
theorem hasCond_decodeHalf : (decodeHalf w c).HasCond c := by
  unfold decodeHalf
  dsimp only
  split
  · exact hasCond_refused _
  · split <;> simp [Instr.cond]

/-- Formats MRS and MSRR. -/
theorem hasCond_decodeMiscReg : (decodeMiscReg w c).HasCond c :=
  hasCond_ite (hasCond_ite ((hasCond_unlessBits _ _).2 (.inr rfl)) ((hasCond_unlessBits _ _).2 (.inr rfl)))
    (hasCond_ite (hasCond_refused _) (hasCond_refused _))

/-- Format MSRI. -/
theorem hasCond_decodeMiscImm : (decodeMiscImm w c).HasCond c :=
  hasCond_ite ((hasCond_unlessBits _ _).2 (.inr rfl)) (hasCond_refused _)

/-- Format LS. -/
theorem hasCond_decodeSingle (off : Offset) : (decodeSingle w c off).HasCond c := by
  unfold decodeSingle
  dsimp only
  split
  · exact hasCond_refused _
  · split <;> simp [Instr.cond]

/-- Format LSM. -/
theorem hasCond_decodeBlock : (decodeBlock w c).HasCond c := by
  refine hasCond_ite (hasCond_refused _) ?_
  split <;> simp [Instr.cond]

/-- An instruction decoded under a condition has that condition: the formats by bits 27:25 (R112). -/
theorem hasCond_decodeOpcode : (decodeOpcode w c).HasCond c := by
  unfold decodeOpcode
  split
  · exact hasCond_ite (hasCond_ite (hasCond_decodeMul w c) (hasCond_decodeHalf w c))
      (hasCond_ite (hasCond_decodeMiscReg w c) (hasCond_decodeDp w c _))
  · exact hasCond_ite (hasCond_decodeMiscImm w c) (hasCond_decodeDp w c _)
  · exact hasCond_decodeSingle w c _
  · exact hasCond_ite hasCond_undefined (hasCond_decodeSingle w c _)
  · exact hasCond_decodeBlock w c
  · exact hasCond_ite ((hasCond_instr _).2 rfl) ((hasCond_instr _).2 rfl)
  · exact hasCond_refused _
  · exact hasCond_ite ((hasCond_instr _).2 rfl) (hasCond_refused _)

/-- A word that decodes to an instruction has that instruction's condition in its condition field, and the rest of the
decoder reads the instruction from it. -/
theorem condOf_of_decode {w : Word} {i : Instr} (h : decode w = .instr i) :
    condOf w = some i.cond ∧ decodeOpcode w i.cond = .instr i := by
  unfold decode at h
  split at h
  · cases h
  · next c hc =>
    obtain rfl := hasCond_decodeOpcode w c i h
    exact ⟨hc, h⟩

/-- Four bytes as they lie in memory decode as the word they make (R62). -/
theorem decodeBytes_range (bigEndian : Bool) (get : Nat → Byte) :
    decodeBytes bigEndian ((List.range 4).map get) = decode (assemble bigEndian 4 get) := rfl

end Sys2Proof

namespace Sys2Proof.Machine
/-! The step up to the instruction (R45): no interrupt, the fetch, the issue. -/

open Claims

variable {s : State} {w : Word} {i : Instr}

/-- No interrupt is taken where each line is low or masked (R311 to R315). -/
theorem interrupt_eq_none (hfiq : s.env.fiqLine = false ∨ psrF s.cpsr = true)
    (hirq : s.env.irqLine = false ∨ psrI s.cpsr = true) : s.interrupt = none := by
  have hf : (s.env.fiqLine && !psrF s.cpsr) = false := by
    rcases hfiq with h | h <;> simp [h]
  have hi : (s.env.irqLine && !psrI s.cpsr) = false := by
    rcases hirq with h | h <;> simp [h]
  simp [State.interrupt, hf, hi]

/-- A fetch that passes every check of R45 steps 3 to 5 and R76 answers the word at the pc. -/
theorem fetch_eq_word (hT : psrT s.cpsr = false) (hJ : psrJ s.cpsr = false) (hm : s.mode ≠ none)
    (hacc : Accessible s .fetch s.pc .word) (hst : ∀ k < 4, s.pc.toNat + k ∉ s.storedTo) :
    s.fetch = .word (s.peek s.pc 4) := by
  obtain ⟨hal, hab, hmap⟩ := hacc
  have hmark : s.wasStored s.pc 4 = false := by
    simpa [State.wasStored] using hst
  simp only [sizeBytes] at hal hmap
  simp [State.fetch, hT, hJ, hal, hm, hab, hmap, hmark]

/-- A word that decodes to an instruction whose condition passes asks for that instruction (R45 steps 6 to 8). -/
theorem issue_of_passed {p : Word} (h : decode w = .instr i) (hc : conditionPassed i.cond p = true) :
    issue w p = .run i := by
  obtain ⟨hcond, hop⟩ := condOf_of_decode h
  simp [issue, hcond, hc, hop]

/-- A step that fetches a word that decodes to an instruction runs it, its condition passed or failed (R131). -/
theorem step_of_fetches {m : Mode} (hf : Fetches s w) (hm : s.mode = some m) (h : decode w = .instr i) :
    step s = tickOut (exec i s) := by
  cases hc : conditionPassed i.cond s.cpsr with
  | false =>
    obtain ⟨hcond, -⟩ := condOf_of_decode h
    rw [step_of_failed hf hcond hc, exec_of_failed hm hc]
  | true =>
    obtain ⟨hirq, hword⟩ := hf
    simp only [step, stepCore, hirq, hword, issue_of_passed h hc]

/-- Settles O8: the fetch answers the word that the four bytes make, and the step runs what it decodes to. -/
theorem stepRunsDecoded : Obligations.StepRunsDecoded := by
  intro s i hfiq hirq hT hJ hm hacc hst hdec
  obtain ⟨m, hmode⟩ := Option.ne_none_iff_exists'.1 hm
  rw [decodeBytes_range] at hdec
  exact step_of_fetches ⟨interrupt_eq_none hfiq hirq, fetch_eq_word hT hJ hm hacc hst⟩ hmode hdec

/-! ### The register banks -/

/-- The registers below r8 are not banked (R24). -/
theorem physReg_unbanked (m : Mode) {r : Reg} (h : r.index ≤ 7) :
    physReg r m = [.r0, .r1, .r2, .r3, .r4, .r5, .r6, .r7][r.index]? := by
  cases r with
  | r0 | r1 | r2 | r3 | r4 | r5 | r6 | r7 => rfl
  | r8 | r9 | r10 | r11 | r12 | r13 | r14 | r15 => exact absurd h (by decide)

/-- Outside FIQ mode r8 to r12 are those of the User bank (R24). -/
theorem physReg_high_of_ne_fiq {m : Mode} {r : Reg} (h8 : 8 ≤ r.index) (h12 : r.index ≤ 12) (hm : m ≠ .fiq) :
    physReg r m = [.r8, .r9, .r10, .r11, .r12][r.index - 8]? := by
  cases r with
  | r8 | r9 | r10 | r11 | r12 =>
    cases m with
    | fiq => exact absurd rfl hm
    | user | irq | supervisor | abort | undef | system => rfl
  | r13 | r14 | r15 => exact absurd h12 (by decide)
  | r0 | r1 | r2 | r3 | r4 | r5 | r6 | r7 => exact absurd h8 (by decide)

/-- In FIQ mode r8 to r12 are those of the FIQ bank (R24). -/
theorem physReg_high_fiq {r : Reg} (h8 : 8 ≤ r.index) (h12 : r.index ≤ 12) :
    physReg r .fiq = [.r8_fiq, .r9_fiq, .r10_fiq, .r11_fiq, .r12_fiq][r.index - 8]? := by
  cases r with
  | r8 | r9 | r10 | r11 | r12 => rfl
  | r13 | r14 | r15 => exact absurd h12 (by decide)
  | r0 | r1 | r2 | r3 | r4 | r5 | r6 | r7 => exact absurd h8 (by decide)

/-- Settles O21, from the rows of R24 and the read of r15 (R29). -/
theorem registerBanks : Obligations.RegisterBanks := by
  intro s m r
  refine ⟨physReg_unbanked m, physReg_high_of_ne_fiq, fun h8 h12 hm => ?_, ?_, State.rd_of_phys s m r,
    State.rd_r15 s m⟩
  · rw [hm]
    exact physReg_high_fiq h8 h12
  · cases m <;> rfl

/-! ### Reset -/

section
variable (p : Params) (image : Memory) (env : Env) (toCome : List Env)

/-- The Reset vector stands at the vector base itself (R305, R350). -/
theorem resetFor_pc : (State.resetFor p image env toCome).pc = p.vectorBase.addr := BitVec.add_zero _

/-- The `cpsr` after reset: Supervisor mode, I = F = 1, T = 0 (R350). -/
theorem resetFor_cpsr : (State.resetFor p image env toCome).cpsr = 0x000000D3 := rfl

/-- The mode after reset (R350). -/
theorem resetFor_mode : (State.resetFor p image env toCome).mode = some .supervisor := by
  rw [State.mode, resetFor_cpsr]
  decide

/-- After reset both interrupts are masked, so that none is taken, whatever the lines are (R48, R350). -/
theorem interrupt_resetFor : (State.resetFor p image env toCome).interrupt = none :=
  interrupt_eq_none (.inr (by rw [resetFor_cpsr]; decide)) (.inr (by rw [resetFor_cpsr]; decide))

/-- The state after reset is legal under every choice of the parameters (R28, R42, R49). -/
theorem legal_resetFor : (State.resetFor p image env toCome).legal = true := by
  rw [legal_iff, resetFor_pc, resetFor_mode, resetFor_cpsr]
  refine ⟨?_, rfl, by decide, by decide⟩
  cases p.vectorBase <;> rfl

end

/-- Settles O49: what is said of the `cpsr` is read off its value, the rest off the fields of the state. -/
theorem resetState : Obligations.ResetState := by
  intro p image env toCome s
  have hcpsr : s.cpsr = 0x000000D3 := resetFor_cpsr p image env toCome
  rw [hcpsr]
  exact ⟨resetFor_pc p image env toCome, resetFor_mode p image env toCome, by decide, by decide, by decide, by decide,
    by decide, rfl, rfl, interrupt_resetFor p image env toCome, rfl⟩

/-- Settles O50. -/
theorem resetInvariants : Obligations.ResetInvariants := ⟨legal_resetFor .., memOk_reset⟩

end Sys2Proof.Machine

namespace Sys2Proof
/-! Values and their bytes (R62): each byte of a value stands in the bits of its own lane. -/

variable {bigEndian : Bool} {n k : Nat}

/-- The byte offsets of a value have lanes within the value. -/
theorem lane_lt (hk : k < n) : lane bigEndian n k < n := by
  cases bigEndian with
  | false => exact hk
  | true => simp only [lane, if_true]; omega

/-- No two byte offsets of a value have the same lane. -/
theorem lane_inj {k' : Nat} (hk : k < n) (hk' : k' < n) (h : lane bigEndian n k = lane bigEndian n k') : k = k' := by
  cases bigEndian with
  | false => exact h
  | true => simp only [lane, if_true] at h; omega

/-- A bit of words put over each other is set where one of them sets it. -/
theorem getLsbD_foldl_or (f : Nat → Word) (i : Nat) (l : List Nat) (acc : Word) :
    (l.foldl (fun acc k => acc ||| f k) acc).getLsbD i = (acc.getLsbD i || l.any fun k => (f k).getLsbD i) := by
  induction l generalizing acc with
  | nil => simp
  | cons k rest ih => simp [ih, Bool.or_assoc]

/-- A byte shifted to lane `p` has bits in that lane only. -/
theorem getLsbD_byte_shiftLeft (b : Byte) {p q j : Nat} (hj : j < 8) (hq : q < 4) :
    (b.setWidth 32 <<< (8 * p)).getLsbD (8 * q + j) = (decide (p = q) && b.getLsbD j) := by
  have h32 : 8 * q + j < 32 := by omega
  rw [BitVec.getLsbD_shiftLeft, BitVec.getLsbD_setWidth]
  rcases Nat.lt_trichotomy p q with hlt | rfl | hgt
  · simp [BitVec.getLsbD_of_ge b (8 * q + j - 8 * p) (by omega), hlt.ne]
  · have : j < 32 := by omega
    simp [h32, this]
  · have : 8 * q + j < 8 * p := by omega
    simp [this, hgt.ne']

/-- The bits of an assembled value in the lane of a byte offset are those of the byte at that offset (R62). -/
theorem getLsbD_assemble {j : Nat} (get : Nat → Byte) (hn : n ≤ 4) (hk : k < n) (hj : j < 8) :
    (assemble bigEndian n get).getLsbD (8 * lane bigEndian n k + j) = (get k).getLsbD j := by
  have hlane : lane bigEndian n k < 4 := (lane_lt hk).trans_le hn
  rw [assemble, getLsbD_foldl_or, Bool.eq_iff_iff]
  simp only [getLsbD_byte_shiftLeft _ hj hlane, BitVec.ofNat_eq_ofNat, BitVec.getLsbD_zero, Bool.false_or,
    List.any_eq_true, List.mem_range, Bool.and_eq_true, decide_eq_true_eq]
  constructor
  · rintro ⟨k', hk', hsame, hbit⟩
    rwa [lane_inj hk' hk hsame] at hbit
  · exact fun hbit => ⟨k, hk, rfl, hbit⟩

/-- Only the bytes at the offsets of the value count. -/
theorem assemble_congr {get get' : Nat → Byte} (h : ∀ k < n, get k = get' k) :
    assemble bigEndian n get = assemble bigEndian n get' :=
  List.foldl_ext _ _ _ fun _ k hk => by rw [h k (List.mem_range.1 hk)]

/-- A bit of a lane of a word is a bit of the word. -/
theorem getLsbD_laneOf (w : Word) (k : Nat) {j : Nat} (hj : j < 8) :
    (laneOf w k).getLsbD j = w.getLsbD (8 * k + j) := by
  simp [laneOf, hj]

end Sys2Proof

namespace Sys2Proof.Machine
/-! Memory as the steps use it (spec/20_memory.md): its canonical form is kept, only stores write it, the byte order,
the alignment of accesses, and the fetch of what a store has written. -/

open Claims

variable {s t u : State} {m : Mode} {c : Cond}

/-! ### The canonical form -/

/-- The end of an instruction keeps the canonical form. -/
theorem memOk_of_advance (ha : u.advance = .next t) (h : u.memOk = true) : t.memOk = true := by
  obtain ⟨-, rfl⟩ := advance_eq_next.1 ha
  exact memOk_congr rfl rfl h

/-- Taking an exception keeps the canonical form. -/
theorem memOk_raise (e : Exc) (h : s.memOk = true) : (s.raise e).memOk = true :=
  memOk_congr (s.raise_mem e) (s.raise_storedTo e) h

/-- The environment's move keeps the canonical form. -/
theorem memOk_tick (h : s.memOk = true) : s.tick.memOk = true := memOk_congr s.tick_mem s.tick_storedTo h

/-- Every effect of an instruction keeps the canonical form: a store and an exception after one bring it along, and
nothing else reaches memory. -/
theorem Effect.memOk (he : Effect s m t) (h : s.memOk = true) : t.memOk = true := by
  cases he with
  | plain regs t ha => exact memOk_of_advance ha (memOk_congr (s := s) rfl rfl h)
  | flags regs n z cf v draws t ha => exact memOk_of_advance ha (memOk_congr (s := s) rfl rfl h)
  | jump regs a ha => exact memOk_congr (s := s) rfl rfl h
  | branch regs offset => exact memOk_congr (s := s) rfl rfl h
  | store regs mem stored t hm ha =>
    exact memOk_of_advance ha (memOk_congr (s := s.setMem mem stored) rfl rfl (hm h))
  | exception regs mem stored e hm => exact memOk_raise e (memOk_congr (s := s.setMem mem stored) rfl rfl (hm h))
  | ret result t ha =>
    obtain ⟨new, -, -, -, -, -, -, rfl⟩ := exceptionReturn_eq_next.1 ha
    exact memOk_congr (s := s) rfl rfl h
  | psr spsr fields operand t ha =>
    rcases msr_eq_next ha with ⟨-, v, ha, -⟩ | ⟨-, new, -, -, -, -, ha⟩
    · exact memOk_of_advance ha (memOk_congr (s := s) rfl rfl h)
    · exact memOk_of_advance ha (memOk_congr (s := s) rfl rfl h)

/-- Before the environment's move a step keeps the canonical form. -/
theorem stepCore_memOk (hx : stepCore s = .next t) (h : s.memOk = true) : t.memOk = true := by
  rcases stepCore_eq_next hx with
    ⟨e, -, -, rfl⟩ | ⟨-, -, rfl⟩ | ⟨w, -, -, -, rfl⟩ | ⟨w, -, -, -, ha⟩ | ⟨w, i, -, -, -, hi⟩
  · exact memOk_raise e h
  · exact memOk_raise _ h
  · exact memOk_raise _ h
  · exact memOk_of_advance ha h
  · obtain ⟨m, -, he⟩ := exec_effect hi
    exact he.memOk h

/-- Settles O52: every effect of an instruction, every exception entry and the environment's move keep the canonical
form. -/
theorem stepKeepsMemoryForm : Obligations.StepKeepsMemoryForm := by
  intro s t h hstep
  obtain ⟨u, hu, rfl⟩ := step_eq_next.1 hstep
  exact memOk_tick (stepCore_memOk hu h)

/-! ### Who writes memory -/

/-- Settles O56, by the case of each instruction that is no store. -/
theorem onlyStoresWriteMemory : Obligations.OnlyStoresWriteMemory := fun _ _ _ => exec_sameMemory

/-! ### The byte order -/

/-- Each byte of memory stands in its lane of the value read (R62). -/
theorem getLsbD_peek {a : Word} {n k j : Nat} (hn : n ≤ 4) (hk : k < n) (hj : j < 8) :
    (s.peek a n).getLsbD (8 * lane s.params.bigEndian n k + j) = (s.mem.read (a.toNat + k)).getLsbD j :=
  getLsbD_assemble _ hn hk hj

/-- A stored byte reads as its lane of the value stored (R62). -/
theorem read_poke_offset {a v : Word} {n k : Nat} (hb : a.toNat + n ≤ 2 ^ 32) (h : s.memOk = true) (hk : k < n) :
    (s.poke a n v).mem.read (a.toNat + k) = laneOf v (lane s.params.bigEndian n k) := by
  rw [read_poke _ hb h, if_pos (by omega), Nat.add_sub_cancel_left]

/-- A fetch that answers a word answers the one that the bytes at the pc make (R62). -/
theorem eq_peek_of_fetch {w : Word} (h : s.fetch = .word w) : w = s.peek s.pc 4 := by
  unfold State.fetch at h
  split_ifs at h
  cases h
  rfl

/-- Settles O57: the read bit by bit from the lanes of `assemble`, the store from those of `laneOf`, and the byte order
a parameter. -/
theorem byteOrder : Obligations.ByteOrder := by
  refine ⟨fun s a n hn k hk j hj => ?_, fun s a v n _ hb hok k hk j hj => ?_, fun _ _ => eq_peek_of_fetch,
    fun s t h => ?_⟩
  · have hn4 : n ≤ 4 := by
      simp only [List.mem_cons, List.not_mem_nil, or_false] at hn
      omega
    exact getLsbD_peek hn4 hk hj
  · rw [read_poke_offset hb hok hk]
    exact getLsbD_laneOf _ _ hj
  · obtain ⟨hparams, -, -⟩ := environmentMoves s t h
    rw [hparams]

/-- Reading `n` bytes at offset `o` of a value just stored puts the lanes of that value together again. -/
theorem peek_poke {a b v : Word} {size n o : Nat} (hb : a.toNat + size ≤ 2 ^ 32) (h : s.memOk = true)
    (ho : o + n ≤ size) (hab : b.toNat = a.toNat + o) :
    (s.poke a size v).peek b n =
      assemble s.params.bigEndian n fun k => laneOf v (lane s.params.bigEndian size (o + k)) := by
  refine assemble_congr fun k hk => ?_
  rw [hab, Nat.add_assoc]
  exact read_poke_offset hb h (by omega)

/-- A word-aligned address has a whole word at it below the top. -/
theorem word_bound_of_isAligned {a : Word} (h : isAligned a 4 = true) : a.toNat + 4 ≤ 2 ^ 32 := by
  simp only [isAligned, beq_iff_eq] at h
  have := a.isLt
  omega

/-- Settles O58: each read is some lanes of the stored word, which are then computed. -/
theorem mixedWidths : Obligations.MixedWidths := by
  intro s a hok hal t
  have hb := word_bound_of_isAligned hal
  have h1 : (a + 1).toNat = a.toNat + 1 := by bv_omega
  have h2 : (a + 2).toNat = a.toNat + 2 := by bv_omega
  refine ⟨fun hle => ⟨?_, ?_, ?_, ?_⟩, fun hbe => ⟨?_, ?_, ?_⟩⟩
  · rw [peek_poke (o := 0) hb hok (by omega) rfl, hle]; decide
  · rw [peek_poke (o := 1) hb hok (by omega) h1, hle]; decide
  · rw [peek_poke (o := 0) hb hok (by omega) rfl, hle]; decide
  · rw [peek_poke (o := 2) hb hok (by omega) h2, hle]; decide
  · rw [peek_poke (o := 0) hb hok (by omega) rfl, hbe]; decide
  · rw [peek_poke (o := 0) hb hok (by omega) rfl, hbe]; decide
  · rw [peek_poke (o := 2) hb hok (by omega) h2, hbe]; decide

/-! ### Alignment -/

/-- An address whose two low bits are not 0 is not word aligned (R64). -/
theorem not_isAligned_four {a : Word} (h : a.extractLsb' 0 2 ≠ 0) : isAligned a 4 = false := by
  rw [← Bool.not_eq_true, isAligned_four_iff, BitVec.setWidth_eq_extractLsb' (by decide)]
  exact h

/-- An odd address is not halfword aligned (R64). -/
theorem not_isAligned_two {a : Word} (h : a.getLsbD 0 = true) : isAligned a 2 = false := by
  rw [BitVec.getLsbD, Nat.testBit_zero, decide_eq_true_eq] at h
  simp [isAligned, h]

section
variable {ix : Index} {up : Bool} {rd rn : Reg} {misuse : Bool} {sz : Size} {extend : Word → Word}
  {offset : Mode → Word} {addr : Word}

/-- A single load at an address that is not aligned is refused (R65). -/
theorem loadSingle_of_misaligned (hp : Passes s m c) (hmis : misuse = false)
    (haddr : accessAddr ix (s.rd m rn) (indexed up (s.rd m rn) (offset m)) = addr)
    (hal : isAligned addr (sizeBytes sz) = false) :
    loadSingle c ix up rd rn misuse sz extend s offset = .refused (.misalignedAccess addr) := by
  rw [loadSingle, whenPassed_of_passed hp.1 hp.2]
  simp [hmis, haddr, hal]

/-- A single store at an address that is not aligned is refused (R65). -/
theorem storeSingle_of_misaligned (hp : Passes s m c) (hmis : misuse = false)
    (haddr : accessAddr ix (s.rd m rn) (indexed up (s.rd m rn) (offset m)) = addr)
    (hal : isAligned addr (sizeBytes sz) = false) :
    storeSingle c ix up rd rn misuse sz s offset = .refused (.misalignedAccess addr) := by
  rw [storeSingle, whenPassed_of_passed hp.1 hp.2]
  simp [hmis, haddr, hal]

/-- A block transfer from a base that is not word aligned is refused (R65, R261). -/
theorem blockTransfer_of_misaligned {bm : BlockMode} {wb : Bool} {list : BitVec 16}
    {loop : Mode → List Reg → Word → State → BlockEnd} (hp : Passes s m c) (hmis : misuse = false)
    (hal : isAligned (s.rd m rn) 4 = false) :
    blockTransfer c bm wb rn list misuse s loop = .refused (.misalignedAccess (s.rd m rn)) := by
  rw [blockTransfer, whenPassed_of_passed hp.1 hp.2]
  simp [hmis, hal]

end

/-- Settles O30, by shape of instruction: loads, stores and block transfers. -/
theorem misalignedRefused : Obligations.MisalignedRefused := by
  intro s m c ix up rd rn hp
  refine ⟨fun off hmis => ?_, fun off hmis => ?_, fun bm wb list hlow => ⟨fun hmis => ?_, fun hmis => ?_⟩⟩
  · intro a hlow
    have hal : isAligned a 4 = false := not_isAligned_four hlow
    exact ⟨loadSingle_of_misaligned hp hmis rfl hal, storeSingle_of_misaligned hp hmis rfl hal⟩
  · intro a hodd
    have hal : isAligned a 2 = false := not_isAligned_two hodd
    exact ⟨loadSingle_of_misaligned hp hmis rfl hal, storeSingle_of_misaligned hp hmis rfl hal,
      loadSingle_of_misaligned hp hmis rfl hal⟩
  · rw [exec_ldm, blockTransfer_of_misaligned hp hmis (not_isAligned_four hlow)]
  · rw [exec_stm, blockTransfer_of_misaligned hp hmis (not_isAligned_four hlow)]

/-! ### The fetch of what a store has written -/

/-- A mark on one byte of an access is seen. -/
theorem wasStored_of_mem {a : Word} {n k : Nat} (hk : k < n) (h : a.toNat + k ∈ s.storedTo) :
    s.wasStored a n = true :=
  List.any_eq_true.2 ⟨k, List.mem_range.2 hk, List.contains_iff_mem.2 h⟩

/-- In a legal state an accessible fetch of a marked byte is refused (R76). -/
theorem fetch_of_stored {k : Nat} (hlegal : s.legal = true) (hacc : Accessible s .fetch s.pc .word) (hk : k < 4)
    (h : s.pc.toNat + k ∈ s.storedTo) : s.fetch = .refused (.fetchOfStored s.pc) := by
  obtain ⟨hpc, hmode, hT, -⟩ := legal_iff.1 hlegal
  obtain ⟨-, hab, hmap⟩ := hacc
  simp only [sizeBytes] at hmap
  simp [State.fetch, hT, psrJ_of_legal hlegal, hpc, Option.isNone_eq_false_iff.2 hmode, hab, hmap,
    wasStored_of_mem hk h]

/-- Settles O59: the refused fetch refuses the step, the launch has no marks, and a store adds those of its bytes. -/
theorem fetchOfStoredRefused : Obligations.FetchOfStoredRefused := by
  refine ⟨fun s k hirq hlegal hacc hk h => ?_, fun _ _ _ _ _ => List.not_mem_nil, fun s t a v sz x h => ?_⟩
  · simp only [step, stepCore, hirq, fetch_of_stored hlegal hacc hk h, tickOut]
  · obtain ⟨-, -, rfl⟩ := store_eq_done.1 h
    exact storedTo_poke x

end Sys2Proof.Machine

namespace Sys2Proof
/-! The fields of a word (R111), and the formats of R92 to R102 as statements about them: a word is the encoding of some
operands exactly when each of its fields holds what the format says. -/

variable {w : Word}

/-! ### Fields -/

/-- Joined values are a value exactly when each is its part of it. -/
theorem append_eq_iff {a b : Nat} {x : BitVec a} {y : BitVec b} {v : BitVec (a + b)} :
    x ++ y = v ↔ x = v.extractLsb' b a ∧ y = v.extractLsb' 0 b := by
  constructor
  · rintro rfl
    rw [extract_append_high _ _ _ _ (Nat.le_refl b), extract_append_low _ _ _ _ (by omega), Nat.sub_self,
      extract_whole, extract_whole]
    exact ⟨rfl, rfl⟩
  · rintro ⟨rfl, rfl⟩
    rw [BitVec.extractLsb'_append_extractLsb'_eq_extractLsb' (by omega), extract_whole]

/-- A part of a field is a field. -/
theorem extract_field {lo n i k : Nat} (h : i + k ≤ n) : (field w lo n).extractLsb' i k = field w (lo + i) k := by
  refine BitVec.eq_of_getLsbD_eq fun j hj => ?_
  simp [field, hj, show i + j < n by omega, Nat.add_assoc]

/-- A field is two joined values exactly when each stands in its part of the field. -/
theorem field_eq_append_iff {lo a b : Nat} {x : BitVec a} {y : BitVec b} :
    field w lo (a + b) = x ++ y ↔ field w (lo + b) a = x ∧ field w lo b = y := by
  rw [eq_comm, append_eq_iff, extract_field (by omega), extract_field (by omega), eq_comm (a := x), eq_comm (a := y),
    Nat.add_zero]

/-- A field, cut in two. -/
theorem field_split {lo a b : Nat} {v : BitVec (a + b)} :
    field w lo (a + b) = v ↔ field w (lo + b) a = v.extractLsb' b a ∧ field w lo b = v.extractLsb' 0 b := by
  rw [← field_eq_append_iff, append_eq_iff.2 ⟨rfl, rfl⟩]

/-- A field of one bit is that bit. -/
theorem field_one_iff {k : Nat} {x : BitVec 1} : field w k 1 = x ↔ bitAt w k = x.getLsbD 0 := by
  constructor
  · rintro rfl
    simp [field, bitAt]
  · intro h
    refine BitVec.eq_of_getLsbD_eq fun i hi => ?_
    obtain rfl : i = 0 := by omega
    simpa [field, bitAt] using h

/-- A word is 32 packed bits exactly when they are its bits. -/
theorem eq_packed_iff {n : Nat} (hn : n = 32) {x : BitVec n} : w = packed x ↔ field w 0 n = x := by
  subst hn
  simp [packed, field]

/-- A bit of a field. -/
theorem bitAt_of_field {lo n i : Nat} {v : BitVec n} (h : field w lo n = v) (hi : i < n) :
    bitAt w (lo + i) = v.getLsbD i := by
  simp [← h, field, bitAt, hi]

/-- A field of two bits. -/
theorem field_two_iff {lo : Nat} {v : BitVec 2} :
    field w lo 2 = v ↔ bitAt w (lo + 1) = v.getLsbD 1 ∧ bitAt w lo = v.getLsbD 0 := by
  rw [field_split (a := 1) (b := 1), field_one_iff, field_one_iff]
  simp

/-- Bits 27:24 are the format's bits 27:25 and bit 24. -/
theorem field_format_one_iff {v : BitVec 4} :
    field w 24 4 = v ↔ field w 25 3 = v.extractLsb' 1 3 ∧ bitAt w 24 = v.getLsbD 0 := by
  rw [field_split (a := 3) (b := 1), field_one_iff]
  simp

/-- Bits 27:23 are the format's bits 27:25 and bits 24:23. -/
theorem field_format_two_iff {v : BitVec 5} :
    field w 23 5 = v ↔ field w 25 3 = v.extractLsb' 2 3 ∧ field w 23 2 = v.extractLsb' 0 2 :=
  field_split (a := 3) (b := 2)

/-- The bits 7:4 of the multiplies (R96, R97), as the decoder tests them. -/
theorem field_multiply_iff :
    field w 4 4 = 0b1001#4 ↔ bitAt w 7 = true ∧ field w 5 2 = 0 ∧ bitAt w 4 = true := by
  rw [field_split (a := 1) (b := 3), field_split (a := 2) (b := 1), field_one_iff, field_one_iff]
  simp

/-- Bits 24:23 are the upper half of the opcode field (R94). -/
theorem field_opcode_high {op : BitVec 4} (h : field w 21 4 = op) : field w 23 2 = op.extractLsb' 2 2 :=
  ((field_split (a := 2) (b := 2)).1 h).1

/-- The space of MRS and MSR (R94). -/
theorem isMisc_eq_true_iff : isMisc w = true ↔ field w 23 2 = 0b10#2 ∧ bitAt w 20 = false := by
  simp [isMisc]

/-- A comparison outside the space of MRS and MSR has S = 1 (R94). -/
theorem bitAt_of_not_isMisc {op : BitVec 4} (h : isMisc w = false) (hop : field w 21 4 = op)
    (hhigh : op.extractLsb' 2 2 = 0b10#2) : bitAt w 20 = true := by
  simpa [isMisc, field_opcode_high hop, hhigh] using h

/-- In format LSH S = 0 leaves H = 1 (R99). -/
theorem bitAt_five_of_half (hsh : field w 5 2 ≠ 0) (h6 : bitAt w 6 = false) : bitAt w 5 = true := by
  by_contra h5
  exact hsh (field_two_iff.2 ⟨h6, by simpa using h5⟩)

/-! ### The formats -/

section
variable {c : Cond} {st : Bool}

/-- Format DP (R94). -/
theorem eq_encodeDp_iff {op rn rd : BitVec 4} {o : Operand2} :
    w = encodeDp c op st rn rd o ↔ field w 28 4 = c.num ∧ field w 25 3 = (if o.isImm then 0b001#3 else 0b000#3) ∧
      field w 21 4 = op ∧ bitAt w 20 = st ∧ field w 16 4 = rn ∧ field w 12 4 = rd ∧ field w 0 12 = o.bits := by
  simp only [encodeDp, eq_packed_iff, field_eq_append_iff]
  simp [field_one_iff, and_assoc]

/-- Formats MUL and MULL (R96, R97). -/
theorem eq_encodeMul_iff {op hi lo : BitVec 4} {rs rm : Reg} :
    w = encodeMul c op st hi lo rs rm ↔ field w 28 4 = c.num ∧ field w 25 3 = 0b000#3 ∧ field w 21 4 = op ∧
      bitAt w 20 = st ∧ field w 16 4 = hi ∧ field w 12 4 = lo ∧ field w 8 4 = rs.num ∧
      (bitAt w 7 = true ∧ field w 5 2 = 0 ∧ bitAt w 4 = true) ∧ field w 0 4 = rm.num := by
  simp only [encodeMul, eq_packed_iff, field_eq_append_iff]
  simp [field_one_iff, field_multiply_iff, and_assoc]

/-- Format LS (R98). -/
theorem eq_encodeSingle_iff {byte load up : Bool} {ix : Index} {rd rn : Reg} {off : Offset} :
    w = encodeSingle c byte load ix up rd rn off ↔ field w 28 4 = c.num ∧
      field w 25 3 = (if off.isReg then 0b011#3 else 0b010#3) ∧ field w 24 1 = ix.p ∧ bitAt w 23 = up ∧
      bitAt w 22 = byte ∧ field w 21 1 = ix.w ∧ bitAt w 20 = load ∧ field w 16 4 = rn.num ∧ field w 12 4 = rd.num ∧
      field w 0 12 = off.bits := by
  simp only [encodeSingle, eq_packed_iff, field_eq_append_iff]
  simp [field_one_iff, and_assoc]

/-- Format LSH (R99). -/
theorem eq_encodeHalf_iff {load up : Bool} {sh : BitVec 2} {ix : Index} {rd rn : Reg} {off : HalfOffset} :
    w = encodeHalf c load sh ix up rd rn off ↔ field w 28 4 = c.num ∧ field w 25 3 = 0b000#3 ∧ field w 24 1 = ix.p ∧
      bitAt w 23 = up ∧ bitAt w 22 = off.isImm ∧ field w 21 1 = ix.w ∧ bitAt w 20 = load ∧ field w 16 4 = rn.num ∧
      field w 12 4 = rd.num ∧ field w 8 4 = off.high ∧ bitAt w 7 = true ∧ field w 5 2 = sh ∧ bitAt w 4 = true ∧
      field w 0 4 = off.low := by
  simp only [encodeHalf, eq_packed_iff, field_eq_append_iff]
  simp [field_one_iff, and_assoc]

/-- Format LSM (R100). -/
theorem eq_encodeBlock_iff {p u load wb : Bool} {rn : Reg} {list : BitVec 16} :
    w = encodeBlock c p u load wb rn list ↔ field w 28 4 = c.num ∧ field w 25 3 = 0b100#3 ∧ bitAt w 24 = p ∧
      bitAt w 23 = u ∧ bitAt w 22 = false ∧ bitAt w 21 = wb ∧ bitAt w 20 = load ∧ field w 16 4 = rn.num ∧
      field w 0 16 = list := by
  simp only [encodeBlock, eq_packed_iff, field_eq_append_iff]
  simp [field_one_iff, and_assoc]

/-- Formats B and SWI (R92, R93). -/
theorem eq_encodeBranch_iff {op : BitVec 4} {x : BitVec 24} :
    w = packed (c.num ++ op ++ x) ↔ field w 28 4 = c.num ∧
      (field w 25 3 = op.extractLsb' 1 3 ∧ bitAt w 24 = op.getLsbD 0) ∧ field w 0 24 = x := by
  simp only [eq_packed_iff, field_eq_append_iff]
  simp [field_format_one_iff, and_assoc]

/-- Bits 11:0 that are all 0. -/
theorem field_low_eq_zero_iff : field w 0 12 = 0 ↔ field w 8 4 = 0 ∧ field w 4 4 = 0 ∧ field w 0 4 = 0 := by
  rw [field_split (a := 4) (b := 8), field_split (a := 4) (b := 4)]
  simp

/-- Format MRS (R101). -/
theorem eq_encode_mrs_iff {spsr : Bool} {rd : Reg} :
    w = encode (.mrs c spsr rd) ↔ field w 28 4 = c.num ∧ (field w 25 3 = 0b000#3 ∧ field w 23 2 = 0b10#2) ∧
      bitAt w 22 = spsr ∧ (bitAt w 21 = false ∧ bitAt w 20 = false) ∧ field w 16 4 = 0b1111#4 ∧
      field w 12 4 = rd.num ∧ field w 8 4 = 0 ∧ field w 4 4 = 0 ∧ field w 0 4 = 0 := by
  simp only [encode, eq_packed_iff, field_eq_append_iff, ← BitVec.ofNat_eq_ofNat, field_low_eq_zero_iff]
  simp [field_one_iff, field_format_two_iff, field_two_iff (lo := 20), and_assoc]

/-- Format MSRR (R102). -/
theorem eq_encode_msrReg_iff {spsr : Bool} {fields : BitVec 4} {rm : Reg} :
    w = encode (.msrReg c spsr fields rm) ↔ field w 28 4 = c.num ∧
      (field w 25 3 = 0b000#3 ∧ field w 23 2 = 0b10#2) ∧ bitAt w 22 = spsr ∧
      (bitAt w 21 = true ∧ bitAt w 20 = false) ∧ field w 16 4 = fields ∧ field w 12 4 = 0b1111#4 ∧
      (field w 8 4 = 0 ∧ field w 4 4 = 0) ∧ field w 0 4 = rm.num := by
  simp only [encode, eq_packed_iff, field_eq_append_iff]
  simp [field_one_iff, field_format_two_iff, field_two_iff (lo := 20), field_split (lo := 4) (a := 4) (b := 4),
    and_assoc]

/-- Format MSRI (R102). -/
theorem eq_encode_msrImm_iff {spsr : Bool} {fields rot : BitVec 4} {imm8 : BitVec 8} :
    w = encode (.msrImm c spsr fields rot imm8) ↔ field w 28 4 = c.num ∧
      (field w 25 3 = 0b001#3 ∧ field w 23 2 = 0b10#2) ∧ bitAt w 22 = spsr ∧
      (bitAt w 21 = true ∧ bitAt w 20 = false) ∧ field w 16 4 = fields ∧ field w 12 4 = 0b1111#4 ∧
      field w 8 4 = rot ∧ field w 0 8 = imm8 := by
  simp only [encode, eq_packed_iff, field_eq_append_iff]
  simp [field_one_iff, field_format_two_iff, field_two_iff (lo := 20), and_assoc]

end

/-! ### The operand fields -/

/-- Operand2 in form 1 (R95). -/
theorem field_eq_immBits_iff {rot : BitVec 4} {imm8 : BitVec 8} :
    field w 0 12 = (Operand2.imm rot imm8).bits ↔ field w 8 4 = rot ∧ field w 0 8 = imm8 :=
  field_eq_append_iff (a := 4) (b := 8)

/-- A register field names a register by its number (R111). -/
theorem regAt_eq_iff {lo : Nat} {r : Reg} : regAt w lo = r ↔ field w lo 4 = r.num :=
  ⟨fun h => by rw [← h, regAt, Reg.num_ofNum], fun h => by rw [regAt, h, Reg.ofNum_num]⟩

/-- A shift field names a shift by its code (R95). -/
theorem shiftKind_eq_iff {lo : Nat} {k : ShiftKind} : ShiftKind.ofNum (field w lo 2) = k ↔ field w lo 2 = k.num :=
  ⟨fun h => by rw [← h, ShiftKind.num_ofNum], fun h => by rw [h, ShiftKind.ofNum_num]⟩

/-- Operand2 in forms 2 and 3, which bits 4 and 7 tell from the multiplies and format LSH (R95). -/
theorem field_eq_regBits_iff {o : Operand2} (ho : o.isImm = false) :
    field w 0 12 = o.bits ↔ regOperand2 w = o ∧ (bitAt w 4 && bitAt w 7) = false := by
  cases o with
  | imm => cases ho
  | shiftImm rm kind amount =>
    change field w 0 (5 + 2 + 1 + 4) = amount ++ kind.num ++ 0#1 ++ rm.num ↔ _
    simp only [field_eq_append_iff, field_one_iff, regOperand2]
    cases bitAt w 4 <;> simp [regAt_eq_iff, shiftKind_eq_iff]
    tauto
  | shiftReg rm kind rs =>
    change field w 0 (4 + 1 + 2 + 1 + 4) = rs.num ++ 0#1 ++ kind.num ++ 1#1 ++ rm.num ↔ _
    simp only [field_eq_append_iff, field_one_iff, regOperand2]
    cases bitAt w 4 <;> simp [regAt_eq_iff, shiftKind_eq_iff]
    tauto

/-- The register offset of format LS (R98). -/
theorem field_eq_offsetReg_iff {rm : Reg} {kind : ShiftKind} {amount : BitVec 5} :
    field w 0 12 = (Offset.reg rm kind amount).bits ↔
      Offset.reg (regAt w 0) (ShiftKind.ofNum (field w 5 2)) (field w 7 5) = .reg rm kind amount ∧
        bitAt w 4 = false := by
  change field w 0 (5 + 2 + 1 + 4) = amount ++ kind.num ++ 0#1 ++ rm.num ↔ _
  simp only [field_eq_append_iff, field_one_iff]
  simp [regAt_eq_iff, shiftKind_eq_iff]
  tauto

/-- The P and W bits of an addressing form (R98, R223). -/
theorem indexOf_eq_some_iff {ix : Index} : indexOf w = some ix ↔ field w 24 1 = ix.p ∧ field w 21 1 = ix.w := by
  simp only [indexOf, field_one_iff]
  cases bitAt w 24 <;> cases bitAt w 21 <;> cases ix <;> simp [Index.p, Index.w]

/-- Bits 22, 11:8 and 3:0 of format LSH (R99), its SBZ bits as they should be (R114). -/
theorem halfOffset_fields_iff {off : HalfOffset} :
    (bitAt w 22 = off.isImm ∧ field w 8 4 = off.high ∧ field w 0 4 = off.low) ↔
      (if bitAt w 22 then HalfOffset.imm (field w 8 4 ++ field w 0 4) else .reg (regAt w 0)) = off ∧
        (!bitAt w 22 && field w 8 4 != 0#4) = false := by
  cases off with
  | imm imm8 =>
    cases bitAt w 22 <;>
      simp [HalfOffset.isImm, HalfOffset.high, HalfOffset.low, append_eq_iff (a := 4) (b := 4)]
  | reg rm =>
    cases bitAt w 22 <;>
      simp [HalfOffset.isImm, HalfOffset.high, HalfOffset.low, regAt_eq_iff, and_comm]

/-! ### Decoding an encoded word -/

section
variable {c : Cond} {st : Bool}

/-- The check of the SBZ and SBO bits answers an instruction exactly when they are as they should be (R114). -/
@[simp] theorem unlessBits_eq_instr {bad : Bool} {i j : Instr} :
    unlessBits bad i = .instr j ↔ bad = false ∧ i = j := by
  cases bad <;> simp [unlessBits]

/-- A word that has a condition is decoded under it (R112). -/
theorem decode_of_condOf (h : condOf w = some c) : decode w = decodeOpcode w c := by
  simp [decode, h]

/-- A word whose condition field is a condition's number is decoded under that condition (R110, R112). -/
theorem decode_of_cond (h : field w 28 4 = c.num) : decode w = decodeOpcode w c :=
  decode_of_condOf (by simp [condOf, h])

/-- A word of format DP, the space of MRS and MSR apart, is decoded by its opcode field (R94, R95). -/
theorem decode_encodeDp {op rn rd : BitVec 4} {o : Operand2} (h : op.extractLsb' 2 2 ≠ 0b10#2 ∨ st = true)
    (hw : w = encodeDp c op st rn rd o) : decode w = decodeDp w c o := by
  obtain ⟨hc, hfmt, hop, hst, -, -, ho⟩ := eq_encodeDp_iff.1 hw
  have hmisc : isMisc w = false := by
    rcases h with h | h <;> simp [isMisc, field_opcode_high hop, hst, h]
  rw [decode_of_cond hc]
  cases hI : o.isImm with
  | false =>
    obtain ⟨hreg, hbits⟩ := (field_eq_regBits_iff hI).1 ho
    simp [decodeOpcode, hfmt, hI, hbits, hmisc, hreg]
  | true =>
    cases o with
    | imm rot imm8 =>
      obtain ⟨hrot, himm⟩ := field_eq_immBits_iff.1 ho
      simp [decodeOpcode, hfmt, hI, hmisc, hrot, himm]
    | shiftImm | shiftReg => cases hI

/-- What the decoder reads from a word of format DP. -/
theorem fields_of_encodeDp {op rn rd : BitVec 4} {o : Operand2} (hw : w = encodeDp c op st rn rd o) :
    field w 21 4 = op ∧ bitAt w 20 = st ∧ regAt w 16 = Reg.ofNum rn ∧ regAt w 12 = Reg.ofNum rd ∧
      field w 16 4 = rn ∧ field w 12 4 = rd := by
  obtain ⟨-, -, hop, hst, hrn, hrd, -⟩ := eq_encodeDp_iff.1 hw
  simp [hop, hst, hrn, hrd, regAt]

/-- A word of formats MUL and MULL is decoded by its opcode field (R96, R97). -/
theorem decode_encodeMul {op hi lo : BitVec 4} {rs rm : Reg} (hw : w = encodeMul c op st hi lo rs rm) :
    decode w = decodeMul w c ∧ field w 21 4 = op ∧ bitAt w 20 = st ∧ field w 12 4 = lo ∧ regAt w 16 = Reg.ofNum hi ∧
      regAt w 12 = Reg.ofNum lo ∧ regAt w 8 = rs ∧ regAt w 0 = rm := by
  obtain ⟨hc, hfmt, hop, hst, hhi, hlo, hrs, ⟨h7, h5, h4⟩, hrm⟩ := eq_encodeMul_iff.1 hw
  rw [decode_of_cond hc]
  simp [decodeOpcode, hfmt, h4, h5, h7, hop, hst, hhi, hlo, regAt, hrs, hrm]

/-- A word of format LS decodes to the transfer of its B and L bits (R98). -/
theorem decode_encodeSingle {byte load up : Bool} {ix : Index} {rd rn : Reg} {off : Offset}
    (hw : w = encodeSingle c byte load ix up rd rn off) :
    decode w = decodeSingle w c off ∧ indexOf w = some ix ∧ bitAt w 23 = up ∧ bitAt w 22 = byte ∧ bitAt w 20 = load ∧
    regAt w 16 = rn ∧ regAt w 12 = rd := by
  obtain ⟨hc, hfmt, hp, hup, hbyte, hwb, hload, hrn, hrd, hoff⟩ := eq_encodeSingle_iff.1 hw
  rw [decode_of_cond hc]
  refine ⟨?_, indexOf_eq_some_iff.2 ⟨hp, hwb⟩, hup, hbyte, hload, regAt_eq_iff.2 hrn, regAt_eq_iff.2 hrd⟩
  cases off with
  | imm imm12 =>
    have himm : field w 0 12 = imm12 := hoff
    simp [decodeOpcode, hfmt, Offset.isReg, himm]
  | reg rm kind amount =>
    obtain ⟨hreg, h4⟩ := field_eq_offsetReg_iff.1 hoff
    simp only [decodeOpcode, hfmt, Offset.isReg, hreg, h4]
    simp

/-- A word of format LSH decodes to the transfer of its L, S and H bits (R99). -/
theorem decode_encodeHalf {load up : Bool} {sh : BitVec 2} {ix : Index} {rd rn : Reg} {off : HalfOffset}
    (hsh : sh ≠ 0) (hw : w = encodeHalf c load sh ix up rd rn off) :
    decode w = decodeHalf w c ∧ indexOf w = some ix ∧ bitAt w 23 = up ∧ bitAt w 20 = load ∧
      bitAt w 6 = sh.getLsbD 1 ∧ bitAt w 5 = sh.getLsbD 0 ∧ regAt w 16 = rn ∧ regAt w 12 = rd ∧
      (if bitAt w 22 then HalfOffset.imm (field w 8 4 ++ field w 0 4) else .reg (regAt w 0)) = off ∧
      (!bitAt w 22 && field w 8 4 != 0#4) = false := by
  obtain ⟨hc, hfmt, hp, hup, himm, hwb, hload, hrn, hrd, hhigh, h7, h5, h4, hlow⟩ := eq_encodeHalf_iff.1 hw
  obtain ⟨h6, h5'⟩ := field_two_iff.1 h5
  rw [decode_of_cond hc]
  refine ⟨?_, indexOf_eq_some_iff.2 ⟨hp, hwb⟩, hup, hload, h6, h5', regAt_eq_iff.2 hrn, regAt_eq_iff.2 hrd,
    halfOffset_fields_iff.1 ⟨himm, hhigh, hlow⟩⟩
  have hsh' : sh ≠ 0#2 := hsh
  simp [decodeOpcode, hfmt, h4, h7, h5, hsh']

/-- A word of format LSM decodes to the transfer of its L, P and U bits (R100). -/
theorem decode_encodeBlock {p u load wb : Bool} {rn : Reg} {list : BitVec 16}
    (hw : w = encodeBlock c p u load wb rn list) :
    decode w = decodeBlock w c ∧ bitAt w 24 = p ∧ bitAt w 23 = u ∧ bitAt w 22 = false ∧ bitAt w 21 = wb ∧
      bitAt w 20 = load ∧ regAt w 16 = rn ∧ field w 0 16 = list := by
  obtain ⟨hc, hfmt, hp, hu, hs, hwb, hload, hrn, hlist⟩ := eq_encodeBlock_iff.1 hw
  rw [decode_of_cond hc]
  refine ⟨?_, hp, hu, hs, hwb, hload, regAt_eq_iff.2 hrn, hlist⟩
  simp [decodeOpcode, hfmt]

/-- A word of format MRS or MSRR, by bits 27:23 and bit 20 with bits 7:4 all 0, is decoded by bit 21 (R101, R102). -/
theorem decodeOpcode_of_miscReg (hfmt : field w 25 3 = 0b000#3) (h23 : field w 23 2 = 0b10#2) (h20 : bitAt w 20 = false)
    (h4 : field w 4 4 = 0) : decodeOpcode w c = decodeMiscReg w c := by
  have hbits : bitAt w 4 = false := bitAt_of_field (i := 0) h4 (by decide)
  simp [decodeOpcode, hfmt, hbits, isMisc, h23, h20]

/-- `MRS` decodes to itself (R101). -/
theorem decode_encode_mrs {spsr : Bool} {rd : Reg} (hw : w = encode (.mrs c spsr rd)) :
    decode w = .instr (.mrs c spsr rd) := by
  obtain ⟨hc, ⟨hfmt, h23⟩, hspsr, ⟨h21, h20⟩, hsbo, hrd, h8, h4, h0⟩ := eq_encode_mrs_iff.1 hw
  rw [decode_of_cond hc, decodeOpcode_of_miscReg hfmt h23 h20 h4]
  simp [decodeMiscReg, h4, h21, hsbo, h8, h0, hspsr, regAt_eq_iff.2 hrd]

/-- The register form of `MSR` decodes to itself (R102). -/
theorem decode_encode_msrReg {spsr : Bool} {fields : BitVec 4} {rm : Reg}
    (hw : w = encode (.msrReg c spsr fields rm)) : decode w = .instr (.msrReg c spsr fields rm) := by
  obtain ⟨hc, ⟨hfmt, h23⟩, hspsr, ⟨h21, h20⟩, hfields, hsbo, ⟨h8, h4⟩, hrm⟩ := eq_encode_msrReg_iff.1 hw
  rw [decode_of_cond hc, decodeOpcode_of_miscReg hfmt h23 h20 h4]
  simp [decodeMiscReg, h4, h21, hsbo, h8, hspsr, hfields, regAt_eq_iff.2 hrm]

/-- The immediate form of `MSR` decodes to itself (R102). -/
theorem decode_encode_msrImm {spsr : Bool} {fields rot : BitVec 4} {imm8 : BitVec 8}
    (hw : w = encode (.msrImm c spsr fields rot imm8)) : decode w = .instr (.msrImm c spsr fields rot imm8) := by
  obtain ⟨hc, ⟨hfmt, h23⟩, hspsr, ⟨h21, h20⟩, hfields, hsbo, hrot, himm⟩ := eq_encode_msrImm_iff.1 hw
  rw [decode_of_cond hc]
  simp [decodeOpcode, hfmt, isMisc, h23, h20, decodeMiscImm, h21, hsbo, hspsr, hfields, hrot, himm]

/-- Settles O1: each format's decoder reads back the fields that the format's encoder wrote. -/
theorem decodeOfEncode : Obligations.DecodeOfEncode := by
  intro i
  generalize hw : encode i = w
  replace hw := hw.symm
  cases i with
  | b | bl | swi =>
    obtain ⟨hc, ⟨hfmt, h24⟩, hx⟩ := eq_encodeBranch_iff.1 hw
    rw [decode_of_cond hc]
    simp [decodeOpcode, hfmt, h24, hx]
  | and | eor | sub | rsb | add | adc | sbc | rsc | orr | mov | bic | mvn =>
    rw [decode_encodeDp (.inl (by decide)) hw]
    simp [decodeDp, fields_of_encodeDp hw]
  | tst | teq | cmp | cmn =>
    rw [decode_encodeDp (.inr rfl) hw]
    simp [decodeDp, fields_of_encodeDp hw]
  | mul | mla | umull | umlal | smull | smlal => simp [decode_encodeMul hw, decodeMul]
  | ldr | str | ldrb | strb => simp [decode_encodeSingle hw, decodeSingle]
  | ldrh | strh | ldrsb | ldrsh => simp [decode_encodeHalf (by decide) hw, decodeHalf]
  | ldmia | ldmib | ldmda | ldmdb | stmia | stmib | stmda | stmdb => simp [decode_encodeBlock hw, decodeBlock]
  | mrs => exact decode_encode_mrs hw
  | msrReg => exact decode_encode_msrReg hw
  | msrImm => exact decode_encode_msrImm hw

end
end Sys2Proof

namespace Sys2Proof
/-! A word that decodes to an instruction is that instruction's encoding (R92 to R102, R112): one lemma per format. -/

/-- Where `d` is an instruction, `w` is its encoding. -/
def Decoded.EncodesTo (w : Word) (d : Decoded) : Prop := ∀ i, d = .instr i → encode i = w

variable {w : Word}

/-- An instruction whose encoding is the word. -/
@[simp] theorem encodesTo_instr {i : Instr} : (Decoded.instr i).EncodesTo w ↔ encode i = w := by
  simp [Decoded.EncodesTo]

/-- No instruction, so nothing to show. -/
@[simp] theorem encodesTo_undefined : Decoded.undefined.EncodesTo w := fun _ h => by cases h

/-- No instruction, so nothing to show. -/
@[simp] theorem encodesTo_refused {why : Undecodable} : (Decoded.refused why).EncodesTo w := fun _ h => by cases h

/-- An instruction behind the check of its SBZ and SBO bits (R114). -/
@[simp] theorem encodesTo_unlessBits {bad : Bool} {i : Instr} :
    (unlessBits bad i).EncodesTo w ↔ (bad = false → encode i = w) := by
  cases bad <;> simp [unlessBits]

/-- Both branches of a test, each under its side of the test. -/
theorem encodesTo_ite {p : Prop} [Decidable p] {a b : Decoded} (ha : p → a.EncodesTo w) (hb : ¬ p → b.EncodesTo w) :
    (if p then a else b).EncodesTo w := by
  split
  · exact ha ‹_›
  · exact hb ‹_›

/-- The value left when every other has been turned away. -/
theorem eq_allOnes_of_last {k : Nat} {n : BitVec k} (h : ∀ j < 2 ^ k - 1, n.toNat ≠ j) : n = BitVec.allOnes k := by
  have hlt := n.isLt
  have hlast := h n.toNat
  exact BitVec.eq_of_toNat_eq (by rw [BitVec.toNat_allOnes]; omega)

variable {c : Cond} (hc : field w 28 4 = c.num)
include hc

/-- Format DP. -/
theorem encodesTo_decodeDp {o : Operand2} (hfmt : field w 25 3 = if o.isImm then 0b001#3 else 0b000#3)
    (ho : field w 0 12 = o.bits) (hmisc : isMisc w = false) : (decodeDp w c o).EncodesTo w := by
  have hdp {op rn rd : BitVec 4} {st : Bool} (hop : (field w 21 4).toNat = op.toNat) (hst : bitAt w 20 = st)
      (hrn : field w 16 4 = rn) (hrd : field w 12 4 = rd) : encodeDp c op st rn rd o = w :=
    (eq_encodeDp_iff.2 ⟨hc, hfmt, BitVec.eq_of_toNat_eq hop, hst, hrn, hrd, ho⟩).symm
  have hcompare {op : BitVec 4} (hop : (field w 21 4).toNat = op.toNat) (hhigh : op.extractLsb' 2 2 = 0b10#2) :
      (field w 12 4 != 0) = false → encodeDp c op true (regAt w 16).num 0 o = w := by
    intro hbad
    have hst := bitAt_of_not_isMisc hmisc (BitVec.eq_of_toNat_eq hop) hhigh
    exact hdp hop hst (Reg.num_ofNum _).symm (by simpa using hbad)
  unfold decodeDp
  dsimp only
  split
  case h_9 hop | h_10 hop | h_11 hop | h_12 hop => exact encodesTo_unlessBits.2 (hcompare hop rfl)
  case h_14 hop =>
    exact encodesTo_unlessBits.2 fun hbad => hdp hop rfl (by simpa using hbad) (Reg.num_ofNum _).symm
  case h_16 =>
    have hop : field w 21 4 = 0b1111#4 := eq_allOnes_of_last fun j hj => by
      interval_cases j <;> assumption
    exact encodesTo_unlessBits.2 fun hbad => hdp (congrArg _ hop) rfl (by simpa using hbad) (Reg.num_ofNum _).symm
  all_goals
    next hop => exact encodesTo_instr.2 (hdp hop rfl (Reg.num_ofNum _).symm (Reg.num_ofNum _).symm)

/-- Formats MUL and MULL. -/
theorem encodesTo_decodeMul (hfmt : field w 25 3 = 0b000#3)
    (hmul : bitAt w 7 = true ∧ field w 5 2 = 0 ∧ bitAt w 4 = true) : (decodeMul w c).EncodesTo w := by
  have hencode {op lo : BitVec 4} (hop : (field w 21 4).toNat = op.toNat) (hlo : field w 12 4 = lo) :
      encodeMul c op (bitAt w 20) (regAt w 16).num lo (regAt w 8) (regAt w 0) = w :=
    (eq_encodeMul_iff.2 ⟨hc, hfmt, BitVec.eq_of_toNat_eq hop, rfl, (Reg.num_ofNum _).symm, hlo,
      (Reg.num_ofNum _).symm, hmul, (Reg.num_ofNum _).symm⟩).symm
  unfold decodeMul
  dsimp only
  split
  case h_1 hop => exact encodesTo_unlessBits.2 fun hbad => hencode hop (by simpa using hbad)
  case h_7 => exact encodesTo_ite (fun _ => encodesTo_refused) fun _ => encodesTo_refused
  all_goals next hop => exact encodesTo_instr.2 (hencode hop (Reg.num_ofNum _).symm)

/-- Format LS. -/
theorem encodesTo_decodeSingle {off : Offset} (hfmt : field w 25 3 = if off.isReg then 0b011#3 else 0b010#3)
    (hoff : field w 0 12 = off.bits) : (decodeSingle w c off).EncodesTo w := by
  unfold decodeSingle
  dsimp only
  split
  · exact encodesTo_refused
  next ix hix =>
    obtain ⟨hp, hw⟩ := indexOf_eq_some_iff.1 hix
    have hencode {byte load : Bool} (hbyte : bitAt w 22 = byte) (hload : bitAt w 20 = load) :
        encodeSingle c byte load ix (bitAt w 23) (regAt w 12) (regAt w 16) off = w :=
      (eq_encodeSingle_iff.2 ⟨hc, hfmt, hp, rfl, hbyte, hw, hload, (Reg.num_ofNum _).symm, (Reg.num_ofNum _).symm,
        hoff⟩).symm
    split <;> next hbyte hload => exact encodesTo_instr.2 (hencode hbyte hload)

/-- Format LSH. -/
theorem encodesTo_decodeHalf (hfmt : field w 25 3 = 0b000#3) (h7 : bitAt w 7 = true) (h4 : bitAt w 4 = true)
    (hsh : field w 5 2 ≠ 0) : (decodeHalf w c).EncodesTo w := by
  unfold decodeHalf
  dsimp only
  split
  · exact encodesTo_refused
  next ix hix =>
    obtain ⟨hp, hw⟩ := indexOf_eq_some_iff.1 hix
    have hencode {load : Bool} {sh : BitVec 2} (hload : bitAt w 20 = load) (hS : bitAt w 6 = sh.getLsbD 1)
        (hH : bitAt w 5 = sh.getLsbD 0) (hbad : (!bitAt w 22 && field w 8 4 != 0) = false) :
        encodeHalf c load sh ix (bitAt w 23) (regAt w 12) (regAt w 16)
          (if bitAt w 22 then HalfOffset.imm (field w 8 4 ++ field w 0 4) else .reg (regAt w 0)) = w := by
      obtain ⟨himm, hhigh, hlow⟩ := halfOffset_fields_iff.2 ⟨rfl, hbad⟩
      exact (eq_encodeHalf_iff.2 ⟨hc, hfmt, hp, rfl, himm, hw, hload, (Reg.num_ofNum _).symm, (Reg.num_ofNum _).symm,
        hhigh, h7, field_two_iff.2 ⟨hS, hH⟩, h4, hlow⟩).symm
    split
    case h_1 _ hload hS => exact encodesTo_unlessBits.2 (hencode hload hS (bitAt_five_of_half hsh hS))
    case h_2 => exact encodesTo_refused
    case h_3 _ hload hS => exact encodesTo_unlessBits.2 (hencode hload hS (bitAt_five_of_half hsh hS))
    case h_4 hload hS hH | h_5 hload hS hH => exact encodesTo_unlessBits.2 (hencode hload hS hH)

/-- Format LSM. -/
theorem encodesTo_decodeBlock (hfmt : field w 25 3 = 0b100#3) : (decodeBlock w c).EncodesTo w := by
  refine encodesTo_ite (fun _ => encodesTo_refused) fun hS => ?_
  have hencode {p u load : Bool} (hload : bitAt w 20 = load) (hp : bitAt w 24 = p) (hu : bitAt w 23 = u) :
      encodeBlock c p u load (bitAt w 21) (regAt w 16) (field w 0 16) = w :=
    (eq_encodeBlock_iff.2 ⟨hc, hfmt, hp, hu, by simpa using hS, rfl, hload, (Reg.num_ofNum _).symm, rfl⟩).symm
  split <;> next hload hp hu => exact encodesTo_instr.2 (hencode hload hp hu)

/-- Formats MRS and MSRR. -/
theorem encodesTo_decodeMiscReg (hfmt : field w 25 3 = 0b000#3) (h23 : field w 23 2 = 0b10#2)
    (h20 : bitAt w 20 = false) : (decodeMiscReg w c).EncodesTo w := by
  refine encodesTo_ite (fun h4 => encodesTo_ite (fun h21 => ?_) fun h21 => ?_) fun _ =>
    encodesTo_ite (fun _ => encodesTo_refused) fun _ => encodesTo_refused
  · refine encodesTo_unlessBits.2 fun hbad => (eq_encode_msrReg_iff.2 ?_).symm
    simp_all [regAt]
  · refine encodesTo_unlessBits.2 fun hbad => (eq_encode_mrs_iff.2 ?_).symm
    simp_all [regAt]

/-- Format MSRI. -/
theorem encodesTo_decodeMiscImm (hfmt : field w 25 3 = 0b001#3) (h23 : field w 23 2 = 0b10#2)
    (h20 : bitAt w 20 = false) : (decodeMiscImm w c).EncodesTo w := by
  refine encodesTo_ite (fun h21 => ?_) fun _ => encodesTo_refused
  refine encodesTo_unlessBits.2 fun hbad => (eq_encode_msrImm_iff.2 ?_).symm
  simp_all

/-- The formats by bits 27:25 (R112). -/
theorem encodesTo_decodeOpcode : (decodeOpcode w c).EncodesTo w := by
  unfold decodeOpcode
  split
  case h_1 hfmt =>
    replace hfmt : field w 25 3 = 0b000#3 := BitVec.eq_of_toNat_eq hfmt
    refine encodesTo_ite (fun hbits => ?_) fun hbits => encodesTo_ite (fun hmisc => ?_) fun hmisc => ?_
    · obtain ⟨h4, h7⟩ := Bool.and_eq_true_iff.1 hbits
      exact encodesTo_ite (fun h5 => encodesTo_decodeMul hc hfmt ⟨h7, by simpa using h5, h4⟩) fun h5 =>
        encodesTo_decodeHalf hc hfmt h7 h4 (by simpa using h5)
    · obtain ⟨h23, h20⟩ := isMisc_eq_true_iff.1 hmisc
      exact encodesTo_decodeMiscReg hc hfmt h23 h20
    · have hI : (regOperand2 w).isImm = false := by
        unfold regOperand2
        cases bitAt w 4 <;> rfl
      refine encodesTo_decodeDp hc (by simp [hfmt, hI]) ((field_eq_regBits_iff hI).2 ⟨rfl, ?_⟩) (by simpa using hmisc)
      simpa using hbits
  case h_2 hfmt =>
    replace hfmt : field w 25 3 = 0b001#3 := BitVec.eq_of_toNat_eq hfmt
    refine encodesTo_ite (fun hmisc => ?_) fun hmisc => ?_
    · obtain ⟨h23, h20⟩ := isMisc_eq_true_iff.1 hmisc
      exact encodesTo_decodeMiscImm hc hfmt h23 h20
    · exact encodesTo_decodeDp hc hfmt (field_eq_immBits_iff.2 ⟨rfl, rfl⟩) (by simpa using hmisc)
  case h_3 hfmt => exact encodesTo_decodeSingle hc (BitVec.eq_of_toNat_eq hfmt) rfl
  case h_4 hfmt =>
    exact encodesTo_ite (fun _ => encodesTo_undefined) fun h4 => encodesTo_decodeSingle hc (BitVec.eq_of_toNat_eq hfmt)
      (field_eq_offsetReg_iff.2 ⟨rfl, by simpa using h4⟩)
  case h_5 hfmt => exact encodesTo_decodeBlock hc (BitVec.eq_of_toNat_eq hfmt)
  case h_6 hfmt =>
    replace hfmt : field w 25 3 = 0b101#3 := BitVec.eq_of_toNat_eq hfmt
    refine encodesTo_ite (fun h24 => ?_) fun h24 => ?_
    · exact encodesTo_instr.2 ((eq_encodeBranch_iff (op := 0b1011#4)).2 ⟨hc, ⟨hfmt, h24⟩, rfl⟩).symm
    · exact encodesTo_instr.2 ((eq_encodeBranch_iff (op := 0b1010#4)).2 ⟨hc, ⟨hfmt, by simpa using h24⟩, rfl⟩).symm
  case h_7 => exact encodesTo_refused
  case h_8 =>
    have hfmt : field w 25 3 = 0b111#3 := eq_allOnes_of_last fun j hj => by
      interval_cases j <;> assumption
    refine encodesTo_ite (fun h24 => ?_) fun h24 => encodesTo_refused
    exact encodesTo_instr.2 ((eq_encodeBranch_iff (op := 0b1111#4)).2 ⟨hc, ⟨hfmt, h24⟩, rfl⟩).symm

omit hc

/-- Settles O2: the word's condition field is the instruction's condition, and each format's encoder writes back the
fields that the format's decoder read. -/
theorem encodeOfDecode : Obligations.EncodeOfDecode := by
  intro w i h
  obtain ⟨hcond, hop⟩ := condOf_of_decode h
  exact encodesTo_decodeOpcode (Cond.num_of_ofNum _ _ hcond).symm i hop

end Sys2Proof

namespace Sys2Proof.Claims
/-! The opcode table and the spaces without rows (R112 to R118) as sets of words given by masks, and where the
decoder puts a word among them. -/

variable {w m m' v v' : Word}

/-! ### Masks -/

/-- The mask of a field. -/
def fieldMask (lo len : Nat) : Word := (BitVec.allOnes len).setWidth 32 <<< lo

/-- A field's value at the field's place. -/
def fieldBits {len : Nat} (lo : Nat) (x : BitVec len) : Word := x.setWidth 32 <<< lo

/-- The bits of a word under the mask of a field are the field. -/
theorem and_fieldMask (w : Word) (lo len : Nat) : w &&& fieldMask lo len = fieldBits lo (field w lo len) := by
  refine BitVec.eq_of_getLsbD_eq fun i hi => ?_
  by_cases h : lo ≤ i
  · simp [fieldMask, fieldBits, field, hi, h, Nat.not_lt.2 h, Bool.and_comm]
  · simp [fieldMask, fieldBits, Nat.not_le.1 h]

/-- A known field is a known mask. -/
theorem and_mask_of_field {lo len : Nat} {x : BitVec len} (h : field w lo len = x) :
    w &&& fieldMask lo len = fieldBits lo x := by
  rw [and_fieldMask, h]

/-- A known bit is a known mask. -/
theorem and_mask_of_bit {k : Nat} {b : Bool} (h : bitAt w k = b) :
    w &&& fieldMask k 1 = fieldBits k (BitVec.ofBool b) :=
  and_mask_of_field (field_one_iff.2 (by simp [h]))

/-- Two known masks are a known mask. -/
theorem and_or_mask (h : w &&& m = v) (h' : w &&& m' = v') : w &&& (m ||| m') = v ||| v' := by
  rw [BitVec.and_or_distrib_left, h, h']

/-- A known mask gives each smaller mask. -/
theorem and_mask_of_le (h : w &&& m = v) (hm : m &&& m' = m' := by decide)
    (hv : v &&& m' = v' := by decide) : w &&& m' = v' := by
  rw [← hm, ← BitVec.and_assoc, h, hv]

/-- Two known masks agree on the bits they share. -/
theorem and_mask_agree (h : w &&& m = v) (h' : w &&& m' = v') : v &&& m' = v' &&& m := by
  rw [← h, ← h', BitVec.and_assoc, BitVec.and_assoc, BitVec.and_comm m]

/-- A field has a value exactly when its mask shows that value at its place. -/
theorem and_mask_eq_iff {lo len : Nat} {x : BitVec len} (hlen : lo + len ≤ 32) (hm : fieldMask lo len = m)
    (hv : fieldBits lo x = v) : w &&& m = v ↔ field w lo len = x := by
  rw [← hm, ← hv, and_fieldMask]
  refine ⟨fun h => BitVec.eq_of_getLsbD_eq fun i hi => ?_, congrArg _⟩
  have hbit := congrArg (BitVec.getLsbD · (lo + i)) h
  simpa [fieldBits, show lo + i < 32 by omega, show i < 32 by omega] using hbit

/-- A known mask gives each field inside it. -/
theorem field_of_and_mask {lo len : Nat} (h : w &&& m = v) (hm : m &&& fieldMask lo len = fieldMask lo len := by decide)
    (hlen : lo + len ≤ 32 := by decide) : field w lo len = field v lo len := by
  rw [← and_mask_eq_iff hlen rfl rfl, ← and_fieldMask, and_mask_of_le h hm rfl]

/-! ### Sets of words -/

/-- A set of words: those with `value` under `mask`, the exceptions apart, each a mask with a value. -/
structure WordSet where
  mask : Word
  value : Word
  except : List (Word × Word)

/-- A word is in the set. -/
def WordSet.Holds (R : WordSet) (w : Word) : Prop := w &&& R.mask = R.value ∧ ∀ e ∈ R.except, w &&& e.1 ≠ e.2

/-- The words of a row of the opcode table (R112). -/
def OpcodeRow.words (r : OpcodeRow) : WordSet := ⟨r.mask, r.value, []⟩

/-- A word is among the words of a row exactly when it matches the row. -/
theorem holds_words_iff {r : OpcodeRow} : r.words.Holds w ↔ r.Matches w := by
  simp [OpcodeRow.words, WordSet.Holds]

/-- A reason that can be read off two sets for them to share no word: their masks want different values of a bit, or
together they want what one of them excepts. -/
def WordSet.apart (a b : WordSet) : Bool :=
  a.value &&& b.mask != b.value &&& a.mask ||
  (a.except ++ b.except).any fun e => (a.mask ||| b.mask) &&& e.1 == e.1 && (a.value ||| b.value) &&& e.1 == e.2

/-- Sets that are apart share no word. -/
theorem not_holds_of_apart {a b : WordSet} (h : a.apart b = true) (ha : a.Holds w) : ¬ b.Holds w := by
  rintro ⟨hb, hbe⟩
  obtain ⟨ha, hae⟩ := ha
  rcases Bool.or_eq_true_iff.1 h with h | h
  · exact bne_iff_ne.1 h (and_mask_agree ha hb)
  · obtain ⟨e, he, hcover⟩ := List.any_eq_true.1 h
    simp only [Bool.and_eq_true, beq_iff_eq] at hcover
    have hexcept : w &&& e.1 = e.2 := and_mask_of_le (and_or_mask ha hb) hcover.1 hcover.2
    rcases List.mem_append.1 he with he | he
    · exact hae e he hexcept
    · exact hbe e he hexcept

/-- Opcode 10xx with S = 0, apart from the multiplies and format LSH, BX, MRS and the two forms of MSR (R118). -/
def miscellaneousSet : WordSet :=
  ⟨0x0D900000, 0x01000000, [(0x02000090, 0x00000090), (0x0FF000F0, 0x01200010), (0x0FB000F0, 0x01000000),
    (0x0FB000F0, 0x01200000), (0x0FB00000, 0x03200000)]⟩

/-- The words that match no row, by what the decoder makes of them: the UNDEFINED space (R117) and the spaces of
R118. -/
def rowlessSpaces : List (Decoded × WordSet) :=
  [(.undefined, ⟨0x0E000010, 0x06000010, []⟩),
   (.refused .swap, ⟨0x0FB000F0, 0x01000090, []⟩),
   (.refused .branchExchange, ⟨0x0FF000F0, 0x01200010, []⟩),
   (.refused .userModeTransfer, ⟨0x0D200000, 0x04200000, [(0x02000010, 0x02000010)]⟩),
   (.refused .halfPostIndexedW, ⟨0x0F200090, 0x00200090, [(0x00000060, 0)]⟩),
   (.refused .signedStore, ⟨0x0E1000D0, 0x000000D0, [(0x01200000, 0x00200000)]⟩),
   (.refused .userBankBlock, ⟨0x0E400000, 0x08400000, []⟩),
   (.refused .multiplySpace, ⟨0x0FC000F0, 0x00400090, []⟩),
   (.refused .multiplySpace, ⟨0x0F0000F0, 0x01000090, [(0x0FB000F0, 0x01000090)]⟩),
   (.refused .miscellaneous, miscellaneousSet),
   (.refused .coprocessor, ⟨0x0E000000, 0x0C000000, []⟩),
   (.refused .coprocessor, ⟨0x0F000000, 0x0E000000, []⟩)]

/-- No two rows of the table share a word. -/
theorem opcodeTable_apart : opcodeTable.Pairwise fun r q => r.words.apart q.words = true := by decide +kernel

/-- No row of the table shares a word with a space of R117 or R118. -/
theorem rowlessSpaces_apart_rows : ∀ p ∈ rowlessSpaces, ∀ r ∈ opcodeTable, p.2.apart r.words = true := by
  decide +kernel

/-- No two spaces of R117 and R118 with different names share a word. -/
theorem rowlessSpaces_apart : ∀ p ∈ rowlessSpaces, ∀ q ∈ rowlessSpaces, p.1 ≠ q.1 → p.2.apart q.2 = true := by
  decide +kernel

/-- At most one row matches a word (R112). -/
theorem row_unique {r q : OpcodeRow} (hr : r ∈ opcodeTable) (hq : q ∈ opcodeTable) (hrw : r.Matches w)
    (hqw : q.Matches w) : r = q := by
  have hdisj : opcodeTable.Pairwise fun r q => r.Matches w → ¬ q.Matches w :=
    opcodeTable_apart.imp fun h hr hq => not_holds_of_apart h (holds_words_iff.2 hr) (holds_words_iff.2 hq)
  exact List.Pairwise.forall_of_forall_of_flip (R := fun r q => r.Matches w → q.Matches w → r = q) (fun _ _ _ _ => rfl)
    (hdisj.imp fun h hr hq => absurd hq (h hr)) (hdisj.imp fun h hq hr => absurd hq (h hr)) hr hq hrw hqw

/-! ### Rows by format -/

/-- The operand forms of format DP: immediate, register shifted by an amount, register shifted by a register (R95). -/
def dpForms : List (Word × Word) := [(0x0E000000, 0x02000000), (0x0E000010, 0x00000000), (0x0E000090, 0x00000010)]

/-- The data-processing instructions that are no comparison: mnemonic, opcode field, SBZ bits (R94). -/
def dpOpcodes : List (String × BitVec 4 × Word) :=
  [("AND", 0, 0), ("EOR", 1, 0), ("SUB", 2, 0), ("RSB", 3, 0), ("ADD", 4, 0), ("ADC", 5, 0), ("SBC", 6, 0),
   ("RSC", 7, 0), ("ORR", 12, 0), ("MOV", 13, fieldMask 16 4), ("BIC", 14, 0), ("MVN", 15, fieldMask 16 4)]

/-- The comparisons: mnemonic, opcode field (R94). -/
def compareOpcodes : List (String × BitVec 4) := [("TST", 8), ("TEQ", 9), ("CMP", 10), ("CMN", 11)]

/-- The row of a data-processing instruction that is no comparison. -/
def dpRow (f : Word × Word) (x : String × BitVec 4 × Word) : OpcodeRow :=
  ⟨x.1, f.1 ||| fieldMask 21 4, f.2 ||| fieldBits 21 x.2.1, x.2.2, 0⟩

/-- The row of a comparison, whose S bit is 1. -/
def compareRow (f : Word × Word) (x : String × BitVec 4) : OpcodeRow :=
  ⟨x.1, f.1 ||| (fieldMask 21 4 ||| fieldMask 20 1),
    f.2 ||| (fieldBits 21 x.2 ||| fieldBits 20 (BitVec.ofBool true)), fieldMask 12 4, 0⟩

/-- The 36 rows of the data-processing instructions that are no comparison. -/
theorem dpRow_mem : ∀ f ∈ dpForms, ∀ x ∈ dpOpcodes, dpRow f x ∈ opcodeTable := by
  simp [dpForms, dpOpcodes, dpRow, fieldMask, fieldBits, opcodeTable, opcodeRows1, opcodeRows2, opcodeRows3,
    opcodeRows4, opcodeRows5, opcodeRows6]

/-- The 12 rows of the comparisons. -/
theorem compareRow_mem : ∀ f ∈ dpForms, ∀ x ∈ compareOpcodes, compareRow f x ∈ opcodeTable := by
  simp [dpForms, compareOpcodes, compareRow, fieldMask, fieldBits, opcodeTable, opcodeRows1, opcodeRows2, opcodeRows3,
    opcodeRows4, opcodeRows5, opcodeRows6]

/-- The multiplies: mnemonic, opcode field, SBZ bits (R96, R97). -/
def mulOpcodes : List (String × BitVec 4 × Word) :=
  [("MUL", 0, fieldMask 12 4), ("MLA", 1, 0), ("UMULL", 4, 0), ("UMLAL", 5, 0), ("SMULL", 6, 0), ("SMLAL", 7, 0)]

/-- The row of a multiply. -/
def mulRow (x : String × BitVec 4 × Word) : OpcodeRow :=
  ⟨x.1, 0x0E0000F0 ||| fieldMask 21 4, 0x00000090 ||| fieldBits 21 x.2.1, x.2.2, 0⟩

/-- The 6 rows of the multiplies. -/
theorem mulRow_mem : ∀ x ∈ mulOpcodes, mulRow x ∈ opcodeTable := by
  simp [mulOpcodes, mulRow, fieldMask, fieldBits, opcodeTable, opcodeRows1, opcodeRows2, opcodeRows3,
    opcodeRows4, opcodeRows5, opcodeRows6]

/-- The mask of the P and W bits (R98). -/
def indexMask : Word := fieldMask 24 1 ||| fieldMask 21 1

/-- The P and W bits of an addressing form (R98, R223). -/
def indexBits (ix : Index) : Word := fieldBits 24 ix.p ||| fieldBits 21 ix.w

/-- The offset forms of format LS: immediate, register (R98). -/
def singleForms : List (Word × Word) := [(0x0E000000, 0x04000000), (0x0E000010, 0x06000000)]

/-- The transfers of format LS: mnemonic, B bit, L bit (R98). -/
def singleOpcodes : List (String × Bool × Bool) :=
  [("LDR", false, true), ("STR", false, false), ("LDRB", true, true), ("STRB", true, false)]

/-- The row of a transfer of format LS. -/
def singleRow (f : Word × Word) (ix : Index) (x : String × Bool × Bool) : OpcodeRow :=
  ⟨x.1, f.1 ||| (indexMask ||| (fieldMask 22 1 ||| fieldMask 20 1)),
    f.2 ||| (indexBits ix ||| (fieldBits 22 (BitVec.ofBool x.2.1) ||| fieldBits 20 (BitVec.ofBool x.2.2))), 0, 0⟩

/-- The 24 rows of format LS. -/
theorem singleRow_mem (ix : Index) : ∀ f ∈ singleForms, ∀ x ∈ singleOpcodes, singleRow f ix x ∈ opcodeTable := by
  cases ix <;>
    simp [singleForms, singleOpcodes, singleRow, indexMask, indexBits, Index.p, Index.w, fieldMask, fieldBits,
      opcodeTable, opcodeRows1, opcodeRows2, opcodeRows3, opcodeRows4, opcodeRows5, opcodeRows6]

/-- The transfers of format LSH: mnemonic, L bit, S and H bits (R99). -/
def halfOpcodes : List (String × Bool × BitVec 2) :=
  [("STRH", false, 1), ("LDRH", true, 1), ("LDRSB", true, 2), ("LDRSH", true, 3)]

/-- The row of a transfer of format LSH, whose bits 11:8 should be 0 for a register offset (R99, R114). -/
def halfRow (imm : Bool) (ix : Index) (x : String × Bool × BitVec 2) : OpcodeRow :=
  ⟨x.1, 0x0E000090 ||| (indexMask ||| (fieldMask 22 1 ||| (fieldMask 20 1 ||| fieldMask 5 2))),
    0x00000090 ||| (indexBits ix ||| (fieldBits 22 (BitVec.ofBool imm) ||| (fieldBits 20 (BitVec.ofBool x.2.1) |||
      fieldBits 5 x.2.2))), if imm then 0 else fieldMask 8 4, 0⟩

/-- The 24 rows of format LSH. -/
theorem halfRow_mem (imm : Bool) (ix : Index) : ∀ x ∈ halfOpcodes, halfRow imm ix x ∈ opcodeTable := by
  cases ix <;> cases imm <;>
    simp [halfOpcodes, halfRow, indexMask, indexBits, Index.p, Index.w, fieldMask, fieldBits,
      opcodeTable, opcodeRows1, opcodeRows2, opcodeRows3, opcodeRows4, opcodeRows5, opcodeRows6]

/-- The transfers of format LSM: mnemonic, L bit, P bit, U bit (R100). -/
def blockOpcodes : List (String × Bool × Bool × Bool) :=
  [("LDMIA", true, false, true), ("LDMIB", true, true, true), ("LDMDA", true, false, false),
   ("LDMDB", true, true, false), ("STMIA", false, false, true), ("STMIB", false, true, true),
   ("STMDA", false, false, false), ("STMDB", false, true, false)]

/-- The row of a transfer of format LSM, whose S bit is 0. -/
def blockRow (x : String × Bool × Bool × Bool) : OpcodeRow :=
  ⟨x.1, 0x0E400000 ||| (fieldMask 20 1 ||| (fieldMask 24 1 ||| fieldMask 23 1)),
    0x08000000 ||| (fieldBits 20 (BitVec.ofBool x.2.1) ||| (fieldBits 24 (BitVec.ofBool x.2.2.1) |||
      fieldBits 23 (BitVec.ofBool x.2.2.2))), 0, 0⟩

/-- The 8 rows of format LSM. -/
theorem blockRow_mem : ∀ x ∈ blockOpcodes, blockRow x ∈ opcodeTable := by
  simp [blockOpcodes, blockRow, fieldMask, fieldBits, opcodeTable, opcodeRows1, opcodeRows2, opcodeRows3,
    opcodeRows4, opcodeRows5, opcodeRows6]

/-! ### Where the decoder puts a word -/

/-- The bits of a word that should be 0 or 1 by the row are (R114). -/
def OpcodeRow.BitsOk (r : OpcodeRow) (w : Word) : Prop := w &&& r.sbz = 0 ∧ w &&& r.sbo = r.sbo

/-- The table says what the decoder says of a word: an instruction has a row of its mnemonic, a word refused for its SBZ
and SBO bits has a row that they break, and every other word is in a space that has no row. -/
def Placed (w : Word) (d : Decoded) : Prop :=
  match d with
  | .instr i => ∃ r ∈ opcodeTable, r.Matches w ∧ r.BitsOk w ∧ mnemonicOf i = r.mnemonic
  | .refused .shouldBeBits => ∃ r ∈ opcodeTable, r.Matches w ∧ ¬ r.BitsOk w
  | d => ∃ R, (d, R) ∈ rowlessSpaces ∧ R.Holds w

/-- An instruction is where its row is. -/
theorem placed_instr {i : Instr} {r : OpcodeRow} (hr : r ∈ opcodeTable) (hw : r.Matches w)
    (hi : mnemonicOf i = r.mnemonic) (hbits : r.BitsOk w) : Placed w (.instr i) := ⟨r, hr, hw, hbits, hi⟩

/-- A row that asks nothing of the other bits. -/
theorem bitsOk_of_zero {r : OpcodeRow} (hsbz : r.sbz = 0) (hsbo : r.sbo = 0) : r.BitsOk w := by
  simp [OpcodeRow.BitsOk, hsbz, hsbo]

/-- An instruction behind the check of its SBZ and SBO bits is where its row is (R114). -/
theorem placed_unlessBits {i : Instr} {r : OpcodeRow} {bad : Bool} (hr : r ∈ opcodeTable) (hw : r.Matches w)
    (hi : mnemonicOf i = r.mnemonic) (hbits : bad = false ↔ r.BitsOk w) : Placed w (unlessBits bad i) := by
  cases bad with
  | false => exact placed_instr hr hw hi (hbits.1 rfl)
  | true => exact ⟨r, hr, hw, fun h => absurd (hbits.2 h) (by decide)⟩

/-- A refused word is where its space is (R118). -/
theorem placed_refused {why : Undecodable} {R : WordSet} (hR : (.refused why, R) ∈ rowlessSpaces)
    (hw : R.Holds w) (hwhy : why ≠ .shouldBeBits := by decide) : Placed w (.refused why) := by
  cases why with
  | shouldBeBits => exact absurd rfl hwhy
  | _ => exact ⟨R, hR, hw⟩

/-- An undefined word is where its space is (R117). -/
theorem placed_undefined {R : WordSet} (hR : (.undefined, R) ∈ rowlessSpaces) (hw : R.Holds w) :
    Placed w .undefined := ⟨R, hR, hw⟩

/-- Both branches of a test, each under its side of the test. -/
theorem placed_ite {p : Prop} [Decidable p] {a b : Decoded} (ha : p → Placed w a) (hb : ¬ p → Placed w b) :
    Placed w (if p then a else b) := by
  split
  · exact ha ‹_›
  · exact hb ‹_›

/-- A field that is to be 0, as the decoder and as the table test it. -/
theorem field_bitsOk_iff {r : OpcodeRow} {lo len : Nat} (hlen : lo + len ≤ 32) (hsbz : r.sbz = fieldMask lo len)
    (hsbo : r.sbo = 0) : (field w lo len != 0) = false ↔ r.BitsOk w := by
  have hsbzIff : w &&& r.sbz = 0 ↔ field w lo len = 0 := and_mask_eq_iff hlen hsbz.symm (by simp [fieldBits])
  rw [OpcodeRow.BitsOk, hsbzIff, hsbo]
  simp

variable {c : Cond}

/-- Format DP. -/
theorem placed_decodeDp {o : Operand2} {f : Word × Word} (hf : f ∈ dpForms) (hw : w &&& f.1 = f.2)
    (hmisc : isMisc w = false) : Placed w (decodeDp w c o) := by
  have hrow {x : String × BitVec 4 × Word} (hop : (field w 21 4).toNat = x.2.1.toNat) : (dpRow f x).Matches w :=
    and_or_mask hw (and_mask_of_field (BitVec.eq_of_toNat_eq hop))
  have hdp {x : String × BitVec 4 × Word} {i : Instr} (hx : x ∈ dpOpcodes)
      (hop : (field w 21 4).toNat = x.2.1.toNat) (hi : mnemonicOf i = x.1) (hsbz : x.2.2 = 0) : Placed w (.instr i) :=
    placed_instr (dpRow_mem f hf x hx) (hrow hop) hi (bitsOk_of_zero hsbz rfl)
  have hmove {x : String × BitVec 4 × Word} {i : Instr} (hx : x ∈ dpOpcodes)
      (hop : (field w 21 4).toNat = x.2.1.toNat) (hi : mnemonicOf i = x.1) (hsbz : x.2.2 = fieldMask 16 4) :
      Placed w (unlessBits (field w 16 4 != 0) i) :=
    placed_unlessBits (dpRow_mem f hf x hx) (hrow hop) hi (field_bitsOk_iff (by decide) hsbz rfl)
  have hcompare {x : String × BitVec 4} {i : Instr} (hx : x ∈ compareOpcodes)
      (hop : (field w 21 4).toNat = x.2.toNat) (hi : mnemonicOf i = x.1) (hhigh : x.2.extractLsb' 2 2 = 0b10#2) :
      Placed w (unlessBits (field w 12 4 != 0) i) := by
    have hst := bitAt_of_not_isMisc hmisc (BitVec.eq_of_toNat_eq hop) hhigh
    exact placed_unlessBits (compareRow_mem f hf x hx)
      (and_or_mask hw (and_or_mask (and_mask_of_field (BitVec.eq_of_toNat_eq hop)) (and_mask_of_bit hst))) hi
      (field_bitsOk_iff (by decide) rfl rfl)
  unfold decodeDp
  dsimp only
  split
  case h_1 hop => exact hdp (x := ("AND", 0, 0)) (by simp [dpOpcodes]) hop rfl rfl
  case h_2 hop => exact hdp (x := ("EOR", 1, 0)) (by simp [dpOpcodes]) hop rfl rfl
  case h_3 hop => exact hdp (x := ("SUB", 2, 0)) (by simp [dpOpcodes]) hop rfl rfl
  case h_4 hop => exact hdp (x := ("RSB", 3, 0)) (by simp [dpOpcodes]) hop rfl rfl
  case h_5 hop => exact hdp (x := ("ADD", 4, 0)) (by simp [dpOpcodes]) hop rfl rfl
  case h_6 hop => exact hdp (x := ("ADC", 5, 0)) (by simp [dpOpcodes]) hop rfl rfl
  case h_7 hop => exact hdp (x := ("SBC", 6, 0)) (by simp [dpOpcodes]) hop rfl rfl
  case h_8 hop => exact hdp (x := ("RSC", 7, 0)) (by simp [dpOpcodes]) hop rfl rfl
  case h_9 hop => exact hcompare (x := ("TST", 8)) (by simp [compareOpcodes]) hop rfl rfl
  case h_10 hop => exact hcompare (x := ("TEQ", 9)) (by simp [compareOpcodes]) hop rfl rfl
  case h_11 hop => exact hcompare (x := ("CMP", 10)) (by simp [compareOpcodes]) hop rfl rfl
  case h_12 hop => exact hcompare (x := ("CMN", 11)) (by simp [compareOpcodes]) hop rfl rfl
  case h_13 hop => exact hdp (x := ("ORR", 12, 0)) (by simp [dpOpcodes]) hop rfl rfl
  case h_14 hop => exact hmove (x := ("MOV", 13, fieldMask 16 4)) (by simp [dpOpcodes]) hop rfl rfl
  case h_15 hop => exact hdp (x := ("BIC", 14, 0)) (by simp [dpOpcodes]) hop rfl rfl
  case h_16 =>
    have hop : field w 21 4 = 0b1111#4 := eq_allOnes_of_last fun j hj => by
      interval_cases j <;> assumption
    exact hmove (x := ("MVN", 15, fieldMask 16 4)) (by simp [dpOpcodes]) (congrArg _ hop) rfl rfl

/-- The multiply opcodes that no row has: 001x, and all that have bit 24 set (R118). -/
theorem mulOpcode_of_rowless : ∀ op : BitVec 4, op.toNat ≠ 0 → op.toNat ≠ 1 → op.toNat ≠ 4 → op.toNat ≠ 5 →
    op.toNat ≠ 6 → op.toNat ≠ 7 → op.extractLsb' 1 3 = 0b001#3 ∨ op.getLsbD 3 = true := by decide

/-- Formats MUL and MULL, and what of their space is SWP or nothing (R118). -/
theorem placed_decodeMul (hw : w &&& 0x0E0000F0 = 0x00000090) : Placed w (decodeMul w c) := by
  have hrow {x : String × BitVec 4 × Word} (hop : (field w 21 4).toNat = x.2.1.toNat) : (mulRow x).Matches w :=
    and_or_mask hw (and_mask_of_field (BitVec.eq_of_toNat_eq hop))
  have hmul {x : String × BitVec 4 × Word} {i : Instr} (hx : x ∈ mulOpcodes)
      (hop : (field w 21 4).toNat = x.2.1.toNat) (hi : mnemonicOf i = x.1) (hsbz : x.2.2 = 0) : Placed w (.instr i) :=
    placed_instr (mulRow_mem x hx) (hrow hop) hi (bitsOk_of_zero hsbz rfl)
  unfold decodeMul
  dsimp only
  split
  case h_1 hop =>
    exact placed_unlessBits (mulRow_mem ("MUL", 0, fieldMask 12 4) (by simp [mulOpcodes])) (hrow hop) rfl
      (field_bitsOk_iff (by decide) rfl rfl)
  case h_2 hop => exact hmul (x := ("MLA", 1, 0)) (by simp [mulOpcodes]) hop rfl rfl
  case h_3 hop => exact hmul (x := ("UMULL", 4, 0)) (by simp [mulOpcodes]) hop rfl rfl
  case h_4 hop => exact hmul (x := ("UMLAL", 5, 0)) (by simp [mulOpcodes]) hop rfl rfl
  case h_5 hop => exact hmul (x := ("SMULL", 6, 0)) (by simp [mulOpcodes]) hop rfl rfl
  case h_6 hop => exact hmul (x := ("SMLAL", 7, 0)) (by simp [mulOpcodes]) hop rfl rfl
  case h_7 h0 h1 h4 h5 h6 h7 =>
    refine placed_ite (fun hswap => ?_) fun hswap => ?_
    · obtain ⟨h23, h20⟩ := Bool.and_eq_true_iff.1 hswap
      have hmask := and_or_mask hw (and_or_mask (and_mask_of_field (beq_iff_eq.1 h23))
        (and_mask_of_field (beq_iff_eq.1 h20)))
      exact placed_refused (R := ⟨0x0FB000F0, 0x01000090, []⟩) (by simp [rowlessSpaces])
        ⟨and_mask_of_le hmask, by simp⟩
    · rcases mulOpcode_of_rowless _ h0 h1 h4 h5 h6 h7 with h22 | h24
      · rw [extract_field (by decide)] at h22
        exact placed_refused (R := ⟨0x0FC000F0, 0x00400090, []⟩) (by simp [rowlessSpaces])
          ⟨and_mask_of_le (and_or_mask hw (and_mask_of_field h22)), by simp⟩
      · rw [← bitAt_of_field rfl (by decide)] at h24
        refine placed_refused (R := ⟨0x0F0000F0, 0x01000090, [(0x0FB000F0, 0x01000090)]⟩)
          (by simp [rowlessSpaces])
          ⟨and_mask_of_le (and_or_mask hw (and_mask_of_bit h24)), ?_⟩
        simp only [List.forall_mem_singleton]
        intro hmask
        have h23 := field_of_and_mask (lo := 23) (len := 5) hmask
        have h20 := field_of_and_mask (lo := 20) (len := 2) hmask
        exact hswap (by rw [h23, h20]; decide)

/-- The P and W bits of a word that has an addressing form (R98). -/
theorem and_indexMask {ix : Index} (h : indexOf w = some ix) : w &&& indexMask = indexBits ix := by
  obtain ⟨hp, hw⟩ := indexOf_eq_some_iff.1 h
  exact and_or_mask (and_mask_of_field hp) (and_mask_of_field hw)

/-- A word without an addressing form has P = 0 and W = 1 (R98). -/
theorem and_indexMask_of_none (h : indexOf w = none) : w &&& 0x01200000 = 0x00200000 := by
  have hbits : bitAt w 24 = false ∧ bitAt w 21 = true := by
    unfold indexOf at h
    split at h
    case h_4 h24 h21 => exact ⟨h24, h21⟩
    all_goals cases h
  exact and_mask_of_le (and_or_mask (and_mask_of_bit hbits.1) (and_mask_of_bit hbits.2))

/-- Format LS. -/
theorem placed_decodeSingle {off : Offset} {f : Word × Word} (hf : f ∈ singleForms) (hw : w &&& f.1 = f.2) :
    Placed w (decodeSingle w c off) := by
  unfold decodeSingle
  dsimp only
  split
  case h_1 hix =>
    have hmask := and_or_mask hw (and_indexMask_of_none hix)
    simp only [singleForms, List.mem_cons, List.not_mem_nil, or_false] at hf
    refine placed_refused (R := ⟨0x0D200000, 0x04200000, [(0x02000010, 0x02000010)]⟩)
      (by simp [rowlessSpaces]) ?_
    rcases hf with rfl | rfl
    · refine ⟨and_mask_of_le hmask, ?_⟩
      simp only [List.forall_mem_singleton]
      exact fun hreg => absurd (and_mask_agree hw hreg) (by decide)
    · refine ⟨and_mask_of_le hmask, ?_⟩
      simp only [List.forall_mem_singleton]
      exact fun hreg => absurd (and_mask_agree hw hreg) (by decide)
  case h_2 ix hix =>
    have hsingle {x : String × Bool × Bool} {i : Instr} (hx : x ∈ singleOpcodes) (hbyte : bitAt w 22 = x.2.1)
        (hload : bitAt w 20 = x.2.2) (hi : mnemonicOf i = x.1) : Placed w (.instr i) :=
      placed_instr (singleRow_mem ix f hf x hx)
        (and_or_mask hw (and_or_mask (and_indexMask hix) (and_or_mask (and_mask_of_bit hbyte) (and_mask_of_bit hload))))
        hi (bitsOk_of_zero rfl rfl)
    split
    case h_1 hbyte hload => exact hsingle (x := ("LDR", false, true)) (by simp [singleOpcodes]) hbyte hload rfl
    case h_2 hbyte hload => exact hsingle (x := ("STR", false, false)) (by simp [singleOpcodes]) hbyte hload rfl
    case h_3 hbyte hload => exact hsingle (x := ("LDRB", true, true)) (by simp [singleOpcodes]) hbyte hload rfl
    case h_4 hbyte hload => exact hsingle (x := ("STRB", true, false)) (by simp [singleOpcodes]) hbyte hload rfl

/-- Format LSH. -/
theorem placed_decodeHalf (hw : w &&& 0x0E000090 = 0x00000090) (hsh : field w 5 2 ≠ 0) :
    Placed w (decodeHalf w c) := by
  unfold decodeHalf
  dsimp only
  split
  case h_1 hix =>
    refine placed_refused (R := ⟨0x0F200090, 0x00200090, [(0x00000060, 0)]⟩) (by simp [rowlessSpaces])
      ⟨and_mask_of_le (and_or_mask hw (and_indexMask_of_none hix)), ?_⟩
    simp only [List.forall_mem_singleton]
    intro hmask
    exact hsh (field_of_and_mask hmask)
  case h_2 ix hix =>
    have hbits : (!bitAt w 22 && field w 8 4 != 0) = false ↔
        OpcodeRow.BitsOk ⟨"", 0, 0, if bitAt w 22 then 0 else fieldMask 8 4, 0⟩ w := by
      cases bitAt w 22 with
      | false => simpa using field_bitsOk_iff (r := ⟨"", 0, 0, fieldMask 8 4, 0⟩) (by decide) rfl rfl
      | true => simp [OpcodeRow.BitsOk]
    have hhalf {x : String × Bool × BitVec 2} {i : Instr} (hx : x ∈ halfOpcodes) (hload : bitAt w 20 = x.2.1)
        (hS : bitAt w 6 = x.2.2.getLsbD 1) (hH : bitAt w 5 = x.2.2.getLsbD 0) (hi : mnemonicOf i = x.1) :
        Placed w (unlessBits (!bitAt w 22 && field w 8 4 != 0) i) :=
      placed_unlessBits (halfRow_mem (bitAt w 22) ix x hx)
        (and_or_mask hw (and_or_mask (and_indexMask hix) (and_or_mask (and_mask_of_bit rfl)
          (and_or_mask (and_mask_of_bit hload) (and_mask_of_field (field_two_iff.2 ⟨hS, hH⟩))))))
        hi hbits
    split
    case h_1 hload hS =>
      exact hhalf (x := ("STRH", false, 1)) (by simp [halfOpcodes]) hload hS (bitAt_five_of_half hsh hS) rfl
    case h_2 hload hS =>
      refine placed_refused (R := ⟨0x0E1000D0, 0x000000D0, [(0x01200000, 0x00200000)]⟩)
        (by simp [rowlessSpaces])
        ⟨and_mask_of_le (and_or_mask hw (and_or_mask (and_mask_of_bit hload) (and_mask_of_bit hS))), ?_⟩
      simp only [List.forall_mem_singleton]
      intro hmask
      have hindex : indexBits ix = 0x00200000 := (and_indexMask hix).symm.trans hmask
      revert hindex
      cases ix <;> decide
    case h_3 hload hS =>
      exact hhalf (x := ("LDRH", true, 1)) (by simp [halfOpcodes]) hload hS (bitAt_five_of_half hsh hS) rfl
    case h_4 hload hS hH => exact hhalf (x := ("LDRSB", true, 2)) (by simp [halfOpcodes]) hload hS hH rfl
    case h_5 hload hS hH => exact hhalf (x := ("LDRSH", true, 3)) (by simp [halfOpcodes]) hload hS hH rfl

/-- Format LSM. -/
theorem placed_decodeBlock (hw : w &&& 0x0E000000 = 0x08000000) : Placed w (decodeBlock w c) := by
  refine placed_ite (fun h22 => ?_) fun h22 => ?_
  · exact placed_refused (R := ⟨0x0E400000, 0x08400000, []⟩) (by simp [rowlessSpaces])
      ⟨and_mask_of_le (and_or_mask hw (and_mask_of_bit h22)), by simp⟩
  · have hS : w &&& 0x0E400000 = 0x08000000 :=
      and_mask_of_le (and_or_mask hw (and_mask_of_bit (by simpa using h22)))
    have hblock {x : String × Bool × Bool × Bool} {i : Instr} (hx : x ∈ blockOpcodes) (hload : bitAt w 20 = x.2.1)
        (hp : bitAt w 24 = x.2.2.1) (hu : bitAt w 23 = x.2.2.2) (hi : mnemonicOf i = x.1) : Placed w (.instr i) :=
      placed_instr (blockRow_mem x hx) (and_or_mask hS (and_or_mask (and_mask_of_bit hload)
        (and_or_mask (and_mask_of_bit hp) (and_mask_of_bit hu)))) hi (bitsOk_of_zero rfl rfl)
    split
    case h_1 hl hp hu => exact hblock (x := ("LDMIA", true, false, true)) (by simp [blockOpcodes]) hl hp hu rfl
    case h_2 hl hp hu => exact hblock (x := ("LDMIB", true, true, true)) (by simp [blockOpcodes]) hl hp hu rfl
    case h_3 hl hp hu => exact hblock (x := ("LDMDA", true, false, false)) (by simp [blockOpcodes]) hl hp hu rfl
    case h_4 hl hp hu => exact hblock (x := ("LDMDB", true, true, false)) (by simp [blockOpcodes]) hl hp hu rfl
    case h_5 hl hp hu => exact hblock (x := ("STMIA", false, false, true)) (by simp [blockOpcodes]) hl hp hu rfl
    case h_6 hl hp hu => exact hblock (x := ("STMIB", false, true, true)) (by simp [blockOpcodes]) hl hp hu rfl
    case h_7 hl hp hu => exact hblock (x := ("STMDA", false, false, false)) (by simp [blockOpcodes]) hl hp hu rfl
    case h_8 hl hp hu => exact hblock (x := ("STMDB", false, true, false)) (by simp [blockOpcodes]) hl hp hu rfl

end Sys2Proof.Claims

namespace Sys2Proof.Claims
/-! The decoder puts every word where the opcode table and the spaces of R117 and R118 have it. -/

variable {w : Word} {c : Cond}

/-! ### Formats MRS and MSR -/

/-- Two fields that are to be 0. -/
theorem and_mask_eq_zero_iff {lo len lo' len' : Nat} {m : Word} (h : lo + len ≤ 32) (h' : lo' + len' ≤ 32)
    (hm : fieldMask lo len ||| fieldMask lo' len' = m) :
    w &&& m = 0 ↔ field w lo len = 0 ∧ field w lo' len' = 0 := by
  have hzero {k n : Nat} : fieldBits k (0 : BitVec n) = 0 := by simp [fieldBits]
  rw [← and_mask_eq_iff h rfl hzero, ← and_mask_eq_iff h' rfl hzero, ← hm, BitVec.and_or_distrib_left]
  exact BitVec.or_eq_zero_iff

/-- Format MRS and format MSRR, and what of their space is BX or nothing (R101, R102, R118). -/
theorem placed_decodeMiscReg (hw : w &&& 0x0F900000 = 0x01000000) (hbits : (bitAt w 4 && bitAt w 7) = false) :
    Placed w (decodeMiscReg w c) := by
  refine placed_ite (fun h4 => placed_ite (fun h21 => ?_) fun h21 => ?_) fun h4 =>
    placed_ite (fun hbx => ?_) fun hbx => ?_
  · replace h4 : field w 4 4 = 0 := beq_iff_eq.1 h4
    refine placed_unlessBits (r := ⟨"MSR", 0x0FB000F0, 0x01200000, 0x00000F00, 0x0000F000⟩)
      (by simp [opcodeTable, opcodeRows6])
      (and_mask_of_le (and_or_mask hw (and_or_mask (and_mask_of_bit h21) (and_mask_of_field h4))))
      rfl ?_
    have hsbo : w &&& 0x0000F000 = 0x0000F000 ↔ field w 12 4 = 0b1111#4 :=
      and_mask_eq_iff (lo := 12) (by decide) (by decide) (by decide)
    have hsbz : w &&& 0x00000F00 = 0 ↔ field w 8 4 = 0 :=
      and_mask_eq_iff (lo := 8) (by decide) (by decide) (by decide)
    simp only [OpcodeRow.BitsOk, hsbo, hsbz]
    simp [and_comm]
  · replace h4 : field w 4 4 = 0 := beq_iff_eq.1 h4
    replace h21 : bitAt w 21 = false := by simpa using h21
    refine placed_unlessBits (r := ⟨"MRS", 0x0FB000F0, 0x01000000, 0x00000F0F, 0x000F0000⟩)
      (by simp [opcodeTable, opcodeRows6])
      (and_mask_of_le (and_or_mask hw (and_or_mask (and_mask_of_bit h21) (and_mask_of_field h4))))
      rfl ?_
    have hsbo : w &&& 0x000F0000 = 0x000F0000 ↔ field w 16 4 = 0b1111#4 :=
      and_mask_eq_iff (lo := 16) (by decide) (by decide) (by decide)
    have hsbz : w &&& 0x00000F0F = 0 ↔ field w 8 4 = 0 ∧ field w 0 4 = 0 :=
      and_mask_eq_zero_iff (by decide) (by decide) (by decide)
    simp only [OpcodeRow.BitsOk, hsbo, hsbz]
    simp
    tauto
  · obtain ⟨h4, h20⟩ := Bool.and_eq_true_iff.1 hbx
    exact placed_refused (R := ⟨0x0FF000F0, 0x01200010, []⟩) (by simp [rowlessSpaces])
      ⟨and_mask_of_le (and_or_mask (and_mask_of_field (beq_iff_eq.1 h4)) (and_mask_of_field (beq_iff_eq.1 h20))),
        by simp⟩
  · refine placed_refused (R := miscellaneousSet) (by simp [rowlessSpaces]) ⟨and_mask_of_le hw, ?_⟩
    simp only [miscellaneousSet, List.forall_mem_cons, List.not_mem_nil, false_imp_iff, implies_true, and_true]
    refine ⟨fun h => ?_, fun h => ?_, fun h => ?_, fun h => ?_, fun h => ?_⟩
    · have hb4 : bitAt w 4 = true := field_one_iff.1 (field_of_and_mask (len := 1) h)
      have hb7 : bitAt w 7 = true := field_one_iff.1 (field_of_and_mask (len := 1) h)
      simp [hb4, hb7] at hbits
    · have hf4 := field_of_and_mask (lo := 4) (len := 4) h
      have hf20 := field_of_and_mask (lo := 20) (len := 8) h
      exact hbx (by rw [hf4, hf20]; decide)
    · exact h4 (beq_iff_eq.2 (field_of_and_mask h))
    · exact h4 (beq_iff_eq.2 (field_of_and_mask h))
    · exact absurd (and_mask_agree hw h) (by decide)

/-- Format MSRI, and the rest of its space (R102, R118). -/
theorem placed_decodeMiscImm (hw : w &&& 0x0F900000 = 0x03000000) : Placed w (decodeMiscImm w c) := by
  refine placed_ite (fun h21 => ?_) fun h21 => ?_
  · refine placed_unlessBits (r := ⟨"MSR", 0x0FB00000, 0x03200000, 0, 0x0000F000⟩) (by simp [opcodeTable, opcodeRows6])
      (and_mask_of_le (and_or_mask hw (and_mask_of_bit h21))) rfl ?_
    have hsbo : w &&& 0x0000F000 = 0x0000F000 ↔ field w 12 4 = 0b1111#4 :=
      and_mask_eq_iff (lo := 12) (by decide) (by decide) (by decide)
    simp only [OpcodeRow.BitsOk, hsbo]
    simp
  · have hmask := and_or_mask hw (and_mask_of_bit (by simpa using h21))
    refine placed_refused (R := miscellaneousSet) (by simp [rowlessSpaces]) ⟨and_mask_of_le hw, ?_⟩
    simp only [miscellaneousSet, List.forall_mem_cons, List.not_mem_nil, false_imp_iff, implies_true, and_true]
    refine ⟨fun h => ?_, fun h => ?_, fun h => ?_, fun h => ?_, fun h => ?_⟩ <;>
      exact absurd (and_mask_agree hmask h) (by decide)

/-! ### Every word -/

/-- Bits 27:25 as the decoder reads them, as a mask (R112). -/
theorem and_mask_of_format {x : BitVec 3} {v : Word} (h : (field w 25 3).toNat = x.toNat)
    (hv : fieldBits 25 x = v) : w &&& 0x0E000000 = v :=
  (and_mask_eq_iff (by decide) (by decide) hv).2 (BitVec.eq_of_toNat_eq h)

/-- The decoder puts every word where the table has it (R112 to R118). -/
theorem placed_decodeOpcode : Placed w (decodeOpcode w c) := by
  unfold decodeOpcode
  split
  case h_1 hfmt =>
    have hw := and_mask_of_format (x := 0b000#3) hfmt rfl
    refine placed_ite (fun hbits => ?_) fun hbits => placed_ite (fun hmisc => ?_) fun hmisc => ?_
    · obtain ⟨h4, h7⟩ := Bool.and_eq_true_iff.1 hbits
      have h47 := and_or_mask hw (and_or_mask (and_mask_of_bit h4) (and_mask_of_bit h7))
      refine placed_ite (fun h5 => placed_decodeMul ?_) fun h5 => placed_decodeHalf ?_ (by simpa using h5)
      · exact and_mask_of_le (and_or_mask h47 (and_mask_of_field (beq_iff_eq.1 h5)))
      · exact and_mask_of_le h47
    · obtain ⟨h23, h20⟩ := isMisc_eq_true_iff.1 hmisc
      have hmask := and_or_mask hw (and_or_mask (and_mask_of_field h23) (and_mask_of_bit h20))
      exact placed_decodeMiscReg (and_mask_of_le hmask) (by simpa using hbits)
    · replace hmisc : isMisc w = false := by simpa using hmisc
      cases h4 : bitAt w 4 with
      | false =>
        exact placed_decodeDp (f := (0x0E000010, 0x00000000)) (by simp [dpForms])
          (and_mask_of_le (and_or_mask hw (and_mask_of_bit h4))) hmisc
      | true =>
        have h7 : bitAt w 7 = false := by simpa [h4] using hbits
        exact placed_decodeDp (f := (0x0E000090, 0x00000010)) (by simp [dpForms])
          (and_mask_of_le (and_or_mask hw (and_or_mask (and_mask_of_bit h4) (and_mask_of_bit h7)))) hmisc
  case h_2 hfmt =>
    have hw := and_mask_of_format (x := 0b001#3) hfmt rfl
    refine placed_ite (fun hmisc => ?_) fun hmisc => ?_
    · obtain ⟨h23, h20⟩ := isMisc_eq_true_iff.1 hmisc
      exact placed_decodeMiscImm (and_mask_of_le (and_or_mask hw (and_or_mask (and_mask_of_field h23)
        (and_mask_of_bit h20))))
    · exact placed_decodeDp (f := (0x0E000000, 0x02000000)) (by simp [dpForms]) hw (by simpa using hmisc)
  case h_3 hfmt =>
    exact placed_decodeSingle (f := (0x0E000000, 0x04000000)) (by simp [singleForms])
      (and_mask_of_format (x := 0b010#3) hfmt rfl)
  case h_4 hfmt =>
    have hw := and_mask_of_format (x := 0b011#3) hfmt rfl
    refine placed_ite (fun h4 => ?_) fun h4 => ?_
    · exact placed_undefined (R := ⟨0x0E000010, 0x06000010, []⟩) (by simp [rowlessSpaces])
        ⟨and_mask_of_le (and_or_mask hw (and_mask_of_bit h4)), by simp⟩
    · exact placed_decodeSingle (f := (0x0E000010, 0x06000000)) (by simp [singleForms])
        (and_mask_of_le (and_or_mask hw (and_mask_of_bit (by simpa using h4))))
  case h_5 hfmt => exact placed_decodeBlock (and_mask_of_format (x := 0b100#3) hfmt rfl)
  case h_6 hfmt =>
    have hw := and_mask_of_format (x := 0b101#3) hfmt rfl
    refine placed_ite (fun h24 => ?_) fun h24 => ?_
    · exact placed_instr (r := ⟨"BL", 0x0F000000, 0x0B000000, 0, 0⟩) (by simp [opcodeTable, opcodeRows1])
        (and_mask_of_le (and_or_mask hw (and_mask_of_bit h24))) rfl (bitsOk_of_zero rfl rfl)
    · exact placed_instr (r := ⟨"B", 0x0F000000, 0x0A000000, 0, 0⟩) (by simp [opcodeTable, opcodeRows1])
        (and_mask_of_le (and_or_mask hw (and_mask_of_bit (by simpa using h24)))) rfl
        (bitsOk_of_zero rfl rfl)
  case h_7 hfmt =>
    exact placed_refused (R := ⟨0x0E000000, 0x0C000000, []⟩) (by simp [rowlessSpaces])
      ⟨and_mask_of_format (x := 0b110#3) hfmt rfl, by simp⟩
  case h_8 =>
    have hfmt : field w 25 3 = 0b111#3 := eq_allOnes_of_last fun j hj => by
      interval_cases j <;> assumption
    have hw := and_mask_of_field hfmt
    refine placed_ite (fun h24 => ?_) fun h24 => ?_
    · exact placed_instr (r := ⟨"SWI", 0x0F000000, 0x0F000000, 0, 0⟩) (by simp [opcodeTable, opcodeRows1])
        (and_mask_of_le (and_or_mask hw (and_mask_of_bit h24))) rfl (bitsOk_of_zero rfl rfl)
    · exact placed_refused (R := ⟨0x0F000000, 0x0E000000, []⟩) (by simp [rowlessSpaces])
        ⟨and_mask_of_le (and_or_mask hw (and_mask_of_bit (by simpa using h24))), by simp⟩

/-- 0b1111 alone is no condition (R110, R116). -/
theorem condOf_eq_none_iff : condOf w = none ↔ field w 28 4 = 0b1111#4 := Cond.ofNum_eq_none _

/-- The same of the whole decoder, for a word that has a condition. -/
theorem placed_decode (h : field w 28 4 ≠ 0b1111#4) : Placed w (decode w) := by
  obtain ⟨c, hc⟩ := Option.ne_none_iff_exists'.1 (mt condOf_eq_none_iff.1 h)
  rw [decode_of_condOf hc]
  exact placed_decodeOpcode

/-- A word of a space without rows matches no row. -/
theorem not_matches_of_rowless {d : Decoded} {R : WordSet} {r : OpcodeRow} (hR : (d, R) ∈ rowlessSpaces)
    (hw : R.Holds w) (hr : r ∈ opcodeTable) : ¬ r.Matches w := fun h =>
  not_holds_of_apart (rowlessSpaces_apart_rows _ hR r hr) hw (holds_words_iff.2 h)

/-- What the decoder makes of a word, by whether a row or a space without rows has the word. -/
theorem placed_cases {d : Decoded} (h : Placed w d) :
    (∃ r ∈ opcodeTable, r.Matches w ∧
      ((∃ i, d = .instr i ∧ r.BitsOk w ∧ mnemonicOf i = r.mnemonic) ∨ (d = .refused .shouldBeBits ∧ ¬ r.BitsOk w))) ∨
    ∃ R, (d, R) ∈ rowlessSpaces ∧ R.Holds w := by
  unfold Placed at h
  split at h
  case h_1 i =>
    obtain ⟨r, hr, hw, hbits, hi⟩ := h
    exact .inl ⟨r, hr, hw, .inl ⟨i, rfl, hbits, hi⟩⟩
  case h_2 =>
    obtain ⟨r, hr, hw, hbits⟩ := h
    exact .inl ⟨r, hr, hw, .inr ⟨rfl, hbits⟩⟩
  case h_3 => exact .inr h

/-- A word of a space without rows decodes to what the space says (R117, R118). -/
theorem decode_of_rowless {d : Decoded} {R : WordSet} (h : field w 28 4 ≠ 0b1111#4) (hR : (d, R) ∈ rowlessSpaces)
    (hw : R.Holds w) : decode w = d := by
  rcases placed_cases (placed_decode h) with ⟨r, hr, hrw, -⟩ | ⟨R', hR', hw'⟩
  · exact absurd hrw (not_matches_of_rowless hR hw hr)
  · by_contra hne
    exact not_holds_of_apart (rowlessSpaces_apart _ hR' _ hR hne) hw' hw

/-- Settles O4: the decoder puts a word where the table has it, and rows and spaces exclude each other. -/
theorem opcodeTableRows : Obligations.OpcodeTableRows := by
  intro w h
  refine ⟨fun r hr q hq => row_unique hr hq, fun r hr hrw => ?_, fun hno i hi => ?_⟩
  · rcases placed_cases (placed_decode h) with ⟨q, hq, hqw, hd⟩ | ⟨R, hR, hw⟩
    · obtain rfl := row_unique hq hr hqw hrw
      split
      next hbits =>
        rcases hd with ⟨i, hi, -, hm⟩ | ⟨-, hbad⟩
        · exact ⟨i, hi, hm⟩
        · exact absurd hbits hbad
      next hbits =>
        rcases hd with ⟨-, -, hok, -⟩ | ⟨hd, -⟩
        · exact absurd hok hbits
        · exact hd
    · exact absurd hrw (not_matches_of_rowless hR hw hr)
  · rcases placed_cases (placed_decode h) with ⟨q, hq, hqw, -⟩ | ⟨R, hR, -⟩
    · exact hno q hq hqw
    · simp [hi, rowlessSpaces] at hR

end Sys2Proof.Claims

namespace Sys2Proof.Machine
/-! The steps that fetch a word that is no instruction (R116 to R118). -/

open Claims

variable {s : State} {w : Word} {c : Cond}

/-- A fetched word that asks for nothing that has a meaning refuses the step. -/
theorem step_of_issue_refused {why : Undecodable} (hf : Fetches s w) (h : issue w s.cpsr = .refused why) :
    step s = .refused (.undecodable why) := by
  obtain ⟨hirq, hword⟩ := hf
  simp only [step, stepCore, hirq, hword, h, tickOut]

/-- A fetched word that asks for the Undefined Instruction exception takes it (R307). -/
theorem step_of_issue_undefined (hf : Fetches s w) (h : issue w s.cpsr = .undefined) :
    step s = .next (s.raise .undefinedInstruction).tick := by
  obtain ⟨hirq, hword⟩ := hf
  simp only [step, stepCore, hirq, hword, h, tickOut]

/-- A word whose condition passes and that is refused asks for the refusal (R118). -/
theorem issue_of_refused {p : Word} {why : Undecodable} (hc : condOf w = some c) (hp : conditionPassed c p = true)
    (h : decode w = .refused why) : issue w p = .refused why := by
  rw [decode_of_condOf hc] at h
  simp [issue, hc, hp, h]

/-- A word asks for the Undefined Instruction exception exactly when its condition passes and it decodes as undefined
(R117, R131). -/
theorem issue_eq_undefined_iff {p : Word} :
    issue w p = .undefined ↔ (∃ c, condOf w = some c ∧ conditionPassed c p = true) ∧ decode w = .undefined := by
  unfold issue decode
  cases hc : condOf w with
  | none => simp
  | some c =>
    cases hp : conditionPassed c p with
    | false => simp [hp]
    | true => cases hd : decodeOpcode w c <;> simp [hp, hd]

/-- The model's names for the rows of the table of R306. -/
theorem entryRow_eq (e : Exc) : (entryRow e).1 = e.mode ∧ (entryRow e).2.1 = e.mode.bits ∧
    physReg .r14 e.mode = some (entryRow e).2.2.1 ∧ (entryRow e).2.2.2.1 = e.lrOffset ∧
    (entryRow e).2.2.2.2 = e.vector ∧ e.mode.hasSpsr = true := by
  cases e <;> exact ⟨rfl, rfl, rfl, rfl, rfl, rfl⟩

/-- The entry procedure of R306, for every exception and from every state. -/
theorem entered_raise (s : State) (e : Exc) : Entered s (s.raise e) e := by
  obtain ⟨hmode, hbits, hlr, hoffset, hvector, hspsr⟩ := entryRow_eq e
  have hpsrMode : psrMode (s.raise e).cpsr = some e.mode := by simp
  refine ⟨fun p => ?_, fun k => ?_, ?_, ?_, by simp, by simp, ?_, ?_, by simp [hvector], ⟨fun a => by simp, by simp⟩,
    by simp, by simp, by simp, by simp⟩
  · rw [State.raise_regs, State.setReg_regs _ _ _ _ _ hlr, Regs.read_write, hoffset]
    simp only [eq_comm]
  · rw [State.raise_spsr, hmode]
    split
    next h => rw [h, Spsrs.read_write_same _ _ _ hspsr]
    next h => rw [Spsrs.read_write_ne _ _ _ _ (Ne.symm h)]
  · rw [hbits]
    exact (Mode.bits_of_ofBits _ _ hpsrMode).symm
  · rw [hmode]
    exact hpsrMode
  · rw [State.raise_cpsr, psrF_entryPsr]
    cases e <;> simp
  · refine BitVec.eq_of_getLsbD_eq fun i hi => ?_
    simp [hi, getLsbD_entryPsr_high e s.cpsr (8 + i) (by omega)]

/-- The UNDEFINED space (R117). -/
theorem decode_eq_undefined_iff (h : field w 28 4 ≠ 0b1111#4) :
    decode w = .undefined ↔ field w 25 3 = 0b011#3 ∧ bitAt w 4 = true := by
  constructor
  · intro hd
    rcases placed_cases (placed_decode h) with ⟨r, -, -, ⟨i, hi, -⟩ | ⟨hi, -⟩⟩ | ⟨R, hR, hw, -⟩
    · simp [hd] at hi
    · simp [hd] at hi
    · obtain rfl : R = ⟨0x0E000010, 0x06000010, []⟩ := by simpa [hd, rowlessSpaces] using hR
      exact ⟨field_of_and_mask hw, field_one_iff.1 (field_of_and_mask (len := 1) hw)⟩
  · rintro ⟨h25, h4⟩
    exact decode_of_rowless h (R := ⟨0x0E000010, 0x06000010, []⟩) (by simp [rowlessSpaces])
      ⟨and_mask_of_le (and_or_mask (and_mask_of_field h25) (and_mask_of_bit h4)), by simp⟩

/-- A condition field that names a condition is not 0b1111. -/
theorem field_cond_ne (hc : condOf w = some c) : field w 28 4 ≠ 0b1111#4 := fun h => by
  simp [condOf_eq_none_iff.2 h] at hc

/-- Settles O6: the issue refuses the word before it looks at its other bits. -/
theorem neverCondition : Obligations.NeverCondition := by
  intro s w hf h
  exact step_of_issue_refused hf (by simp [issue, condOf_eq_none_iff.2 h])

/-- A word that decodes as undefined has a condition. -/
theorem field_cond_ne_of_undefined (h : decode w = .undefined) : field w 28 4 ≠ 0b1111#4 := fun hcond => by
  simp [decode, condOf_eq_none_iff.2 hcond] at h

/-- Settles O5: the decoder answers undefined exactly on the space of R117, and the issue hands that on. -/
theorem undefinedSpace : Obligations.UndefinedSpace := by
  have hspace (w : Word) (h : decode w = .undefined) : field w 25 3 = 0b011#3 ∧ bitAt w 4 = true :=
    (decode_eq_undefined_iff (field_cond_ne_of_undefined h)).1 h
  refine ⟨fun s w c hf hc hp h25 h4 => ?_, hspace, fun w p h => hspace w (issue_eq_undefined_iff.1 h).2⟩
  have hd : decode w = .undefined := (decode_eq_undefined_iff (field_cond_ne hc)).2 ⟨h25, h4⟩
  exact ⟨_, step_of_issue_undefined hf (issue_eq_undefined_iff.2 ⟨⟨c, hc, hp⟩, hd⟩), entered_raise s _⟩

/-- Settles O7: each named space has no row and decodes to its name, and a word without a row has no instruction. -/
theorem unallocatedRefused : Obligations.UnallocatedRefused := by
  refine ⟨fun s w c why hf hc hp hd => step_of_issue_refused hf (issue_of_refused hc hp hd), fun w hcond => ?_⟩
  have hspace {why : Undecodable} {R : WordSet} (hR : (.refused why, R) ∈ rowlessSpaces) (hw : w &&& R.mask = R.value)
      (hexcept : ∀ e ∈ R.except, w &&& e.1 ≠ e.2) : decode w = .refused why :=
    decode_of_rowless hcond hR ⟨hw, hexcept⟩
  refine ⟨fun hno hundef => ?_, fun h => ?_, fun h => ?_, fun h hreg => ?_, fun h hsh => ?_, fun h hix => ?_,
    fun h => ?_, fun h => ?_, fun h h1 h2 h3 h4 h5 => ?_, fun h => ?_, fun h => ?_⟩
  · cases hd : decode w with
    | instr i =>
      rcases placed_cases (placed_decode hcond) with ⟨r, hr, hrw, -⟩ | ⟨R, hR, -⟩
      · exact absurd hrw (hno r hr)
      · simp [hd, rowlessSpaces] at hR
    | undefined => exact absurd ((decode_eq_undefined_iff hcond).1 hd) hundef
    | refused why => exact ⟨why, rfl⟩
  · exact hspace (R := ⟨0x0FB000F0, 0x01000090, []⟩) (by simp [rowlessSpaces]) h (by simp)
  · exact hspace (R := ⟨0x0FF000F0, 0x01200010, []⟩) (by simp [rowlessSpaces]) h (by simp)
  · exact hspace (R := ⟨0x0D200000, 0x04200000, [(0x02000010, 0x02000010)]⟩) (by simp [rowlessSpaces]) h
      (by simpa using hreg)
  · exact hspace (R := ⟨0x0F200090, 0x00200090, [(0x00000060, 0)]⟩) (by simp [rowlessSpaces]) h (by simpa using hsh)
  · exact hspace (R := ⟨0x0E1000D0, 0x000000D0, [(0x01200000, 0x00200000)]⟩) (by simp [rowlessSpaces]) h
      (by simpa using hix)
  · exact hspace (R := ⟨0x0E400000, 0x08400000, []⟩) (by simp [rowlessSpaces]) h (by simp)
  · exact hspace (R := ⟨0x0FC000F0, 0x00400090, []⟩) (by simp [rowlessSpaces]) h (by simp)
  · exact hspace (R := miscellaneousSet) (by simp [rowlessSpaces]) h
      (by simpa [miscellaneousSet] using ⟨h1, h2, h3, h4, h5⟩)
  · exact hspace (R := ⟨0x0E000000, 0x0C000000, []⟩) (by simp [rowlessSpaces]) h (by simp)
  · exact hspace (R := ⟨0x0F000000, 0x0E000000, []⟩) (by simp [rowlessSpaces]) h (by simp)

end Sys2Proof.Machine

namespace Sys2Proof.Machine
/-! Conditional execution (spec/40_conditional_execution.md): when each condition passes, what a failed condition leaves
unchanged, and the conditions after a comparison. -/

open Claims

variable {s : State} {m : Mode} {c : Cond}

/-! ### When each condition passes (R132) -/

section
variable {p : Word}

theorem conditionPassed_eq : conditionPassed .eq p = true ↔ psrZ p = true := Iff.rfl
theorem conditionPassed_ne : conditionPassed .ne p = true ↔ psrZ p = false := by simp [conditionPassed]
theorem conditionPassed_cs : conditionPassed .cs p = true ↔ psrC p = true := Iff.rfl
theorem conditionPassed_cc : conditionPassed .cc p = true ↔ psrC p = false := by simp [conditionPassed]
theorem conditionPassed_mi : conditionPassed .mi p = true ↔ psrN p = true := Iff.rfl
theorem conditionPassed_pl : conditionPassed .pl p = true ↔ psrN p = false := by simp [conditionPassed]
theorem conditionPassed_vs : conditionPassed .vs p = true ↔ psrV p = true := Iff.rfl
theorem conditionPassed_vc : conditionPassed .vc p = true ↔ psrV p = false := by simp [conditionPassed]
theorem conditionPassed_hi : conditionPassed .hi p = true ↔ psrC p = true ∧ psrZ p = false := by
  simp [conditionPassed]
theorem conditionPassed_ls : conditionPassed .ls p = true ↔ psrC p = false ∨ psrZ p = true := by
  simp [conditionPassed]
theorem conditionPassed_ge : conditionPassed .ge p = true ↔ psrN p = psrV p := by simp [conditionPassed]
theorem conditionPassed_lt : conditionPassed .lt p = true ↔ psrN p ≠ psrV p := by simp [conditionPassed]
theorem conditionPassed_gt : conditionPassed .gt p = true ↔ psrZ p = false ∧ psrN p = psrV p := by
  simp [conditionPassed]
theorem conditionPassed_le : conditionPassed .le p = true ↔ psrZ p = true ∨ psrN p ≠ psrV p := by
  simp [conditionPassed]
theorem conditionPassed_al : conditionPassed .al p = true ↔ True := by simp [conditionPassed]

end

/-- Settles O10: each number with its condition and the flags on which that passes. -/
theorem conditionTable : Obligations.ConditionTable := fun _ =>
  ⟨⟨.eq, rfl, conditionPassed_eq⟩, ⟨.ne, rfl, conditionPassed_ne⟩, ⟨.cs, rfl, conditionPassed_cs⟩,
    ⟨.cc, rfl, conditionPassed_cc⟩, ⟨.mi, rfl, conditionPassed_mi⟩, ⟨.pl, rfl, conditionPassed_pl⟩,
    ⟨.vs, rfl, conditionPassed_vs⟩, ⟨.vc, rfl, conditionPassed_vc⟩, ⟨.hi, rfl, conditionPassed_hi⟩,
    ⟨.ls, rfl, conditionPassed_ls⟩, ⟨.ge, rfl, conditionPassed_ge⟩, ⟨.lt, rfl, conditionPassed_lt⟩,
    ⟨.gt, rfl, conditionPassed_gt⟩, ⟨.le, rfl, conditionPassed_le⟩, ⟨.al, rfl, conditionPassed_al⟩, rfl⟩

/-! ### A condition that fails (R131) -/

/-- Settles O9: the step of a word whose condition fails and every such instruction come to `advance`; a condition field
that names no condition is refused at the issue. -/
theorem failedCondition : Obligations.FailedCondition := by
  refine ⟨fun s w c hf hw hc hroom => ?_, fun s i m hm hc hroom => ?_, fun s w hf hnever => ?_⟩
  · rw [step_of_failed hf hw hc, advance_of_room hroom]
    rfl
  · have hx : exec i s = .next (s.setPc (s.pc + 4)) := by rw [exec_of_failed hm hc, advance_of_room hroom]
    exact ⟨_, hx, rfl, fun _ => rfl, rfl, rfl, .refl s, rfl, .refl s⟩
  · exact ⟨_, neverCondition s w hf hnever⟩

/-! ### Addition with a carry, read as signed and as unsigned (R156) -/

section
variable (x y : Word) (cin : Bool)

/-- The result read as a signed number is the exact sum modulo 2^32. -/
theorem addWithCarry_result_toInt :
    (addWithCarry x y cin).result.toInt = (x.toInt + y.toInt + (cin.toNat : Int)).bmod (2 ^ 32) := by
  simp only [addWithCarry, BitVec.toInt_ofNat', x.toInt_eq_toNat_cond, y.toInt_eq_toNat_cond, Int.bmod_def]
  omega

/-- The N flag, corrected by the V flag, is the sign of the exact sum, also where that sum does not fit. -/
theorem addWithCarry_msb_ne_overflow :
    (addWithCarry x y cin).result.msb ≠ (addWithCarry x y cin).overflow ↔
      x.toInt + y.toInt + (cin.toNat : Int) < 0 := by
  have hresult := addWithCarry_result_toInt x y cin
  have hoverflow : (addWithCarry x y cin).overflow =
      decide ((addWithCarry x y cin).result.toInt ≠ x.toInt + y.toInt + (cin.toNat : Int)) := rfl
  have hx := x.le_toInt
  have hx' := x.toInt_lt
  have hy := y.le_toInt
  have hy' := y.toInt_lt
  have hcin := cin.toNat_le
  rw [hoverflow, BitVec.msb_eq_toInt, hresult, Int.bmod_def, ne_eq, decide_eq_decide]
  omega

end

/-! ### Subtraction as an addition (R156, R170) -/

section
variable (a b : Word)

/-- The signed value of the bitwise complement. -/
theorem toInt_complement : (~~~b).toInt = -b.toInt - 1 := by
  simp only [BitVec.toInt_eq_toNat_cond, BitVec.toNat_not]
  omega

/-- The complement of the subtrahend with a carry in makes the difference. -/
theorem addWithCarry_complement_result : (addWithCarry a (~~~b) true).result = a - b := by
  apply BitVec.eq_of_toInt_eq
  rw [addWithCarry_result_toInt, toInt_complement, BitVec.toInt_sub]
  congr 1
  simp only [Bool.toNat_true]
  omega

/-- The result of a subtraction is 0 exactly where the operands are equal. -/
theorem addWithCarry_complement_zero : ((addWithCarry a (~~~b) true).result == 0) = true ↔ a = b := by
  rw [addWithCarry_complement_result, beq_iff_eq]
  exact sub_eq_zero

/-- A subtraction carries out exactly where it does not borrow. -/
theorem addWithCarry_complement_carry : (addWithCarry a (~~~b) true).carry = true ↔ b.toNat ≤ a.toNat := by
  simp only [addWithCarry, decide_eq_true_eq, BitVec.toNat_not, Bool.toNat_true]
  omega

/-- After a subtraction N and V agree exactly where the minuend is not the smaller as a signed number. -/
theorem addWithCarry_complement_msb_eq_overflow :
    (addWithCarry a (~~~b) true).result.msb = (addWithCarry a (~~~b) true).overflow ↔ b.toInt ≤ a.toInt := by
  rw [← not_iff_not, ← ne_eq, addWithCarry_msb_ne_overflow, toInt_complement, Bool.toNat_true]
  omega

end

/-! ### The conditions after a comparison (R132, R170) -/

/-- A comparison that passes sets the flags of its result and moves on. -/
theorem compareOp_of_passed {rn : Reg} {op2 : Operand2} {f : Word → Word → Bool → AluOut} (hp : Passes s m c)
    (hroom : Room s) (hmis : op2.pcMisuse [rn] = false) :
    compareOp c rn op2 s f = .next ((s.setAluFlags
      (f (s.rd m rn) (s.operand2 m op2).value (s.operand2 m op2).carry)).setPc (s.pc + 4)) := by
  rw [compareOp, whenPassed_of_passed hp.1 hp.2, hmis]
  exact advance_of_room hroom

/-- The flags after a `CMP` that passes: Z where the operands are equal, C where the first is not the smaller as an
unsigned number, N and V equal where it is not the smaller as a signed number (R156, R170). -/
theorem exec_cmp_flags {rn : Reg} {o : Operand2} (hp : Passes s m c) (hroom : Room s) (hmis : o.pcMisuse [rn] = false) :
    ∃ t, exec (.cmp c rn o) s = .next t ∧
      (psrZ t.cpsr = true ↔ s.rd m rn = (s.operand2 m o).value) ∧
      (psrC t.cpsr = true ↔ (s.operand2 m o).value.toNat ≤ (s.rd m rn).toNat) ∧
      (psrN t.cpsr = psrV t.cpsr ↔ (s.operand2 m o).value.toInt ≤ (s.rd m rn).toInt) := by
  refine ⟨_, by rw [exec, execCmp, compareOp_of_passed hp hroom hmis], ?_⟩
  simp only [State.setPc_cpsr, State.setAluFlags_cpsr, psrN_psrSetFlags, psrZ_psrSetFlags, psrC_psrSetFlags,
    psrV_psrSetFlags]
  exact ⟨addWithCarry_complement_zero .., addWithCarry_complement_carry .., addWithCarry_complement_msb_eq_overflow ..⟩

/-- Settles O11: Z says whether the operands are equal, C how they are ordered as unsigned numbers, and N and V together
how they are ordered as signed numbers. -/
theorem comparisonOrderings : Obligations.ComparisonOrderings := by
  intro s m c rn o hp hroom hmis
  obtain ⟨t, hx, hz, hc, hnv⟩ := exec_cmp_flags hp hroom hmis
  refine ⟨t, hx, ?_⟩
  dsimp only
  generalize s.rd m rn = a, (s.operand2 m o).value = b at hz hc hnv ⊢
  have hnz : psrZ t.cpsr = false ↔ a ≠ b := by rw [← Bool.not_eq_true, hz]
  have hnc : psrC t.cpsr = false ↔ a.toNat < b.toNat := by rw [← Bool.not_eq_true, hc, not_le]
  have hlt : psrN t.cpsr ≠ psrV t.cpsr ↔ a.toInt < b.toInt := by rw [ne_eq, hnv, not_le]
  refine ⟨conditionPassed_eq.trans hz, conditionPassed_ne.trans hnz, conditionPassed_cs.trans hc,
    conditionPassed_cc.trans hnc, ?_, ?_, conditionPassed_ge.trans hnv, conditionPassed_lt.trans hlt, ?_, ?_⟩
  · rw [conditionPassed_hi, hc, hnz, ← BitVec.toNat_inj.ne]
    omega
  · rw [conditionPassed_ls, hnc, hz, ← BitVec.toNat_inj]
    omega
  · rw [conditionPassed_gt, hnz, hnv, ← BitVec.toInt_inj.ne]
    omega
  · rw [conditionPassed_le, hz, hlt, ← BitVec.toInt_inj]
    omega

end Sys2Proof.Machine

namespace Sys2Proof.Claims
/-! What the register and pc writes change and what they leave (R24, R30): rules for `Writes` and `SameRest`. -/

open Machine

variable {s u : State} {m : Mode} {r : Reg} {v : Word}

/-- A state has its own rest. -/
theorem SameRest.refl (s : State) : SameRest s s := ⟨rfl, .refl s, rfl, .refl s⟩

/-- A register write reaches nothing but the register file. -/
theorem SameRest.setReg (hu : SameRest s u) (m : Mode) (r : Reg) (v : Word) : SameRest s (u.setReg m r v) := by
  simpa [SameRest, SameMemory, SameInputs] using hu

/-- A write of the pc reaches nothing else. -/
theorem SameRest.setPc (hu : SameRest s u) (a : Word) : SameRest s (u.setPc a) := hu

/-- A register write changes the one physical register that the name means in the mode (R24). -/
theorem writes_setReg (hr : r ≠ .r15) : Writes s (s.setReg m r v) m r v := by
  intro p
  obtain ⟨q, hq⟩ := physReg_of_ne r m hr
  rw [State.setReg_regs _ _ _ _ _ hq, Regs.read_write, hq]
  simp only [Option.some.injEq, eq_comm]

/-- A write of the pc changes no general register. -/
theorem Writes.setPc (hu : Writes s u m r v) (a : Word) : Writes s (u.setPc a) m r v := hu

end Sys2Proof.Claims

namespace Sys2Proof.Machine
/-! The branches (spec/41_branch.md): the target as an integer, and what `B` and `BL` change. -/

open Claims

variable {s : State} {m : Mode} {c : Cond}

/-- The offset of a branch in bytes, sign-extended, is four times the signed field (R104). -/
theorem toInt_branchOffset (offset : BitVec 24) :
    ((offset ++ 0b00#2).signExtend 32).toInt = 4 * offset.toInt := by
  rw [BitVec.toInt_signExtend_of_le (by decide), BitVec.toInt_append_zero]
  omega

/-- The target of a branch, modulo 2^32 (R143). -/
theorem toNat_branchTarget (pc : Word) (offset : BitVec 24) :
    ((branchTarget pc offset).toNat : Int) = (pc.toNat + 8 + 4 * offset.toInt) % 2 ^ 32 := by
  rw [← toInt_branchOffset, branchTarget, BitVec.toNat_add, BitVec.toNat_add, BitVec.toInt_eq_toNat_cond]
  have h8 : (8 : Word).toNat = 8 := rfl
  split <;> omega

/-- `B` that passes writes the pc (R141). -/
theorem exec_b_of_passed (hp : Passes s m c) (offset : BitVec 24) :
    exec (.b c offset) s = .next (s.setPc (branchTarget s.pc offset)) := by
  rw [exec, execB, whenPassed_of_passed hp.1 hp.2]

/-- `BL` that passes writes r14 of the current mode and the pc (R142). -/
theorem exec_bl_of_passed (hp : Passes s m c) (offset : BitVec 24) :
    exec (.bl c offset) s = .next ((s.setReg m .r14 (s.pc + 4)).setPc (branchTarget s.pc offset)) := by
  rw [exec, execBl, whenPassed_of_passed hp.1 hp.2]

/-- Settles O12: both branches write the target to the pc, `BL` the link value to r14 before it. -/
theorem branchTargets : Obligations.BranchTargets := by
  intro s m c offset hp
  constructor
  · exact ⟨_, exec_b_of_passed hp offset, toNat_branchTarget s.pc offset, fun _ => rfl, rfl, (SameRest.refl s).setPc _⟩
  · exact ⟨_, exec_bl_of_passed hp offset, toNat_branchTarget s.pc offset, (writes_setReg (by decide)).setPc _,
      State.setReg_cpsr .., ((SameRest.refl s).setReg m .r14 _).setPc _⟩

end Sys2Proof.Machine

namespace Sys2Proof
/-! The words of the spec's worked examples. -/

/-- The encoding of an instruction decodes to it. -/
theorem decode_of_encode_eq {w : Word} {i : Instr} (h : encode i = w) : decode w = .instr i := by
  rw [← h]
  exact decodeOfEncode i

/-- Settles O3: each word is the encoding of its instruction, and so decodes to it. -/
theorem specWordsDecode : Obligations.SpecWordsDecode := by
  unfold Obligations.SpecWordsDecode
  and_intros <;> exact decode_of_encode_eq rfl

end Sys2Proof

namespace Sys2Proof.Machine
/-! The barrel shifter (R151 to R153): the value of each shift as arithmetic or bit by bit, and the tables of the three
forms of Operand2. -/

/-! ### The shifts of a word -/

section
variable (v : Word)

/-- LSL multiplies by a power of two. -/
theorem toNat_lsl (n : Nat) : (v <<< n).toNat = v.toNat * 2 ^ n % 2 ^ 32 := by
  rw [BitVec.toNat_shiftLeft, Nat.shiftLeft_eq]

/-- LSR divides by a power of two. -/
theorem toNat_lsr (n : Nat) : (v >>> n).toNat = v.toNat / 2 ^ n := by
  rw [BitVec.toNat_ushiftRight, Nat.shiftRight_eq_div_pow]

/-- ASR divides the signed value by a power of two, rounding down. -/
theorem toInt_asr (n : Nat) : (v.sshiftRight n).toInt = v.toInt / 2 ^ n := by
  rw [BitVec.toInt_sshiftRight, Int.shiftRight_eq_div_pow]
  rfl

/-- ROR moves each bit down, around the word. -/
theorem getLsbD_ror (n : Nat) {i : Nat} (hi : i < 32) : (v.rotateRight n).getLsbD i = v.getLsbD ((i + n) % 32) := by
  rw [BitVec.getLsbD_rotateRight, decide_eq_true hi, Bool.true_and, Bool.cond_decide]
  split <;> congr 1 <;> omega

/-- RRX moves each bit down by one, with the C flag on top. -/
theorem getLsbD_rrx (carryIn : Bool) :
    (packed (BitVec.ofBool carryIn ++ v.extractLsb' 1 31)).getLsbD 31 = carryIn ∧
    ∀ i < 31, (packed (BitVec.ofBool carryIn ++ v.extractLsb' 1 31)).getLsbD i = v.getLsbD (i + 1) := by
  constructor
  · rw [getLsbD_packed _ _ (by decide), getLsbD_append_high _ _ _ (by decide), getLsbD_ofBool]
    rfl
  · intro i hi
    rw [getLsbD_packed _ _ (by omega), getLsbD_append_low _ _ _ hi]
    simp [hi, Nat.add_comm]

/-- A word of copies of the sign. -/
theorem fill_msb : fill v.msb = if v.getLsbD 31 then 0xFFFFFFFF else 0 := by
  rw [fill, BitVec.msb_eq_getLsbD_last]

end

/-! ### The tables -/

/-- Settles O18: a rotation moves each bit around the word, and bit 31 of the operand is its sign. -/
theorem immediateOperand : Obligations.ImmediateOperand := by
  intro s m rot imm8
  refine ⟨fun i hi => getLsbD_ror _ _ hi, ?_⟩
  simp only [State.operand2, shiftOfImm, BitVec.msb_eq_getLsbD_last, beq_iff_eq]

/-- Settles O19, by the four rows of the table, each with its form for an amount of 0. -/
theorem constantShifts : Obligations.ConstantShifts := by
  intro s m rm kind amount
  dsimp only [State.operand2]
  generalize s.rd m rm = v
  cases kind with
  | lsl =>
    dsimp only [shiftByImm]
    split
    · exact ⟨rfl, rfl⟩
    · exact ⟨toNat_lsl .., rfl⟩
  | lsr =>
    dsimp only [shiftByImm]
    split
    · exact ⟨rfl, BitVec.msb_eq_getLsbD_last v⟩
    · exact ⟨toNat_lsr .., rfl⟩
  | asr =>
    dsimp only [shiftByImm]
    split
    · exact ⟨fill_msb v, BitVec.msb_eq_getLsbD_last v⟩
    · exact ⟨toInt_asr .., rfl⟩
  | ror =>
    dsimp only [shiftByImm]
    split
    · obtain ⟨htop, hlow⟩ := getLsbD_rrx v (psrC s.cpsr)
      exact ⟨htop, hlow, rfl⟩
    · exact ⟨fun i hi => getLsbD_ror _ _ hi, rfl⟩

end Sys2Proof.Machine

namespace Sys2Proof.Claims
/-! What the data-processing instructions compute (R156, R160 to R176): the model's result and flags for each of them,
as the exact value over the integers or bit by bit; and what a flag write leaves. -/

open Machine

/-! ### The model's result -/

/-- The words and the carry-in that an arithmetic instruction adds: a subtraction adds the complement (R162 to R167). -/
def Arith.addends (k : Arith) (a b : Word) (carry : Bool) : Word × Word × Bool :=
  match k with
  | .add => (a, b, false)
  | .adc => (a, b, carry)
  | .sub => (a, ~~~b, true)
  | .sbc => (a, ~~~b, carry)
  | .rsb => (b, ~~~a, true)
  | .rsc => (b, ~~~a, carry)

/-- What an arithmetic instruction adds, with result, C and V. -/
def Arith.alu (k : Arith) (a b : Word) (carry : Bool) : AluOut :=
  addWithCarry (k.addends a b carry).1 (k.addends a b carry).2.1 (k.addends a b carry).2.2

/-- The word a logical instruction computes (R160, R161, R172 to R175). -/
def Logical.word (k : Logical) (a b : Word) : Word :=
  match k with
  | .and => a &&& b
  | .eor => a ^^^ b
  | .orr => a ||| b
  | .bic => a &&& ~~~b
  | .mov => b
  | .mvn => ~~~b

/-- The result, C and V that an instruction computes from `rd(Rn)`, Operand2, its carry-out and the `cpsr`. -/
def Dest.alu (k : Dest) (psr a b : Word) (shifterCarry : Bool) : AluOut :=
  match k with
  | .logical k => Machine.logical (k.word a b) shifterCarry psr
  | .arith k => k.alu a b (psrC psr)

/-! ### Addition read over the integers -/

section
variable (x y : Word) (cin : Bool)

/-- The result is the unsigned sum modulo 2^32. -/
theorem addWithCarry_result_toNat : (addWithCarry x y cin).result.toNat = (x.toNat + y.toNat + cin.toNat) % 2 ^ 32 :=
  BitVec.toNat_ofNat ..

/-- V says that the signed sum does not fit. -/
theorem addWithCarry_overflow_iff : (addWithCarry x y cin).overflow = false ↔
    -2 ^ 31 ≤ x.toInt + y.toInt + (cin.toNat : Int) ∧ x.toInt + y.toInt + (cin.toNat : Int) < 2 ^ 31 := by
  have hoverflow : (addWithCarry x y cin).overflow =
      decide ((addWithCarry x y cin).result.toInt ≠ x.toInt + y.toInt + (cin.toNat : Int)) := rfl
  rw [hoverflow, addWithCarry_result_toInt, decide_eq_false_iff_not, not_not, Int.bmod_eq_iff (by decide)]
  omega

end

/-! ### Arithmetic -/

section
variable (k : Arith) (a b : Word) (carry : Bool)

/-- The instructions that add rather than subtract. -/
def Arith.isSum (k : Arith) : Bool :=
  match k with
  | .add | .adc => true
  | _ => false

/-- C by kind: a sum that does not fit, or a difference without a borrow (R176). -/
theorem Arith.carry_eq : k.carry a b carry =
    decide ((if k.isSum then 2 ^ 32 else 0) ≤ k.exact a.toNat b.toNat carry) := by
  cases k <;> rfl

/-- As signed numbers the addends make the exact value. -/
theorem Arith.addends_toInt : let p := k.addends a b carry
    p.1.toInt + p.2.1.toInt + (p.2.2.toNat : Int) = k.exact a.toInt b.toInt carry := by
  cases k <;> simp only [Arith.addends, Arith.exact, toInt_complement, Bool.toNat_true, Bool.toNat_false] <;> omega

/-- As unsigned numbers they make the exact value, which a complement raises by 2^32. -/
theorem Arith.addends_toNat : let p := k.addends a b carry
    ((p.1.toNat + p.2.1.toNat + p.2.2.toNat : Nat) : Int) =
      k.exact a.toNat b.toNat carry + if k.isSum then 0 else 2 ^ 32 := by
  have ha := a.isLt
  have hb := b.isLt
  cases k <;> simp [Arith.addends, Arith.exact, Arith.isSum, BitVec.toNat_not] <;> omega

/-- The result is the exact value modulo 2^32. -/
theorem Arith.alu_result : ((k.alu a b carry).result.toNat : Int) = k.exact a.toNat b.toNat carry % 2 ^ 32 := by
  rw [Arith.alu, addWithCarry_result_toNat, Int.natCast_emod, k.addends_toNat a b carry]
  split <;> omega

/-- The carry out is C: a difference borrows where the complement does not carry. -/
theorem Arith.alu_carry : (k.alu a b carry).carry = k.carry a b carry := by
  have hsum := k.addends_toNat a b carry
  have hcarry : (k.alu a b carry).carry = decide (2 ^ 32 ≤ (k.addends a b carry).1.toNat +
    (k.addends a b carry).2.1.toNat + (k.addends a b carry).2.2.toNat) := rfl
  rw [hcarry, k.carry_eq, decide_eq_decide]
  cases hk : k.isSum <;> simp only [hk, Bool.false_eq_true, if_true, if_false] at hsum ⊢ <;> omega

/-- The signed overflow is V. -/
theorem Arith.alu_overflow : (k.alu a b carry).overflow = k.overflow a b carry := by
  have hfits := addWithCarry_overflow_iff (k.addends a b carry).1 (k.addends a b carry).2.1 (k.addends a b carry).2.2
  rw [k.addends_toInt a b carry] at hfits
  rw [Arith.alu, ← Bool.not_inj_iff, Arith.overflow, Bool.not_not, Bool.eq_iff_iff]
  simpa using hfits

end

/-! ### Logic -/

/-- The word has the instruction's bits. -/
theorem Logical.getLsbD_word (k : Logical) (a b : Word) {i : Nat} (hi : i < 32) :
    (k.word a b).getLsbD i = k.bit (a.getLsbD i) (b.getLsbD i) := by
  cases k <;> simp [Logical.word, Logical.bit, hi]

/-! ### Both -/

/-- Operands have one result. -/
theorem Dest.Result.unique {k : Dest} {a b v v' : Word} {carry : Bool} (h : k.Result a b carry v)
    (h' : k.Result a b carry v') : v = v' := by
  cases k with
  | logical k => exact BitVec.eq_of_getLsbD_eq fun i hi => (h i hi).trans (h' i hi).symm
  | arith k => exact BitVec.eq_of_toNat_eq (Int.ofNat_inj.1 (h.trans h'.symm))

section
variable (k : Dest) (psr a b : Word) (shifterCarry : Bool)

/-- The model's result is the instruction's. -/
theorem Dest.result_alu : k.Result a b (psrC psr) (k.alu psr a b shifterCarry).result := by
  cases k with
  | logical k => exact fun i hi => k.getLsbD_word a b hi
  | arith k => exact k.alu_result a b _

end

/-- A flag write puts N and Z of the result, C and V into the `cpsr` (R156). -/
theorem flags_setAluFlags {s t : State} {o : AluOut} (h : t.cpsr = (s.setAluFlags o).cpsr) :
    Flags t (o.result.getLsbD 31) (decide (o.result = 0)) o.carry o.overflow := by
  rw [Flags, h, State.setAluFlags_cpsr, BitVec.msb_eq_getLsbD_last, beq_eq_decide]
  exact ⟨psrN_psrSetFlags .., psrZ_psrSetFlags .., psrC_psrSetFlags .., psrV_psrSetFlags ..⟩

/-- The model's flags are those the instruction sets (R156). -/
theorem Dest.setsFlags_alu (k : Dest) {s t : State} {a b : Word} {shifterCarry : Bool}
    (h : t.cpsr = (s.setAluFlags (k.alu s.cpsr a b shifterCarry)).cpsr) :
    k.SetsFlags s t a b shifterCarry (k.alu s.cpsr a b shifterCarry).result := by
  have hflags := flags_setAluFlags h
  cases k with
  | logical k => exact hflags
  | arith k =>
    simp only [Dest.alu, k.alu_carry, k.alu_overflow] at hflags
    exact hflags

/-! ### The frame -/

variable {s u : State}

/-- A flag write reaches nothing but the `cpsr`. -/
theorem SameRest.setAluFlags (hu : SameRest s u) (o : AluOut) : SameRest s (u.setAluFlags o) := hu

/-- A write of the `cpsr` reaches nothing else. -/
theorem SameRest.setCpsr (hu : SameRest s u) (p : Word) : SameRest s (u.setCpsr p) := hu

/-- A flag write changes no general register. -/
theorem Writes.setAluFlags {m : Mode} {r : Reg} {v : Word} (hu : Writes s u m r v) (o : AluOut) :
    Writes s (u.setAluFlags o) m r v := hu

/-- A flag write leaves bits 27:0 of the `cpsr` alone (R44). -/
theorem sameControl_of_flags {o : AluOut} {t : State} (h : t.cpsr = (s.setAluFlags o).cpsr) : SameControl s t := by
  rw [SameControl, h]
  exact extract_psrSetFlags _ _ _ _ _ 0 28 (by decide)

/-- The same `cpsr` has the same bits 27:0. -/
theorem SameControl.of_cpsr {t : State} (h : t.cpsr = s.cpsr) : SameControl s t := by rw [SameControl, h]

end Sys2Proof.Claims

namespace Sys2Proof.Machine
/-! The data-processing instructions (spec/42_data_processing.md): what each of the sixteen comes to, by destination. -/

open Claims

variable {s : State} {m : Mode} {c : Cond} {st : Bool} {rd rn : Reg} {o : Operand2}

/-! ### Fields -/

/-- An address is word aligned exactly where its two low bits are 0, as a field (R64). -/
theorem isAligned_four_iff_low (a : Word) : isAligned a 4 = true ↔ a.extractLsb' 0 2 = 0 := by
  rw [isAligned_four_iff, BitVec.setWidth_eq_extractLsb' (by decide)]
  rfl

/-- Two words agree on a field exactly when they agree on its two parts. -/
theorem field_eq_field_iff {w u : Word} {lo x y : Nat} : field w lo (x + y) = field u lo (x + y) ↔
    field w (lo + y) x = field u (lo + y) x ∧ field w lo y = field u lo y := by
  rw [field_split, extract_field (by omega), extract_field (by omega), Nat.add_zero]

/-- The reserved bits of a status register, by R42's names: bit 27, bits 26:25, J and bits 23:8. -/
theorem psrReserved_eq_iff {p q : Word} : psrReserved p = psrReserved q ↔
    p.getLsbD 27 = q.getLsbD 27 ∧ p.extractLsb' 25 2 = q.extractLsb' 25 2 ∧ psrJ p = psrJ q ∧
      p.extractLsb' 8 16 = q.extractLsb' 8 16 := by
  have hbit (k : Nat) : field p k 1 = field q k 1 ↔ p.getLsbD k = q.getLsbD k := by
    rw [field_one_iff]
    simp [field, bitAt]
  have hreserved : psrReserved p = psrReserved q ↔ field p 8 (1 + (2 + (1 + 16))) = field q 8 (1 + (2 + (1 + 16))) :=
    Iff.rfl
  rw [hreserved, field_eq_field_iff, field_eq_field_iff, field_eq_field_iff, hbit, hbit]
  rfl

/-! ### The words of the comparisons (R94, R114) -/

/-- A comparison's word has 0 in the field of `Rd` (R94). -/
theorem field_rd_of_comparison (q : Comparison) : field (encode (q.instr c rn o)) 12 4 = 0 := by
  have hrd {op rn : BitVec 4} : field (encodeDp c op true rn 0 o) 12 4 = 0 := by
    obtain ⟨-, -, -, -, -, hrd⟩ := fields_of_encodeDp (c := c) (st := true) (op := op) (rn := rn) (o := o) rfl
    exact hrd
  cases q <;> exact hrd

/-- A word of the data-processing space, the multiplies and format LSH apart, has an operand form (R95). -/
theorem dpForm_of_mask {w : Word} (hspace : w &&& 0x0C000000 = 0) (hform : w &&& 0x02000090 ≠ 0x00000090) :
    ∃ f ∈ dpForms, w &&& f.1 = f.2 := by
  cases h25 : bitAt w 25 with
  | true =>
    exact ⟨(0x0E000000, 0x02000000), by simp [dpForms], and_mask_of_le (and_or_mask hspace (and_mask_of_bit h25))⟩
  | false =>
    have hreg := and_or_mask hspace (and_mask_of_bit h25)
    cases h4 : bitAt w 4 with
    | false =>
      exact ⟨(0x0E000010, 0x00000000), by simp [dpForms], and_mask_of_le (and_or_mask hreg (and_mask_of_bit h4))⟩
    | true =>
      have hbits := and_or_mask hreg (and_mask_of_bit h4)
      cases h7 : bitAt w 7 with
      | false =>
        exact ⟨(0x0E000090, 0x00000010), by simp [dpForms], and_mask_of_le (and_or_mask hbits (and_mask_of_bit h7))⟩
      | true => exact absurd (and_mask_of_le (and_or_mask hbits (and_mask_of_bit h7))) hform

/-- An opcode field 10xx is that of a comparison (R94). -/
theorem compareOpcode_of_high {w : Word} (hhigh : field w 23 2 = 0b10#2) :
    ∃ x ∈ compareOpcodes, field w 21 4 = x.2 := by
  have hlow : ∀ low : BitVec 2, ∃ x ∈ compareOpcodes, 0b10#2 ++ low = x.2 := by decide
  obtain ⟨x, hx, hval⟩ := hlow (field w 21 2)
  exact ⟨x, hx, hval ▸ (field_eq_append_iff (a := 2) (b := 2)).2 ⟨hhigh, rfl⟩⟩

/-- A comparison's word with another value than 0 in the field of `Rd` is refused (R114). -/
theorem decode_comparison_of_rd {w : Word} (hcond : field w 28 4 ≠ 0b1111#4) (hop : w &&& 0x0D900000 = 0x01100000)
    (hform : w &&& 0x02000090 ≠ 0x00000090) (hrd : field w 12 4 ≠ 0) : decode w = .refused .shouldBeBits := by
  obtain ⟨f, hf, hfw⟩ := dpForm_of_mask (and_mask_of_le hop) hform
  obtain ⟨x, hx, hxw⟩ := compareOpcode_of_high (field_of_and_mask hop)
  have hrow : (compareRow f x).Matches w :=
    and_or_mask hfw (and_or_mask (and_mask_of_field hxw) (and_mask_of_le hop))
  have hbits : ¬ (compareRow f x).BitsOk w := by
    rw [← field_bitsOk_iff (by decide) rfl rfl]
    simpa using hrd
  obtain ⟨-, hrows, -⟩ := opcodeTableRows w hcond
  exact (if_neg hbits).mp (hrows _ (compareRow_mem f hf x hx) hrow)

/-! ### What the instructions come to -/

/-- An instruction with a destination checks its operands, computes and puts the result there (R153, R156). -/
theorem exec_dest (k : Dest) (c : Cond) (st : Bool) (rd rn : Reg) (o : Operand2) (s : State) :
    exec (k.instr c st rd rn o) s = whenPassed c s fun m =>
      if o.pcMisuse (k.regs rd rn) then .refused .pcInRegisterShift
      else s.putResult m st rd (k.alu s.cpsr (s.rd m rn) (s.operand2 m o).value (s.operand2 m o).carry) := by
  cases k with
  | logical k => cases k <;> rfl
  | arith k => cases k <;> rfl

/-- A comparison computes what the instruction it is like computes (R168 to R171). -/
theorem exec_comparison (q : Comparison) (c : Cond) (rn : Reg) (o : Operand2) (s : State) :
    exec (q.instr c rn o) s = compareOp c rn o s (q.like.alu s.cpsr) := by
  cases q <;> rfl

/-- An instruction with a destination that passes refuses operands that a rule turns away (R153). -/
theorem exec_dest_of_misuse (k : Dest) (hp : Passes s m c) (hmis : o.pcMisuse (k.regs rd rn) = true) :
    exec (k.instr c st rd rn o) s = .refused .pcInRegisterShift := by
  rw [exec_dest, whenPassed_of_passed hp.1 hp.2, hmis]
  rfl

/-- A comparison that passes refuses operands that a rule turns away (R153). -/
theorem exec_comparison_of_misuse (q : Comparison) (hp : Passes s m c) (hmis : o.pcMisuse [rn] = true) :
    exec (q.instr c rn o) s = .refused .pcInRegisterShift := by
  rw [exec_comparison, compareOp, whenPassed_of_passed hp.1 hp.2, hmis]
  rfl

/-- An instruction that passes, with operands that no rule turns away, comes to what its destination makes of the
result. -/
theorem exec_dest_of_passed (k : Dest) (hp : Passes s m c) (hmis : o.pcMisuse (k.regs rd rn) = false) :
    exec (k.instr c st rd rn o) s = s.putResult m st rd
      (k.alu s.cpsr (s.rd m rn) (s.operand2 m o).value (s.operand2 m o).carry) := by
  rw [exec_dest, whenPassed_of_passed hp.1 hp.2, hmis]
  rfl

/-- The same with r15 as the destination, for any word that is the instruction's result. -/
theorem exec_dest_r15_of_passed {k : Dest} {v : Word} (hp : Passes s m c) (hmis : o.pcMisuse (k.regs .r15 rn) = false)
    (hv : k.Result (s.rd m rn) (s.operand2 m o).value (psrC s.cpsr) v) :
    exec (k.instr c st .r15 rn o) s = if st then s.exceptionReturn m v
      else if isAligned v 4 then .next (s.setPc v) else .refused .pcResultMisaligned := by
  rw [exec_dest_of_passed k hp hmis, hv.unique (k.result_alu s.cpsr _ _ (s.operand2 m o).carry)]
  rfl

/-! ### A destination other than r15 (R156) -/

/-- The result goes to its register, with `S` the flags go to the `cpsr`, the pc moves on and nothing else changes. -/
theorem putResult_of_room (st : Bool) (a : AluOut) (hroom : Room s) (hrd : rd ≠ .r15) :
    ∃ t, s.putResult m st rd a = .next t ∧ Writes s t m rd a.result ∧ t.pc = s.pc + 4 ∧ SameRest s t ∧
      t.cpsr = if st then (s.setAluFlags a).cpsr else s.cpsr := by
  have hw : Writes s (s.setReg m rd a.result) m rd a.result := writes_setReg hrd
  have hrest := (SameRest.refl s).setReg m rd a.result
  have hadvance (u : State) (hu : u.pc = s.pc) : u.advance = .next (u.setPc (s.pc + 4)) := by
    rw [advance_of_room (by rwa [hu]), hu]
  rw [State.putResult, if_neg hrd]
  cases st with
  | false => exact ⟨_, hadvance _ (State.setReg_pc ..), hw.setPc _, rfl, hrest.setPc _, State.setReg_cpsr ..⟩
  | true =>
    exact ⟨_, hadvance _ (State.setReg_pc ..), (hw.setAluFlags a).setPc _, rfl, (hrest.setAluFlags a).setPc _, by simp⟩

/-- Result, flags and frame of each of the twelve instructions with a destination. -/
theorem exec_dest_result (k : Dest) (hp : Passes s m c) (hroom : Room s) (hrd : rd ≠ .r15)
    (hmis : o.pcMisuse (k.regs rd rn) = false) :
    ∃ t v, exec (k.instr c st rd rn o) s = .next t ∧
      k.Result (s.rd m rn) (s.operand2 m o).value (psrC s.cpsr) v ∧
      Writes s t m rd v ∧ t.pc = s.pc + 4 ∧ SameControl s t ∧ SameRest s t ∧
      (if st then k.SetsFlags s t (s.rd m rn) (s.operand2 m o).value (s.operand2 m o).carry v
       else t.cpsr = s.cpsr) := by
  obtain ⟨t, hx, hw, hpc, hrest, hcpsr⟩ := putResult_of_room (m := m) st
    (k.alu s.cpsr (s.rd m rn) (s.operand2 m o).value (s.operand2 m o).carry) hroom hrd
  have hexec := (exec_dest_of_passed k hp hmis).trans hx
  cases st with
  | false => exact ⟨t, _, hexec, k.result_alu .., hw, hpc, .of_cpsr hcpsr, hrest, hcpsr⟩
  | true => exact ⟨t, _, hexec, k.result_alu .., hw, hpc, sameControl_of_flags hcpsr, hrest, k.setsFlags_alu hcpsr⟩

/-- Settles O13: the six logical instructions among the twelve. -/
theorem logicalResults : Obligations.LogicalResults := fun k _ _ _ _ _ _ _ => exec_dest_result (.logical k)

/-- Settles O14: the six arithmetic instructions among the twelve. -/
theorem arithmeticResults : Obligations.ArithmeticResults := fun k _ _ _ _ _ _ _ => exec_dest_result (.arith k)

/-- Settles O15: a comparison sets the flags of the instruction it is like and writes nothing else. -/
theorem comparisonFlags : Obligations.ComparisonFlags := by
  intro q s m c rn o hp hroom hmis
  exact ⟨_, _, (exec_comparison ..).trans (compareOp_of_passed hp hroom hmis), q.like.result_alu .., fun _ => rfl, rfl,
    sameControl_of_flags rfl, ((SameRest.refl s).setAluFlags _).setPc _, q.like.setsFlags_alu rfl⟩

/-! ### Destination r15 (R157, R158) -/

/-- Settles O16: the result becomes the pc exactly where its two low bits are 0. -/
theorem resultJump : Obligations.ResultJump := by
  refine ⟨fun q c rn o => field_rd_of_comparison q, fun w => decode_comparison_of_rd,
    fun k s m c rn o v hp hmis hv => ?_⟩
  rw [exec_dest_r15_of_passed hp hmis hv]
  constructor
  · intro hlow
    rw [(isAligned_four_iff_low v).2 hlow]
    exact ⟨_, rfl, rfl, fun _ => rfl, rfl, (SameRest.refl s).setPc v⟩
  · intro hlow
    rw [not_isAligned_four hlow]
    rfl

/-- An exception return never faults. -/
theorem exceptionReturn_ne_fault {v : Word} (f : Fault) : s.exceptionReturn m v ≠ .fault f := by
  unfold State.exceptionReturn
  cases s.spsr.read m with
  | none => simp
  | some new =>
    dsimp only
    split_ifs <;> simp

/-- An exception return that does not answer a next state is refused. -/
theorem exceptionReturn_refused {v : Word} (h : ∀ t, s.exceptionReturn m v ≠ .next t) :
    ∃ r, s.exceptionReturn m v = .refused r := by
  cases hx : s.exceptionReturn m v with
  | next t => exact absurd hx (h t)
  | fault f => exact absurd hx (exceptionReturn_ne_fault f)
  | refused r => exact ⟨r, rfl⟩

/-- Settles O17: the checks of R157 are those of `exceptionReturn_eq_next`, the reserved bits by their names. -/
theorem exceptionReturn : Obligations.ExceptionReturn := by
  intro k s m c rn o v hp hJ hmis hv
  rw [exec_dest_r15_of_passed hp hmis hv, if_pos rfl]
  constructor
  · rintro (rfl | rfl) <;> rfl
  · intro new hnew
    have hchecks : (psrT new = false ∧ psrJ new = false ∧ psrMode new ≠ none ∧
        new.getLsbD 27 = s.cpsr.getLsbD 27 ∧ new.extractLsb' 25 2 = s.cpsr.extractLsb' 25 2 ∧
        new.extractLsb' 8 16 = s.cpsr.extractLsb' 8 16 ∧ v.extractLsb' 0 2 = 0) ↔
        psrT new = false ∧ psrJ new = false ∧ (psrMode new).isSome = true ∧
          psrReserved new = psrReserved s.cpsr ∧ isAligned v 4 = true := by
      rw [psrReserved_eq_iff, isAligned_four_iff_low, hJ, Option.isSome_iff_ne_none]
      tauto
    split
    next h =>
      obtain ⟨hT, hJ', hM, hR, hA⟩ := hchecks.1 h
      exact ⟨_, exceptionReturn_eq_next.2 ⟨new, hnew, hT, hJ', hM, hR, hA, rfl⟩, rfl, rfl, fun _ => rfl,
        ((SameRest.refl s).setCpsr new).setPc v⟩
    next h =>
      refine exceptionReturn_refused fun t ht => h (hchecks.2 ?_)
      obtain ⟨new', hnew', hT, hJ', hM, hR, hA, -⟩ := exceptionReturn_eq_next.1 ht
      obtain rfl := Option.some.inj (hnew.symm.trans hnew')
      exact ⟨hT, hJ', hM, hR, hA⟩

/-! ### Register-controlled shifts (R153) -/

/-- r15 anywhere in an instruction with a register-controlled shift is what R153 turns away. -/
theorem pcMisuse_shiftReg_iff {rm rs : Reg} {kind : ShiftKind} {others : List Reg} :
    (Operand2.shiftReg rm kind rs).pcMisuse others = true ↔ rm = .r15 ∨ rs = .r15 ∨ .r15 ∈ others := by
  simp [Operand2.pcMisuse, or_assoc]

/-- Settles O20: an amount of 0 apart, each row of the table by its ranges; and the refusal of r15. -/
theorem registerShifts : Obligations.RegisterShifts := by
  refine ⟨fun s m rm rs kind _ _ => ?_, fun s m c st rd rn rm rs kind k q hp =>
    ⟨fun h => exec_dest_of_misuse k hp (pcMisuse_shiftReg_iff.2 h), fun h =>
      exec_comparison_of_misuse q hp (pcMisuse_shiftReg_iff.2 (by simpa [eq_comm] using h))⟩⟩
  dsimp only [State.operand2]
  have hbyte : ((s.rd m rs).extractLsb' 0 8).toNat = (s.rd m rs).toNat % 256 := by simp
  rw [hbyte]
  generalize s.rd m rm = v, (s.rd m rs).toNat % 256 = n
  split
  next hn => simp [shiftByReg, hn]
  next hn =>
    simp only [shiftByReg, hn, if_false]
    cases kind with
    | lsl =>
      dsimp only
      split
      · exact ⟨toNat_lsl .., rfl⟩
      · split <;> simp [*]
    | lsr =>
      dsimp only
      split
      · exact ⟨toNat_lsr .., rfl⟩
      · split <;> simp [*, BitVec.msb_eq_getLsbD_last]
    | asr =>
      dsimp only
      split
      · exact ⟨toInt_asr .., rfl⟩
      · exact ⟨fill_msb v, BitVec.msb_eq_getLsbD_last v⟩
    | ror =>
      dsimp only
      split
      · exact ⟨rfl, BitVec.msb_eq_getLsbD_last v⟩
      · exact ⟨fun i hi => by rw [getLsbD_ror _ _ hi, Nat.add_mod_mod], rfl⟩

end Sys2Proof.Machine

namespace Sys2Proof.Claims
/-! What the multiplies write (R200, R208): two registers one after the other, and the flags with their free bits. -/

open Machine

variable {s t u : State} {m : Mode}

/-- A second register write changes the one other register that its name means (R24). -/
theorem Writes.setReg {r r' : Reg} {v v' : Word} (hu : Writes s u m r v) (hr' : r' ≠ .r15) (hne : r' ≠ r) :
    WritesTwo s (u.setReg m r' v') m r v r' v' := by
  intro p
  rw [writes_setReg hr' p, hu p]
  by_cases hp : physReg r m = some p
  · have hp' : physReg r' m ≠ some p := fun h => hne (physReg_inj r' r m p h hp)
    rw [if_neg hp', if_pos hp, if_pos hp]
  · rw [if_neg hp, if_neg hp]

/-- Every field but the general registers is as before. -/
def OnlyRegs (s u : State) : Prop := u.pc = s.pc ∧ u.cpsr = s.cpsr ∧ SameRest s u

/-- A state differs from itself in nothing. -/
theorem OnlyRegs.refl (s : State) : OnlyRegs s s := ⟨rfl, rfl, .refl s⟩

/-- A register write reaches nothing but the general registers. -/
theorem OnlyRegs.setReg (hu : OnlyRegs s u) (m : Mode) (r : Reg) (v : Word) : OnlyRegs s (u.setReg m r v) := by
  obtain ⟨hpc, hcpsr, hrest⟩ := hu
  exact ⟨(State.setReg_pc ..).trans hpc, (State.setReg_cpsr ..).trans hcpsr, hrest.setReg m r v⟩

/-- How a multiply from `s` ends in `t`, the registers apart: the pc moves on; with `S` the flags become `n`, `z`, `cf`
and `v` and so many free bits are drawn (R208); nothing else changes. -/
def MultiplyEnds (st : Bool) (s t : State) (n z cf v : Bool) (drawn : Nat) : Prop :=
  t.pc = s.pc + 4 ∧ SameControl s t ∧ t.spsr = s.spsr ∧ SameMemory s t ∧ SameInputs s t ∧
    (if st then Flags t n z cf v ∧ t.draws = s.draws + drawn else t.cpsr = s.cpsr ∧ t.draws = s.draws)

/-- A flag write with its draws, where the instruction has `S`, and the move of the pc end a multiply that so far has
written registers only. -/
theorem multiplyEnds_of_onlyRegs (st n z cf v : Bool) (drawn : Nat) (hroom : Room s) (hu : OnlyRegs s u) :
    ∃ t, (if st then ((u.setCpsr (psrSetFlags n z cf v u.cpsr)).setDraws (u.draws + drawn)).advance else u.advance) =
        .next t ∧ SameRegs u t ∧ MultiplyEnds st s t n z cf v drawn := by
  obtain ⟨hpc, hcpsr, hspsr, hmem, hdraws, hinputs⟩ := hu
  have hadvance (w : State) (hw : w.pc = s.pc) : w.advance = .next (w.setPc (s.pc + 4)) := by
    rw [advance_of_room (by rwa [hw]), hw]
  cases st with
  | false => exact ⟨_, hadvance u hpc, fun _ => rfl, rfl, .of_cpsr hcpsr, hspsr, hmem, hinputs, hcpsr, hdraws⟩
  | true =>
    have hcontrol : (psrSetFlags n z cf v u.cpsr).extractLsb' 0 28 = s.cpsr.extractLsb' 0 28 := by
      rw [extract_psrSetFlags _ _ _ _ _ 0 28 (by decide), hcpsr]
    exact ⟨_, hadvance _ hpc, fun _ => rfl, rfl, hcontrol, hspsr, hmem, hinputs,
      ⟨psrN_psrSetFlags .., psrZ_psrSetFlags .., psrC_psrSetFlags .., psrV_psrSetFlags ..⟩,
      congrArg (· + drawn) hdraws⟩

end Sys2Proof.Claims

namespace Sys2Proof.Machine
/-! The multiplies (spec/43_multiply.md): the operands they refuse, the 64-bit results as integers and by halves, and
what each of the two shapes comes to. -/

open Claims

variable {s : State} {m : Mode} {c : Cond} {st : Bool}

/-! ### The operands that are refused (R207) -/

section
variable {rd rdLo rdHi rm rs : Reg}

/-- What R207 turns away of `MUL` and `MLA`. -/
theorem mulMisuse_iff {ra : Option Reg} : mulMisuse rd rm rs ra = true ↔
    rd = .r15 ∨ ra = some .r15 ∨ rm = .r15 ∨ rs = .r15 ∨ rd = rm := by
  simp only [mulMisuse, Bool.or_eq_true, beq_iff_eq]
  tauto

/-- What R207 turns away of the long multiplies. -/
theorem mulLongMisuse_iff : mulLongMisuse rdLo rdHi rm rs = true ↔
    rdLo = .r15 ∨ rdHi = .r15 ∨ rm = .r15 ∨ rs = .r15 ∨ rdHi = rdLo ∨ rdHi = rm ∨ rdLo = rm := by
  simp only [mulLongMisuse, Bool.or_eq_true, beq_iff_eq, or_assoc]

/-- A 32-bit multiply that passes refuses such operands. -/
theorem multiply_of_misuse {misuse : Bool} {f : Mode → Word} (hp : Passes s m c) (hmis : misuse = true) :
    multiply c st rd misuse s f = .refused .multiplyOperands := by
  rw [multiply, whenPassed_of_passed hp.1 hp.2, hmis]
  rfl

/-- A long multiply that passes refuses such operands. -/
theorem multiplyLong_of_misuse {f : Mode → BitVec 64} (hp : Passes s m c)
    (hmis : mulLongMisuse rdLo rdHi rm rs = true) :
    multiplyLong c st rdLo rdHi rm rs s f = .refused .multiplyOperands := by
  rw [multiplyLong, whenPassed_of_passed hp.1 hp.2, hmis]
  rfl

end

/-- Settles O24: the restrictions of R207, by the two shapes of multiply. -/
theorem multiplyRestrictions : Obligations.MultiplyRestrictions := by
  intro s m c st ra rb rm rs hp
  refine ⟨fun h => multiply_of_misuse hp (mulMisuse_iff.2 (by simpa using h)),
    fun h => multiply_of_misuse hp (mulMisuse_iff.2 (by simpa using h)), fun h => ?_⟩
  have hmis := mulLongMisuse_iff.2 h
  exact ⟨multiplyLong_of_misuse hp hmis, multiplyLong_of_misuse hp hmis, multiplyLong_of_misuse hp hmis,
    multiplyLong_of_misuse hp hmis⟩

/-! ### The 64-bit results (R203 to R206, R209) -/

/-- Two joined words as a number. -/
theorem toNat_append_word (hi lo : Word) : (hi ++ lo).toNat = hi.toNat * 2 ^ 32 + lo.toNat := by
  rw [BitVec.toNat_append, ← Nat.shiftLeft_add_eq_or_of_lt lo.isLt, Nat.shiftLeft_eq]

/-- The unsigned product is exact modulo 2^64. -/
theorem toNat_unsignedProduct (a b : Word) :
    ((unsignedProduct a b).toNat : Int) = (a.toNat * b.toNat : Int) % 2 ^ 64 := by
  rw [unsignedProduct, BitVec.toNat_ofNat]
  push_cast
  rfl

/-- The signed product is exact modulo 2^64. -/
theorem toNat_signedProduct (a b : Word) : ((signedProduct a b).toNat : Int) = (a.toInt * b.toInt) % 2 ^ 64 := by
  rw [signedProduct, BitVec.toNat_ofInt, Int.toNat_of_nonneg (Int.emod_nonneg _ (by decide))]
  rfl

/-- Adding the old `RdHi:RdLo` to a product that is exact modulo 2^64 leaves it so. -/
theorem toNat_add_pair {x : BitVec 64} {product : Int} (hx : (x.toNat : Int) = product % 2 ^ 64) (rdLo rdHi : Reg) :
    ((x + s.pair m rdLo rdHi).toNat : Int) =
      (product + ((s.rd m rdHi).toNat * 2 ^ 32 + (s.rd m rdLo).toNat : Nat)) % 2 ^ 64 := by
  rw [BitVec.toNat_add, State.pair, toNat_append_word]
  omega

section
variable (x : BitVec 64)

/-- A 64-bit value as a number from its halves. -/
theorem toNat_halves : (x.extractLsb' 32 32).toNat * 2 ^ 32 + (x.extractLsb' 0 32).toNat = x.toNat := by
  have hx := x.isLt
  simp only [BitVec.extractLsb'_toNat, Nat.shiftRight_eq_div_pow]
  omega

/-- The sign of a 64-bit value is that of its high half. -/
theorem msb_eq_high : x.msb = (x.extractLsb' 32 32).getLsbD 31 := by
  simp [BitVec.msb_eq_getLsbD_last]

/-- A 64-bit value is zero where both halves are. -/
theorem beq_zero_eq_halves : (x == 0) = (decide (x.extractLsb' 32 32 = 0) && decide (x.extractLsb' 0 32 = 0)) := by
  have hx := toNat_halves x
  have hzero {n : Nat} : (0 : BitVec n).toNat = 0 := BitVec.toNat_zero
  rw [Bool.eq_iff_iff, Bool.and_eq_true, decide_eq_true_iff, decide_eq_true_iff, beq_iff_eq]
  simp only [← BitVec.toNat_inj, hzero]
  omega

end

/-! ### What the two shapes come to -/

/-- The end of a 32-bit multiply after its register write (R208). -/
theorem ends_setMulFlags {u : State} (v : Word) (hroom : Room s) (hu : OnlyRegs s u) :
    ∃ t, (if st then (u.setMulFlags v).advance else u.advance) = .next t ∧ SameRegs u t ∧
      MultiplyEnds st s t (v.getLsbD 31) (decide (v = 0)) (Config.freeBit s.draws) (psrV s.cpsr) 1 := by
  have ⟨_, hcpsr, _, _, hdraws, _⟩ := hu
  rw [← hcpsr, ← hdraws, ← BitVec.msb_eq_getLsbD_last, ← beq_eq_decide]
  exact multiplyEnds_of_onlyRegs _ _ _ _ _ 1 hroom hu

/-- The end of a long multiply after its register writes, with N and Z by the halves of the value (R208). -/
theorem ends_setMulLongFlags {u : State} (x : BitVec 64) (hroom : Room s) (hu : OnlyRegs s u) :
    ∃ t, (if st then (u.setMulLongFlags x).advance else u.advance) = .next t ∧ SameRegs u t ∧
      MultiplyEnds st s t ((x.extractLsb' 32 32).getLsbD 31)
        (decide (x.extractLsb' 32 32 = 0) && decide (x.extractLsb' 0 32 = 0)) (Config.freeBit s.draws)
        (Config.freeBit (s.draws + 1)) 2 := by
  have ⟨_, _, _, _, hdraws, _⟩ := hu
  rw [← hdraws, ← msb_eq_high, ← beq_zero_eq_halves]
  exact multiplyEnds_of_onlyRegs _ _ _ _ _ 2 hroom hu

/-- A 32-bit multiply puts its value into `Rd` and, with `S`, sets the flags of R208. -/
theorem multiply_result {rd : Reg} {misuse : Bool} {f : Mode → Word} {total : Nat} (hp : Passes s m c) (hroom : Room s)
    (hmis : ¬ misuse = true) (hrd : rd ≠ .r15) (htotal : (f m).toNat = total % 2 ^ 32) :
    ∃ t v, multiply c st rd misuse s f = .next t ∧ v.toNat = total % 2 ^ 32 ∧ Writes s t m rd v ∧
      MultiplyEnds st s t (v.getLsbD 31) (decide (v = 0)) (Config.freeBit s.draws) (psrV s.cpsr) 1 := by
  have hw : Writes s (s.setReg m rd (f m)) m rd (f m) := writes_setReg hrd
  obtain ⟨t, ht, hregs, hends⟩ := ends_setMulFlags (st := st) (f m) hroom ((OnlyRegs.refl s).setReg m rd (f m))
  refine ⟨t, f m, ?_, htotal, fun p => (hregs p).trans (hw p), hends⟩
  rw [multiply, whenPassed_of_passed hp.1 hp.2, if_neg hmis]
  exact ht

/-- A long multiply puts the halves of its value into `RdLo` and `RdHi` and, with `S`, sets the flags of R208. -/
theorem multiplyLong_result {rdLo rdHi rm rs : Reg} {f : Mode → BitVec 64} {total : Int} (hp : Passes s m c)
    (hroom : Room s) (hmis : ¬ mulLongMisuse rdLo rdHi rm rs = true) (htotal : ((f m).toNat : Int) = total % 2 ^ 64) :
    ∃ t lo hi, multiplyLong c st rdLo rdHi rm rs s f = .next t ∧
      ((hi.toNat * 2 ^ 32 + lo.toNat : Nat) : Int) = total % 2 ^ 64 ∧ WritesTwo s t m rdLo lo rdHi hi ∧
      MultiplyEnds st s t (hi.getLsbD 31) (decide (hi = 0) && decide (lo = 0)) (Config.freeBit s.draws)
        (Config.freeBit (s.draws + 1)) 2 := by
  have hallowed := mt mulLongMisuse_iff.2 hmis
  push Not at hallowed
  obtain ⟨hlo, hhi, -, -, hne, -, -⟩ := hallowed
  have hw := (writes_setReg (s := s) (m := m) (v := (f m).extractLsb' 0 32) hlo).setReg
    (v' := (f m).extractLsb' 32 32) hhi hne
  obtain ⟨t, ht, hregs, hends⟩ := ends_setMulLongFlags (st := st) (f m) hroom
    (((OnlyRegs.refl s).setReg m rdLo _).setReg m rdHi _)
  refine ⟨t, _, _, ?_, (congrArg _ (toNat_halves (f m))).trans htotal, fun p => (hregs p).trans (hw p), hends⟩
  rw [multiplyLong, whenPassed_of_passed hp.1 hp.2, if_neg hmis]
  exact ht

/-- Settles O22: both are 32-bit multiplies, with a value that is exact modulo 2^32. -/
theorem shortMultiplies : Obligations.ShortMultiplies := by
  intro s m c st rd rm rs rn hp hroom hrd hrm hrs hne
  constructor
  · exact multiply_result hp hroom (by simp [mulMisuse_iff, *]) hrd (BitVec.toNat_mul ..)
  · intro hrn
    refine multiply_result hp hroom (by simp [mulMisuse_iff, *]) hrd ?_
    rw [BitVec.toNat_add, BitVec.toNat_mul, Nat.mod_add_mod]

/-- Settles O23: all four are long multiplies, with a value that is exact modulo 2^64. -/
theorem longMultiplies : Obligations.LongMultiplies := by
  intro s m c st rdLo rdHi rm rs hp hroom hlo hhi hrm hrs hne hhim hlom
  have hmis : ¬ mulLongMisuse rdLo rdHi rm rs = true := by simp [mulLongMisuse_iff, *]
  have hunsigned := toNat_unsignedProduct (s.rd m rm) (s.rd m rs)
  have hsigned := toNat_signedProduct (s.rd m rm) (s.rd m rs)
  exact ⟨multiplyLong_result hp hroom hmis hunsigned,
    multiplyLong_result hp hroom hmis (toNat_add_pair hunsigned rdLo rdHi),
    multiplyLong_result hp hroom hmis hsigned,
    multiplyLong_result hp hroom hmis (toNat_add_pair hsigned rdLo rdHi)⟩

end Sys2Proof.Machine

namespace Sys2Proof.Claims
/-! Values in memory as numbers (R62, R66), and what the single transfers write of the registers and of memory (R223 to
R225, R231). -/

open Machine

variable {s u : State} {m : Mode}

/-! ### Bytes of a value as digits -/

/-- A lane of a word is one of its digits in base 256. -/
theorem toNat_laneOf (w : Word) (k : Nat) : (laneOf w k).toNat = w.toNat / 256 ^ k % 256 := by
  rw [laneOf, BitVec.extractLsb'_toNat, Nat.shiftRight_eq_div_pow, Nat.pow_mul]

/-- The lanes of a word below `n` make the word modulo `256 ^ n`. -/
theorem sum_laneOf (w : Word) (n : Nat) :
    ∑ k ∈ Finset.range n, (laneOf w k).toNat * 256 ^ k = w.toNat % 256 ^ n := by
  induction n with
  | zero => simp [Nat.mod_one]
  | succ n ih => rw [Finset.sum_range_succ, ih, toNat_laneOf, Nat.mod_pow_succ, Nat.mul_comm]

/-- The order of the bytes does not change the sum of the lanes. -/
theorem sum_laneOf_lane (bigEndian : Bool) (w : Word) (n : Nat) :
    ∑ k ∈ Finset.range n, (laneOf w (lane bigEndian n k)).toNat * 256 ^ lane bigEndian n k = w.toNat % 256 ^ n := by
  rw [← sum_laneOf]
  cases bigEndian with
  | false => rfl
  | true => exact Finset.sum_range_reflect (fun k => (laneOf w k).toNat * 256 ^ k) n

/-- A value read stands in its `n` bytes, with zeros above (R66). -/
theorem toNat_peek_lt (s : State) (a : Word) (n : Nat) : (s.peek a n).toNat < 2 ^ (8 * n) := by
  refine Nat.lt_pow_two_of_testBit _ fun i hi => ?_
  rw [BitVec.testBit_toNat]
  by_cases h32 : i < 32
  · have hlane (k : Nat) (hk : k < n) : lane s.params.bigEndian n k ≠ i / 8 := by
      have := lane_lt (bigEndian := s.params.bigEndian) hk
      omega
    rw [← Nat.div_add_mod i 8, State.peek, assemble, getLsbD_foldl_or, Bool.or_eq_false_iff, List.any_eq_false]
    refine ⟨by simp, fun k hk => ?_⟩
    rw [getLsbD_byte_shiftLeft _ (Nat.mod_lt _ (by decide)) (by omega)]
    simp [hlane k (List.mem_range.1 hk)]
  · exact BitVec.getLsbD_of_ge _ _ (by omega)

/-- Each byte of memory is its lane of the value read (R62). -/
theorem laneOf_peek {a : Word} {n k : Nat} (hn : n ≤ 4) (hk : k < n) :
    laneOf (s.peek a n) (lane s.params.bigEndian n k) = s.mem.read (a.toNat + k) := by
  refine BitVec.eq_of_getLsbD_eq fun j hj => ?_
  rw [getLsbD_laneOf _ _ hj, getLsbD_peek hn hk hj]

/-- A value read is the number that its bytes make (R62). -/
theorem toNat_peek (s : State) (a : Word) {n : Nat} (hn : n ≤ 4) : (s.peek a n).toNat = numberAt s a.toNat n := by
  have hlt := toNat_peek_lt s a n
  rw [Nat.pow_mul] at hlt
  calc (s.peek a n).toNat
      = ∑ k ∈ Finset.range n, (laneOf (s.peek a n) (lane s.params.bigEndian n k)).toNat *
          256 ^ lane s.params.bigEndian n k := by rw [sum_laneOf_lane, Nat.mod_eq_of_lt hlt]
    _ = ∑ k ∈ Finset.range n, (s.mem.read (a.toNat + k)).toNat * 256 ^ lane s.params.bigEndian n k :=
        Finset.sum_congr rfl fun k hk => by rw [laneOf_peek hn (Finset.mem_range.1 hk)]
    _ = numberAt s a.toNat n := rfl

/-- The low `w` bits of a word that has no higher ones read as two's complement (R66). -/
theorem toInt_setWidth_eq_signedOf {v : Word} {w : Nat} (hw : 0 < w) (hv : v.toNat < 2 ^ w) :
    (v.setWidth w).toInt = signedOf w v.toNat := by
  obtain ⟨k, rfl⟩ : ∃ k, w = k + 1 := ⟨w - 1, by omega⟩
  have htwice : 2 * v.toNat < 2 ^ (k + 1) ↔ v.toNat < 2 ^ k := by omega
  rw [BitVec.toInt_eq_toNat_cond, BitVec.toNat_setWidth, Nat.mod_eq_of_lt hv, signedOf]
  simp only [htwice, Nat.add_sub_cancel, Nat.cast_pow, Nat.cast_ofNat]

/-- A byte read, sign-extended (R66, R237). -/
theorem toInt_signedByte_peek (s : State) (a : Word) :
    (signedByte (s.peek a 1)).toInt = signedOf 8 (numberAt s a.toNat 1) := by
  rw [signedByte, BitVec.toInt_signExtend_of_le (by decide),
    toInt_setWidth_eq_signedOf (by decide) (toNat_peek_lt s a 1), toNat_peek s a (by decide)]

/-- A halfword read, sign-extended (R66, R238). -/
theorem toInt_signedHalf_peek (s : State) (a : Word) :
    (signedHalf (s.peek a 2)).toInt = signedOf 16 (numberAt s a.toNat 2) := by
  rw [signedHalf, BitVec.toInt_signExtend_of_le (by decide),
    toInt_setWidth_eq_signedOf (by decide) (toNat_peek_lt s a 2), toNat_peek s a (by decide)]

/-! ### Stores -/

/-- The value stored for a register, in the words of R231. -/
theorem storeValue_eq (s : State) (m : Mode) (r : Reg) : s.storeValue m r = storedValue s m r := by
  rw [State.storeValue, storedValue]
  cases s.params.pcStoreOffset <;> rfl

/-- A store changes its bytes and marks them, and nothing else of memory (R62, R76). -/
theorem stores_poke {a : Word} {n : Nat} (v : Word) (hb : a.toNat + n ≤ 2 ^ 32) (h : s.memOk = true) :
    Stores s (s.poke a n v) a.toNat n v :=
  ⟨fun x => read_poke x hb h, fun x => storedTo_poke x⟩

/-! ### The base write-back -/

variable {ix : Index} {rn : Reg} {v : Word}

/-- The base write-back changes the base register in the forms that write back, and no other (R223, R224). -/
theorem writesIf_writeBack (s : State) (m : Mode) (ix : Index) (rn : Reg) (v : Word) :
    WritesIf ix.writesBack s (s.writeBack m ix rn v) m rn v := by
  intro p
  rw [State.writeBack]
  by_cases hwb : ix.writesBack = true
  · by_cases hrn : rn = .r15
    · simp [hrn, physReg]
    · rw [if_pos hwb, writes_setReg hrn p]
      simp [hwb]
  · simp [hwb]

/-- The base write-back reaches nothing but the general registers. -/
theorem OnlyRegs.writeBack (hu : OnlyRegs s u) (m : Mode) (ix : Index) (rn : Reg) (v : Word) :
    OnlyRegs s (u.writeBack m ix rn v) := by
  rw [State.writeBack]
  split
  next => exact hu.setReg m rn v
  next => exact hu

/-- What a load and its base write-back write, where the base is another register than the one loaded. -/
theorem Writes.writeBack {rd : Reg} {v' : Word} (hu : Writes s u m rd v)
    (hbase : ix.writesBack = true → rn ≠ .r15 ∧ rn ≠ rd) :
    if ix.writesBack then WritesTwo s (u.writeBack m ix rn v') m rd v rn v'
    else Writes s (u.writeBack m ix rn v') m rd v := by
  rw [State.writeBack]
  split
  next hwb =>
    obtain ⟨hrn, hne⟩ := hbase hwb
    exact hu.setReg hrn hne
  next => exact hu

/-- The base write-back changes nothing of what has been stored. -/
theorem Stores.writeBack {a n : Nat} (hu : Stores s u a n v) (m : Mode) (ix : Index) (rn : Reg) (v' : Word) :
    Stores s (u.writeBack m ix rn v') a n v := by
  simpa [Stores] using hu

/-- Data Abort is taken from a state that differs in the base only, and there as `ABORT_BASE` says (R225). -/
theorem transferAbort_base (s : State) (m : Mode) (ix : Index) (rn : Reg) (v : Word) :
    ∃ u, s.transferAbort m ix rn v = u.raise .dataAbort ∧ AbortBaseDone s u m ix.writesBack rn v := by
  rw [State.transferAbort]
  cases hbase : s.params.abortBase with
  | restored =>
    refine ⟨s, rfl, fun p => ?_, OnlyRegs.refl s⟩
    simp [hbase]
  | updated =>
    refine ⟨s.writeBack m ix rn v, rfl, fun p => ?_, (OnlyRegs.refl s).writeBack m ix rn v⟩
    simpa [hbase] using writesIf_writeBack s m ix rn v p

end Sys2Proof.Claims

namespace Sys2Proof.Machine
/-! The single register transfers (spec/44_load_store.md): the operands they refuse, their addresses, and what a load
and a store come to. -/

open Claims

variable {s : State} {m : Mode} {c : Cond} {ix : Index} {up : Bool} {rd rn : Reg} {rm : Option Reg}

/-! ### The operands that are refused (R227) -/

/-- The forms that write the base back (R223). -/
theorem writesBack_iff : ix.writesBack = true ↔ ix = .preIndexed ∨ ix = .postIndexed := by
  cases ix <;> simp [Index.writesBack]

/-- What R227 turns away of all eight single transfers. -/
theorem transferMisuse_iff : transferMisuse ix rd rn rm = true ↔
    (ix.writesBack = true ∧ (rn = .r15 ∨ rn = rd ∨ rm = some rn)) ∨ rm = some .r15 := by
  simp only [transferMisuse, Bool.or_eq_true, Bool.and_eq_true, beq_iff_eq, or_assoc]

/-- What R227 turns away of the six narrow ones. -/
theorem narrowTransferMisuse_iff : narrowTransferMisuse ix rd rn rm = true ↔
    transferMisuse ix rd rn rm = true ∨ rd = .r15 := by
  rw [narrowTransferMisuse, Bool.or_eq_true, beq_iff_eq]

/-- What R227 allows of all eight. -/
theorem transferMisuse_eq_false_iff : transferMisuse ix rd rn rm = false ↔
    rm ≠ some .r15 ∧ (ix.writesBack = true → rn ≠ .r15 ∧ rn ≠ rd ∧ rm ≠ some rn) := by
  rw [← Bool.not_eq_true, transferMisuse_iff]
  tauto

/-- What R227 allows of the six narrow ones. -/
theorem narrowTransferMisuse_eq_false_iff : narrowTransferMisuse ix rd rn rm = false ↔
    transferMisuse ix rd rn rm = false ∧ rd ≠ .r15 := by
  rw [← Bool.not_eq_true, narrowTransferMisuse_iff, not_or, Bool.not_eq_true]

/-- In an admitted transfer a base that is written back is neither r15 nor the transferred register (R224). -/
theorem base_of_allowed (hmis : transferMisuse ix rd rn rm = false) (hwb : ix.writesBack = true) :
    rn ≠ .r15 ∧ rn ≠ rd := by
  obtain ⟨-, hbase⟩ := transferMisuse_eq_false_iff.1 hmis
  obtain ⟨hrn, hne, -⟩ := hbase hwb
  exact ⟨hrn, hne⟩

/-! ### What a load and a store come to -/

section
variable {misuse : Bool} {sz : Size} {extend : Word → Word} {offset : Mode → Word} {sum addr : Word}

/-- A single load that passes refuses such operands. -/
theorem loadSingle_of_misuse (hp : Passes s m c) (hmis : misuse = true) :
    loadSingle c ix up rd rn misuse sz extend s offset = .refused .transferOperands := by
  rw [loadSingle, whenPassed_of_passed hp.1 hp.2, hmis]
  rfl

/-- A single store that passes refuses such operands. -/
theorem storeSingle_of_misuse (hp : Passes s m c) (hmis : misuse = true) :
    storeSingle c ix up rd rn misuse sz s offset = .refused .transferOperands := by
  rw [storeSingle, whenPassed_of_passed hp.1 hp.2, hmis]
  rfl

/-- A load whose access can be made reads the value there (R68, R70). -/
theorem load_of_accessible (h : Accessible s .read addr sz) : s.load addr sz = .done (s.peek addr (sizeBytes sz)) := by
  obtain ⟨-, hab, hmap⟩ := h
  exact load_eq_done.2 ⟨hab, hmap, rfl⟩

/-- A load of a register other than r15: the register, the base and the frame (R224). -/
theorem loadSingle_result {v : Word} (hp : Passes s m c) (hroom : Room s) (hmis : misuse = false) (hrd : rd ≠ .r15)
    (hbase : ix.writesBack = true → rn ≠ .r15 ∧ rn ≠ rd)
    (hsum : indexed up (s.rd m rn) (offset m) = sum) (haddr : accessAddr ix (s.rd m rn) sum = addr)
    (hacc : Accessible s .read addr sz) (hv : extend (s.peek addr (sizeBytes sz)) = v) :
    ∃ t, loadSingle c ix up rd rn misuse sz extend s offset = .next t ∧
      (if ix.writesBack then WritesTwo s t m rd v rn sum else Writes s t m rd v) ∧
      t.pc = s.pc + 4 ∧ t.cpsr = s.cpsr ∧ SameRest s t := by
  have hw := (writes_setReg (s := s) (m := m) (v := v) hrd).writeBack (v' := sum) hbase
  obtain ⟨hpc, hcpsr, hrest⟩ := ((OnlyRegs.refl s).setReg m rd v).writeBack m ix rn sum
  refine ⟨State.setPc _ (s.pc + 4), ?_, hw, rfl, hcpsr, hrest.setPc _⟩
  rw [loadSingle_of_done hp hmis hrd (by rw [hsum, haddr]) hacc.1 (load_of_accessible hacc), hsum, hv,
    advance_of_room (by rwa [hpc]), hpc]

/-- A load of r15: the pc, the base and the frame (R232). -/
theorem loadSingle_r15_result {v : Word} (hp : Passes s m c) (hmis : misuse = false)
    (hsum : indexed up (s.rd m rn) (offset m) = sum) (haddr : accessAddr ix (s.rd m rn) sum = addr)
    (hacc : Accessible s .read addr sz) (hv : extend (s.peek addr (sizeBytes sz)) = v) :
    ∃ t, loadSingle c ix up .r15 rn misuse sz extend s offset = .next t ∧
      t.pc = wordAligned v ∧ WritesIf ix.writesBack s t m rn sum ∧ t.cpsr = s.cpsr ∧ SameRest s t := by
  have hw := writesIf_writeBack s m ix rn sum
  obtain ⟨-, hcpsr, hrest⟩ := (OnlyRegs.refl s).writeBack m ix rn sum
  refine ⟨(s.writeBack m ix rn sum).setPc (wordAligned v), ?_, rfl, hw, hcpsr, hrest.setPc _⟩
  rw [loadSingle, whenPassed_of_passed hp.1 hp.2]
  simp [hmis, hsum, haddr, hacc.1, load_of_accessible hacc, hv]

/-- A store: the bytes, the base and the frame (R224, R231). -/
theorem storeSingle_result (hp : Passes s m c) (hroom : Room s) (hok : s.memOk = true) (hmis : misuse = false)
    (hsum : indexed up (s.rd m rn) (offset m) = sum) (haddr : accessAddr ix (s.rd m rn) sum = addr)
    (hacc : Accessible s .write addr sz) :
    ∃ t, storeSingle c ix up rd rn misuse sz s offset = .next t ∧
      Stores s t addr.toNat (sizeBytes sz) (storedValue s m rd) ∧ WritesIf ix.writesBack s t m rn sum ∧
      t.pc = s.pc + 4 ∧ t.cpsr = s.cpsr ∧ t.spsr = s.spsr ∧ t.draws = s.draws ∧ SameInputs s t := by
  obtain ⟨hal, hab, hmap⟩ := hacc
  have hstores := stores_poke (storedValue s m rd) (admits_bound (sizeBytes_pos sz) hmap) hok
  have hw := writesIf_writeBack (s.poke addr (sizeBytes sz) (storedValue s m rd)) m ix rn sum
  obtain ⟨hpc, hcpsr, hspsr, -, hdraws, hinputs⟩ :=
    (OnlyRegs.refl (s.poke addr (sizeBytes sz) (storedValue s m rd))).writeBack m ix rn sum
  refine ⟨State.setPc _ (s.pc + 4), ?_, hstores.writeBack m ix rn sum, hw, rfl, hcpsr, hspsr, hdraws, hinputs⟩
  rw [storeSingle_of_done hp hmis (by rw [hsum, haddr]) hal (store_eq_done.2 ⟨hab, hmap, rfl⟩), hsum, storeValue_eq,
    advance_of_room (by rwa [hpc]), hpc, State.poke_pc]

/-- A load whose access aborts takes Data Abort after the base write-back that `ABORT_BASE` asks for (R225). -/
theorem loadSingle_of_aborts (hp : Passes s m c) (hmis : misuse = false)
    (hsum : indexed up (s.rd m rn) (offset m) = sum) (haddr : accessAddr ix (s.rd m rn) sum = addr)
    (hal : isAligned addr (sizeBytes sz) = true) (hab : s.aborts .read addr sz = true) :
    ∃ u t, loadSingle c ix up rd rn misuse sz extend s offset = .next t ∧
      AbortBaseDone s u m ix.writesBack rn sum ∧ Entered u t .dataAbort := by
  obtain ⟨u, hu, hdone⟩ := transferAbort_base s m ix rn sum
  refine ⟨u, _, ?_, hdone, entered_raise u .dataAbort⟩
  rw [loadSingle, whenPassed_of_passed hp.1 hp.2]
  simp [hmis, hsum, haddr, hal, State.load, hab, hu]

/-- A store whose access aborts takes Data Abort in the same way (R225). -/
theorem storeSingle_of_aborts (hp : Passes s m c) (hmis : misuse = false)
    (hsum : indexed up (s.rd m rn) (offset m) = sum) (haddr : accessAddr ix (s.rd m rn) sum = addr)
    (hal : isAligned addr (sizeBytes sz) = true) (hab : s.aborts .write addr sz = true) :
    ∃ u t, storeSingle c ix up rd rn misuse sz s offset = .next t ∧
      AbortBaseDone s u m ix.writesBack rn sum ∧ Entered u t .dataAbort := by
  obtain ⟨u, hu, hdone⟩ := transferAbort_base s m ix rn sum
  refine ⟨u, _, ?_, hdone, entered_raise u .dataAbort⟩
  rw [storeSingle, whenPassed_of_passed hp.1 hp.2]
  simp [hmis, hsum, haddr, hal, State.store, hab, hu]

end

/-- Every address is aligned to one byte (R64). -/
theorem isAligned_one (a : Word) : isAligned a 1 = true := by simp [isAligned, Nat.mod_one]

/-- The base with the offset added or subtracted is exact modulo 2^32 (R224). -/
theorem toNat_indexed (up : Bool) (base off : Word) :
    ((indexed up base off).toNat : Int) = (base.toNat + (if up then 1 else -1) * off.toNat) % 2 ^ 32 := by
  cases up with
  | false => simp only [indexed, Bool.false_eq_true, if_false, BitVec.toNat_sub]; omega
  | true => simp only [indexed, if_true, BitVec.toNat_add]; omega

/-- The six narrow transfers that pass refuse operands that R227 turns away of them. -/
theorem exec_narrow_of_misuse {off : Offset} {half : HalfOffset} (hp : Passes s m c)
    (hoff : narrowTransferMisuse ix rd rn off.reg? = true) (hhalf : narrowTransferMisuse ix rd rn half.reg? = true) :
    exec (.ldrb c ix up rd rn off) s = .refused .transferOperands ∧
    exec (.strb c ix up rd rn off) s = .refused .transferOperands ∧
    exec (.ldrh c ix up rd rn half) s = .refused .transferOperands ∧
    exec (.strh c ix up rd rn half) s = .refused .transferOperands ∧
    exec (.ldrsb c ix up rd rn half) s = .refused .transferOperands ∧
    exec (.ldrsh c ix up rd rn half) s = .refused .transferOperands :=
  ⟨loadSingle_of_misuse hp hoff, storeSingle_of_misuse hp hoff, loadSingle_of_misuse hp hhalf,
    storeSingle_of_misuse hp hhalf, loadSingle_of_misuse hp hhalf, loadSingle_of_misuse hp hhalf⟩

end Sys2Proof.Machine

namespace Sys2Proof.Claims
/-! What the rules of spec/44_load_store.md say of the eight single transfers. -/

open Machine

/-- Settles O25: the word loaded is the number of its four bytes. -/
theorem loadWord : Obligations.LoadWord := by
  intro s m c ix up rd rn off hp hroom hrd hmis sum a hacc
  obtain ⟨t, hx, hends⟩ := loadSingle_result (up := up) (extend := id) (offset := fun m => s.offset m off) hp hroom hmis
    hrd (base_of_allowed hmis) rfl rfl hacc rfl
  exact ⟨t, _, hx, toNat_peek s a (by decide), hends⟩

/-- Settles O26: the four narrow loads are loads with their own width and extension. -/
theorem loadNarrow : Obligations.LoadNarrow := by
  intro s m c ix up rd rn hp hroom does
  constructor
  · intro off hmis sum a hacc
    obtain ⟨hallowed, hrd⟩ := narrowTransferMisuse_eq_false_iff.1 hmis
    have hbase := base_of_allowed hallowed
    exact ⟨_, toNat_peek s a (by decide), loadSingle_result hp hroom hmis hrd hbase rfl rfl hacc rfl⟩
  · intro off hmis sum a
    obtain ⟨hallowed, hrd⟩ := narrowTransferMisuse_eq_false_iff.1 hmis
    have hbase := base_of_allowed hallowed
    exact ⟨fun hacc => ⟨_, toNat_peek s a (by decide), loadSingle_result hp hroom hmis hrd hbase rfl rfl hacc rfl⟩,
      fun hacc => ⟨_, toInt_signedByte_peek s a, loadSingle_result hp hroom hmis hrd hbase rfl rfl hacc rfl⟩,
      fun hacc => ⟨_, toInt_signedHalf_peek s a, loadSingle_result hp hroom hmis hrd hbase rfl rfl hacc rfl⟩⟩

/-- Settles O27: the same access as in the other loads, with the pc as its destination. -/
theorem loadPc : Obligations.LoadPc := by
  intro s m c ix up rn off hp hmis sum a hacc
  obtain ⟨t, hx, hends⟩ := loadSingle_r15_result (up := up) (extend := id) (offset := fun m => s.offset m off) hp
    hmis rfl rfl hacc rfl
  exact ⟨t, _, hx, toNat_peek s a (by decide), hends⟩

/-- Settles O28: the three stores are stores of their own width. -/
protected theorem storeSingle : Obligations.StoreSingle := by
  intro s m c ix up rd rn hp hroom hok does
  constructor
  · intro off sum a
    exact ⟨fun hmis hacc => storeSingle_result hp hroom hok hmis rfl rfl hacc,
      fun hmis hacc => storeSingle_result hp hroom hok hmis rfl rfl hacc⟩
  · intro off sum a hmis hacc
    exact storeSingle_result hp hroom hok hmis rfl rfl hacc

/-- Settles O31: loads and stores whose access aborts; the byte accesses are always aligned. -/
theorem transferAbort : Obligations.TransferAbort := by
  intro s m c ix up rd rn hp aborts
  constructor
  · intro off sum a
    constructor
    · intro hmis hal
      exact ⟨loadSingle_of_aborts hp hmis rfl rfl hal, storeSingle_of_aborts hp hmis rfl rfl hal⟩
    · intro hmis
      exact ⟨loadSingle_of_aborts hp hmis rfl rfl (isAligned_one a),
        storeSingle_of_aborts hp hmis rfl rfl (isAligned_one a)⟩
  · intro off hmis sum a
    refine ⟨loadSingle_of_aborts hp hmis rfl rfl (isAligned_one a), fun hal => ⟨fun hab => ?_, ?_⟩⟩
    · exact ⟨loadSingle_of_aborts hp hmis rfl rfl hal hab, loadSingle_of_aborts hp hmis rfl rfl hal hab⟩
    · exact storeSingle_of_aborts hp hmis rfl rfl hal

/-- Settles O29: the immediates are zero-extended, the shifted register is Operand2's, and both sums are exact. -/
theorem addressForms : Obligations.AddressForms := by
  intro s m up rn rm kind amount imm12 imm8 off half
  exact ⟨BitVec.toNat_setWidth_of_le (by decide), rfl, BitVec.toNat_setWidth_of_le (by decide), rfl,
    toNat_indexed up _ _, toNat_indexed up _ _, fun _ _ => ⟨rfl, rfl, rfl⟩, rfl, rfl, rfl⟩

/-- Settles O32: what is refused and what is allowed, read off the two lists of R227. -/
theorem transferRestrictions : Obligations.TransferRestrictions := by
  intro s m c ix up rd rn rm hp refused all
  have hall {off : Offset} {half : HalfOffset} (hoff : transferMisuse ix rd rn off.reg? = true)
      (hhalf : transferMisuse ix rd rn half.reg? = true) : all off half :=
    ⟨loadSingle_of_misuse hp hoff, storeSingle_of_misuse hp hoff,
      exec_narrow_of_misuse hp (narrowTransferMisuse_iff.2 (.inl hoff)) (narrowTransferMisuse_iff.2 (.inl hhalf))⟩
  rw [← writesBack_iff]
  have hoffset {r : Option Reg} (hr : r ≠ some .r15) : transferMisuse .offset rd .r15 r = false :=
    transferMisuse_eq_false_iff.2 ⟨hr, nofun⟩
  refine ⟨fun hwb hrn off half => ?_, fun kind amount hrm => ?_, fun hrd off half => ?_, fun hrm => ?_,
    fun hrd hrm => ?_, fun hrm hrn hne => ?_, State.rd_r15 s m⟩
  · have hmis (r : Option Reg) : transferMisuse ix rd rn r = true :=
      transferMisuse_iff.2 (.inl ⟨hwb, hrn.imp_right .inl⟩)
    exact hall (hmis _) (hmis _)
  · have hmis : transferMisuse ix rd rn (some rm) = true := by
      rw [transferMisuse_iff]
      rcases hrm with rfl | ⟨hwb, rfl⟩
      · exact .inr rfl
      · exact .inl ⟨hwb, .inr (.inr rfl)⟩
    exact hall hmis hmis
  · exact exec_narrow_of_misuse hp (narrowTransferMisuse_iff.2 (.inr hrd)) (narrowTransferMisuse_iff.2 (.inr hrd))
  · exact ⟨hoffset nofun, hoffset (by simpa using hrm)⟩
  · exact ⟨narrowTransferMisuse_eq_false_iff.2 ⟨hoffset nofun, hrd⟩,
      narrowTransferMisuse_eq_false_iff.2 ⟨hoffset (by simpa using hrm), hrd⟩⟩
  · exact ⟨transferMisuse_eq_false_iff.2 ⟨nofun, fun _ => ⟨hrn, hrn, nofun⟩⟩,
      transferMisuse_eq_false_iff.2 ⟨by simpa using hrm, fun _ => ⟨hrn, hrn, by simpa using hne⟩⟩⟩

end Sys2Proof.Claims

namespace Sys2Proof.Claims
/-! The register list of a block transfer (R100, R107, R262): the place of each register in the ascending order, and the
lists that R264 refuses. -/

open Machine

variable {list : BitVec 16} {r rn : Reg} {j k : Nat} {wb : Bool}

/-! ### The order of a list -/

/-- The registers below `r` are those of the lower bits of a list. -/
theorem map_index_take_all (r : Reg) : (Reg.all.take r.index).map Reg.index = List.range r.index := by
  cases r <;> rfl

/-- In the ascending order every register stands between those below it and those above it. -/
theorem all_eq_take_append (r : Reg) : Reg.all = Reg.all.take r.index ++ r :: Reg.all.drop (r.index + 1) := by
  cases r <;> rfl

/-- Each register of a list stands in the ascending order at its rank (R262). -/
theorem regsOf_rankIn (h : inList list r = true) : (regsOf list)[rankIn list r]? = some r := by
  have hrank : rankIn list r = ((Reg.all.take r.index).filter (inList list)).length := by
    rw [rankIn, ← map_index_take_all, List.countP_map, ← List.countP_eq_length_filter]
    rfl
  rw [regsOf, all_eq_take_append r, List.filter_append, List.filter_cons_of_pos h, hrank,
    List.getElem?_append_right le_rfl, Nat.sub_self]
  rfl

/-- No register stands twice in the ascending order. -/
theorem nodup_regsOf (list : BitVec 16) : (regsOf list).Nodup :=
  List.Nodup.filter _ (by decide)

/-- The rank of a listed register is its only place. -/
theorem eq_rankIn_of_getElem? (h : (regsOf list)[k]? = some r) : k = rankIn list r :=
  (List.getElem?_inj (List.getElem?_eq_some_iff.1 h).1 (nodup_regsOf list)).1
    (h.trans (regsOf_rankIn (mem_regsOf (List.mem_of_getElem? h))).symm)

/-- A listed register's rank is below the size of the list. -/
theorem rankIn_lt_listSize (h : inList list r = true) : rankIn list r < listSize list :=
  regsOf_length_eq_listSize list ▸ (List.getElem?_eq_some_iff.1 (regsOf_rankIn h)).1

/-- The first `j` registers of a list are the listed ones of a rank below `j`. -/
theorem mem_take_regsOf : r ∈ (regsOf list).take j ↔ inList list r = true ∧ rankIn list r < j := by
  constructor
  · intro h
    obtain ⟨k, hk⟩ := List.mem_iff_getElem?.1 h
    rw [List.getElem?_take] at hk
    split at hk
    next hlt => exact ⟨mem_regsOf (List.mem_of_getElem? hk), eq_rankIn_of_getElem? hk ▸ hlt⟩
    next => cases hk
  · rintro ⟨hin, hlt⟩
    exact List.mem_of_getElem? ((List.getElem?_take_of_lt hlt).trans (regsOf_rankIn hin))
/-- The size of the first `j` registers of a list. -/
theorem length_take_regsOf (h : j ≤ listSize list) : ((regsOf list).take j).length = j :=
  List.length_take_of_le (regsOf_length_eq_listSize list ▸ h)

/-- r15 is none of the registers below another place of a list (R262). -/
theorem r15_notMem_take_regsOf (h : j < listSize list) : Reg.r15 ∉ (regsOf list).take j := by
  intro hmem
  obtain ⟨hin, hlt⟩ := mem_take_regsOf.1 hmem
  have hlast := regsOf_getElem_r15 list _ (regsOf_rankIn hin)
  rw [regsOf_length_eq_listSize] at hlast
  omega

/-! ### The lists that are refused (R264) -/

/-- What R264 turns away of the four LDMs. -/
theorem ldmMisuse_iff : ldmMisuse wb rn list = true ↔ list = 0 ∨ rn = .r15 ∨ (wb = true ∧ inList list rn = true) := by
  simp only [ldmMisuse, Bool.or_eq_true, Bool.and_eq_true, beq_iff_eq, or_assoc]

/-- A listed register is the lowest one exactly when its rank is 0. -/
theorem head?_regsOf_iff (h : inList list r = true) : (regsOf list).head? = some r ↔ rankIn list r = 0 := by
  rw [List.head?_eq_getElem?]
  exact ⟨fun h0 => (eq_rankIn_of_getElem? h0).symm, fun h0 => h0 ▸ regsOf_rankIn h⟩

/-- What R264 turns away of the four STMs. -/
theorem stmMisuse_iff : stmMisuse wb rn list = true ↔
    list = 0 ∨ rn = .r15 ∨ (wb = true ∧ inList list rn = true ∧ rankIn list rn ≠ 0) := by
  simp only [stmMisuse, Bool.or_eq_true, Bool.and_eq_true, beq_iff_eq, bne_iff_ne, or_assoc, and_assoc]
  refine or_congr_right (or_congr_right (and_congr_right fun _ => and_congr_right fun h => ?_))
  exact not_congr (head?_regsOf_iff h)

/-- What R264 allows of the four LDMs. -/
theorem ldmMisuse_eq_false_iff : ldmMisuse wb rn list = false ↔
    list ≠ 0 ∧ rn ≠ .r15 ∧ (wb = true → inList list rn = false) := by
  rw [← Bool.not_eq_true, ldmMisuse_iff, not_or, not_or, not_and, Bool.not_eq_true]

/-- A base that R264 allows of an STM is not r15. -/
theorem base_ne_r15_of_stm (h : stmMisuse wb rn list = false) : rn ≠ .r15 := by
  rintro rfl
  rw [stmMisuse_iff.2 (.inr (.inl rfl))] at h
  cases h

/-- Operands that R264 allows of an LDM it allows of an STM. -/
theorem stmMisuse_of_ldm (h : ldmMisuse wb rn list = false) : stmMisuse wb rn list = false := by
  obtain ⟨hlist, hrn, hin⟩ := ldmMisuse_eq_false_iff.1 h
  rw [← Bool.not_eq_true, stmMisuse_iff]
  rintro (hlist' | hrn' | ⟨hwb, hin', -⟩)
  · exact hlist hlist'
  · exact hrn hrn'
  · rw [hin hwb] at hin'
    cases hin'

end Sys2Proof.Claims

namespace Sys2Proof.Machine
/-! The loops of R265 in closed form: the registers an LDM has loaded and the words an STM has stored after the first of
its registers. -/

open Claims

variable {s u : State} {m : Mode} {r : Reg} {rs : List Reg} {start : Word} {j k : Nat}

/-! ### The words of a block -/

/-- The address after a word's is the next word's. -/
theorem wordAt_succ (start : Word) (k : Nat) : wordAt start k + 4 = wordAt start (k + 1) := by
  rw [wordAt, wordAt, Nat.mul_add, BitVec.ofNat_add, BitVec.add_assoc]
  rfl

/-- The first word of a block stands at its start. -/
theorem wordAt_zero (start : Word) : wordAt start 0 = start := BitVec.add_zero start

/-- The words of a block that stays below the top stand at ascending addresses. -/
theorem toNat_wordAt (h : start.toNat + 4 * (k + 1) ≤ 2 ^ 32) : (wordAt start k).toNat = start.toNat + 4 * k := by
  rw [wordAt, BitVec.toNat_add, BitVec.toNat_ofNat]
  omega

/-- Which accesses abort depends on the environment and the mode only (R319). -/
theorem aborts_congr (henv : u.env = s.env) (hcpsr : u.cpsr = s.cpsr) (kind : AccessKind) (a : Word) (sz : Size) :
    u.aborts kind a sz = s.aborts kind a sz := by
  rw [State.aborts, State.aborts, henv, State.mode, State.mode, hcpsr]

/-- What `MEM_MAP` admits depends on the parameters only (R68). -/
theorem admits_congr (hparams : u.params = s.params) (a : Word) (n : Nat) : u.admits a n = s.admits a n := by
  rw [State.admits, State.admits, hparams]

/-- Which blocks can be accessed depends on the inputs and the mode only. -/
theorem blockAccessible_congr {kind : AccessKind} {n : Nat} (hin : SameInputs s u) (hcpsr : u.cpsr = s.cpsr)
    (h : BlockAccessible s kind start n) : BlockAccessible u kind start n := by
  obtain ⟨hparams, henv, -⟩ := hin
  obtain ⟨hfit, hwords⟩ := h
  exact ⟨hfit, fun k hk => by rw [aborts_congr henv hcpsr, admits_congr hparams]; exact hwords k hk⟩

/-- A value read depends on the bytes of memory and their order only (R62). -/
theorem peek_congr (hmem : u.mem = s.mem) (hparams : u.params = s.params) (a : Word) (n : Nat) :
    u.peek a n = s.peek a n := by
  rw [State.peek, State.peek, hmem, hparams]

/-! ### The registers loaded -/

/-- The state with each register of a list loaded from its word of the block at `start`. -/
def State.loadBlock (s : State) (m : Mode) (rs : List Reg) (start : Word) : State :=
  rs.zipIdx.foldl (fun u p => u.setReg m p.1 (s.peek (wordAt start p.2) 4)) s

@[simp] theorem loadBlock_nil : s.loadBlock m [] start = s := rfl

/-- The last register of a list is loaded from the last word. -/
theorem loadBlock_concat : s.loadBlock m (rs ++ [r]) start =
    (s.loadBlock m rs start).setReg m r (s.peek (wordAt start rs.length) 4) := by
  simp [State.loadBlock, List.zipIdx_append]

/-- r15 is not loaded among the others (R266). -/
theorem loadBlock_concat_r15 : s.loadBlock m (rs ++ [.r15]) start = s.loadBlock m rs start := by
  rw [loadBlock_concat, State.setReg_r15]

/-- Loading registers writes no memory. -/
theorem loadBlock_mem (s : State) (m : Mode) (rs : List Reg) (start : Word) :
    (s.loadBlock m rs start).mem = s.mem := by
  induction rs using List.reverseRecOn with
  | nil => rfl
  | append_singleton rs r ih => rw [loadBlock_concat, State.setReg_mem, ih]

/-- Loading registers reaches nothing but the general registers. -/
theorem onlyRegs_loadBlock (s : State) (m : Mode) (rs : List Reg) (start : Word) :
    OnlyRegs s (s.loadBlock m rs start) := by
  induction rs using List.reverseRecOn with
  | nil => exact .refl s
  | append_singleton rs r ih => rw [loadBlock_concat]; exact ih.setReg m r _

/-- A register that no name of the mode means is not written under any name of it (R24). -/
theorem read_setReg_of_unseen {p : PhysReg} (hp : ∀ r, physReg r m ≠ some p) (r : Reg) (v : Word) :
    (s.setReg m r v).regs.read p = s.regs.read p := by
  rw [State.setReg]
  split
  next q hq => exact Regs.read_write_ne _ _ _ _ fun h => hp r (h ▸ hq)
  next => rfl

/-- The registers of other banks are not loaded (R24). -/
theorem read_loadBlock_of_unseen {p : PhysReg} (hp : ∀ r, physReg r m ≠ some p) (rs : List Reg) (start : Word) :
    (s.loadBlock m rs start).regs.read p = s.regs.read p := by
  induction rs using List.reverseRecOn with
  | nil => rfl
  | append_singleton rs r ih => rw [loadBlock_concat, read_setReg_of_unseen hp, ih]

/-- A register that is not listed is not loaded. -/
theorem rd_loadBlock_of_notMem (h : r ∉ rs) : (s.loadBlock m rs start).rd m r = s.rd m r := by
  induction rs using List.reverseRecOn with
  | nil => rfl
  | append_singleton rs r' ih =>
    rw [List.mem_append, List.mem_singleton, not_or] at h
    obtain ⟨hrs, hne⟩ := h
    rw [loadBlock_concat, State.rd_setReg_ne _ _ _ _ _ (Ne.symm hne), ih hrs]

/-- A listed register is loaded from the word at its place in the list (R262). -/
theorem rd_loadBlock (hnd : rs.Nodup) (hr : r ≠ .r15) (h : rs[k]? = some r) :
    (s.loadBlock m rs start).rd m r = s.peek (wordAt start k) 4 := by
  induction rs using List.reverseRecOn with
  | nil => cases h
  | append_singleton rs r' ih =>
    obtain ⟨hr', hnd'⟩ := (List.nodup_concat rs r').1 (by rwa [List.concat_eq_append])
    rw [loadBlock_concat]
    rcases Nat.lt_or_ge k rs.length with hk | hk
    · rw [List.getElem?_append_left hk] at h
      have hne : r' ≠ r := fun e => hr' (e ▸ List.mem_of_getElem? h)
      rw [State.rd_setReg_ne _ _ _ _ _ hne, ih hnd' h]
    · rw [List.getElem?_append_right hk, List.getElem?_singleton] at h
      split at h
      next h0 =>
        cases h
        rw [State.rd_setReg_same _ _ _ _ hr, show k = rs.length by omega]
      next => cases h

/-- The loop of LDM, past a first part of its list without r15 whose words can be accessed (R265). -/
theorem loadWords_append (h15 : Reg.r15 ∉ rs) (hacc : BlockAccessible s .read start rs.length) (rest : List Reg) :
    loadWords m (rs ++ rest) start s =
      loadWords m rest (wordAt start rs.length) (s.loadBlock m rs start) := by
  induction rs using List.reverseRecOn generalizing rest with
  | nil => rw [List.nil_append, List.length_nil, wordAt_zero, loadBlock_nil]
  | append_singleton rs r ih =>
    obtain ⟨hfit, hwords⟩ := hacc
    rw [List.length_append, List.length_singleton] at hfit hwords
    rw [List.mem_append, List.mem_singleton, not_or] at h15
    obtain ⟨hrs, hr⟩ := h15
    obtain ⟨hab, hmap⟩ := hwords rs.length (Nat.lt_succ_self _)
    obtain ⟨-, hcpsr, -, -, -, hparams, henv, -⟩ := onlyRegs_loadBlock s m rs start
    have hload : (s.loadBlock m rs start).load (wordAt start rs.length) .word =
        .done (s.peek (wordAt start rs.length) 4) := by
      rw [load_eq_done, aborts_congr henv hcpsr, admits_congr hparams]
      exact ⟨hab, hmap, (peek_congr (loadBlock_mem s m rs start) hparams _ _).symm⟩
    rw [List.append_assoc, ih hrs ⟨by omega, fun k hk => hwords k (by omega)⟩, List.singleton_append, loadWords]
    simp only [hload, Ne.symm hr, if_false]
    rw [wordAt_succ, loadBlock_concat, List.length_append, List.length_singleton]

/-! ### The words stored -/

/-- The state with each register of a list stored to its word of the block at `start`. -/
def State.storeBlock (s : State) (m : Mode) (rs : List Reg) (start : Word) : State :=
  rs.zipIdx.foldl (fun u p => u.poke (wordAt start p.2) 4 (s.storeValue m p.1)) s

@[simp] theorem storeBlock_nil : s.storeBlock m [] start = s := rfl

/-- The last register of a list is stored to the last word. -/
theorem storeBlock_concat : s.storeBlock m (rs ++ [r]) start =
    (s.storeBlock m rs start).poke (wordAt start rs.length) 4 (s.storeValue m r) := by
  simp [State.storeBlock, List.zipIdx_append]

/-- Storing registers reaches nothing but memory and its marks. -/
theorem storeBlock_eq_setMem (s : State) (m : Mode) (rs : List Reg) (start : Word) :
    ∃ mem stored, s.storeBlock m rs start = s.setMem mem stored := by
  induction rs using List.reverseRecOn with
  | nil => exact ⟨s.mem, s.storedTo, rfl⟩
  | append_singleton rs r ih =>
    obtain ⟨mem, stored, h⟩ := ih
    rw [storeBlock_concat, h]
    exact ⟨_, _, rfl⟩

/-- The first registers of a list stand in memory from `start` up, each in its own word; every other byte is as before,
and the bytes of these words have been marked (R262, R76). -/
def BlockStored (s u : State) (m : Mode) (rs : List Reg) (start : Word) : Prop :=
  (∀ k r, rs[k]? = some r → ∀ i < 4,
    u.mem.read (start.toNat + 4 * k + i) = storedByte s (storedValue s m r) 4 i) ∧
  (∀ x, ¬ (start.toNat ≤ x ∧ x < start.toNat + 4 * rs.length) → u.mem.read x = s.mem.read x) ∧
  (∀ x, x ∈ u.storedTo ↔ (start.toNat ≤ x ∧ x < start.toNat + 4 * rs.length) ∨ x ∈ s.storedTo)

/-- One more register stored to the next word. -/
theorem BlockStored.poke (h : BlockStored s u m rs start) (hok : u.memOk = true) (hin : SameInputs s u)
    (hfit : start.toNat + 4 * (rs.length + 1) ≤ 2 ^ 32) :
    BlockStored s (u.poke (wordAt start rs.length) 4 (storedValue s m r)) m (rs ++ [r]) start := by
  obtain ⟨hbytes, hothers, hmarks⟩ := h
  obtain ⟨hparams, -, -⟩ := hin
  have ha := toNat_wordAt hfit
  obtain ⟨hread, hmark⟩ := stores_poke (storedValue s m r) (a := wordAt start rs.length) (n := 4) (by omega) hok
  rw [ha] at hread hmark
  rw [BlockStored, List.length_append, List.length_singleton]
  refine ⟨fun k r' hr' i hi => ?_, fun x hx => ?_, fun x => ?_⟩
  · rcases Nat.lt_or_ge k rs.length with hk | hk
    · rw [List.getElem?_append_left hk] at hr'
      rw [hread, if_neg (by omega), hbytes k r' hr' i hi]
    · rw [List.getElem?_append_right hk, List.getElem?_singleton] at hr'
      split at hr'
      next h0 =>
        cases hr'
        obtain rfl : k = rs.length := by omega
        rw [hread, if_pos (by omega), Nat.add_sub_cancel_left, storedByte, storedByte, hparams]
      next => cases hr'
  · rw [hread, if_neg (by omega), hothers x (by omega)]
  · rw [hmark, hmarks, ← or_assoc]
    exact or_congr_left (by omega)

/-- The words of a block that stays below the top are stored as R262 and R267 say, and memory stays in canonical
form. -/
theorem blockStored_storeBlock (hok : s.memOk = true) (hfit : start.toNat + 4 * rs.length ≤ 2 ^ 32) :
    BlockStored s (s.storeBlock m rs start) m rs start ∧ (s.storeBlock m rs start).memOk = true := by
  induction rs using List.reverseRecOn with
  | nil => exact ⟨⟨fun k r h => (by cases h), fun x _ => rfl, fun x => by simp⟩, hok⟩
  | append_singleton rs r ih =>
    rw [List.length_append, List.length_singleton] at hfit
    obtain ⟨hstored, hok'⟩ := ih (by omega)
    obtain ⟨mem, stored, hu⟩ := storeBlock_eq_setMem s m rs start
    have hin : SameInputs s (s.storeBlock m rs start) := by rw [hu]; exact .refl s
    have ha := toNat_wordAt hfit
    rw [storeBlock_concat, storeValue_eq]
    exact ⟨hstored.poke hok' hin hfit, memOk_poke (by omega) hok'⟩

/-- The loop of STM, past a first part of its list whose words can be accessed (R265). -/
theorem storeWords_append (hacc : BlockAccessible s .write start rs.length) (rest : List Reg) :
    storeWords m (rs ++ rest) start s =
      storeWords m rest (wordAt start rs.length) (s.storeBlock m rs start) := by
  induction rs using List.reverseRecOn generalizing rest with
  | nil => rw [List.nil_append, List.length_nil, wordAt_zero, storeBlock_nil]
  | append_singleton rs r ih =>
    obtain ⟨hfit, hwords⟩ := hacc
    rw [List.length_append, List.length_singleton] at hfit hwords
    obtain ⟨hab, hmap⟩ := hwords rs.length (Nat.lt_succ_self _)
    obtain ⟨mem, stored, hu⟩ := storeBlock_eq_setMem s m rs start
    have hstore : (s.storeBlock m rs start).store (wordAt start rs.length) .word
        ((s.storeBlock m rs start).storeValue m r) = .done (s.storeBlock m (rs ++ [r]) start) := by
      rw [store_eq_done, storeBlock_concat, hu]
      exact ⟨hab, hmap, rfl⟩
    rw [List.append_assoc, ih ⟨by omega, fun k hk => hwords k (by omega)⟩, List.singleton_append, storeWords]
    simp only [hstore]
    rw [wordAt_succ, List.length_append, List.length_singleton]

end Sys2Proof.Machine

namespace Sys2Proof.Machine
/-! What a block transfer comes to (R265, R266, R268): all its words transferred, or an access aborted with the words
below transferred. -/

open Claims

variable {s u : State} {m : Mode} {c : Cond} {bm : BlockMode} {wb : Bool} {rn : Reg} {list : BitVec 16} {start : Word}
  {j : Nat}

/-! ### The end of the loops -/

/-- The pc that an LDM loads, where r15 is listed (R266). -/
def State.loadedPc (s : State) (list : BitVec 16) (start : Word) : Option Word :=
  if inList list .r15 then some (wordAligned (s.peek (wordAt start (rankIn list .r15)) 4)) else none

/-- A list that holds r15 holds it last (R262). -/
theorem regsOf_eq_concat_r15 (h : inList list .r15 = true) :
    regsOf list = (regsOf list).take (rankIn list .r15) ++ [.r15] := by
  have hget := regsOf_rankIn h
  have hlast := regsOf_getElem_r15 list _ hget
  obtain ⟨hlt, hr⟩ := List.getElem?_eq_some_iff.1 hget
  conv_lhs => rw [← List.take_length (l := regsOf list), ← hlast, ← List.take_concat_get' _ _ hlt, hr]

/-- The loop of LDM over a block that can be accessed (R265, R266). -/
theorem loadWords_all (hacc : BlockAccessible s .read start (listSize list)) :
    loadWords m (regsOf list) start s = .done (s.loadBlock m (regsOf list) start) (s.loadedPc list start) := by
  rw [State.loadedPc]
  split
  next h15 =>
    have hlt := rankIn_lt_listSize h15
    have hlen := length_take_regsOf hlt.le
    obtain ⟨hfit, hwords⟩ := hacc
    obtain ⟨hab, hmap⟩ := hwords _ hlt
    obtain ⟨-, hcpsr, -, -, -, hparams, henv, -⟩ :=
      onlyRegs_loadBlock s m ((regsOf list).take (rankIn list .r15)) start
    have hload := load_eq_done.2 ⟨(aborts_congr henv hcpsr ..).trans hab, (admits_congr hparams ..).trans hmap, rfl⟩
    rw [regsOf_eq_concat_r15 h15, loadBlock_concat_r15, loadWords_append (r15_notMem_take_regsOf hlt)
      (by rw [hlen]; exact ⟨by omega, fun k hk => hwords k (by omega)⟩), hlen, loadWords]
    simp only [hload, if_true, sizeBytes]
    rw [peek_congr (loadBlock_mem ..) hparams]
  next h15 =>
    have hno : Reg.r15 ∉ regsOf list := fun h => h15 (mem_regsOf h)
    rw [← regsOf_length_eq_listSize] at hacc
    have h := loadWords_append (m := m) hno hacc []
    rwa [List.append_nil] at h

/-- The loop of STM over a block that can be accessed (R265). -/
theorem storeWords_all (hacc : BlockAccessible s .write start (listSize list)) :
    storeWords m (regsOf list) start s = .done (s.storeBlock m (regsOf list) start) none := by
  rw [← regsOf_length_eq_listSize] at hacc
  have h := storeWords_append (m := m) hacc []
  rwa [List.append_nil] at h

/-- A list is its first `j` registers and a next one. -/
theorem regsOf_eq_take_append (hj : j < listSize list) :
    ∃ r rest, regsOf list = (regsOf list).take j ++ r :: rest := by
  rw [← regsOf_length_eq_listSize] at hj
  exact ⟨_, _, by rw [← List.drop_eq_getElem_cons hj, List.take_append_drop]⟩

/-- The loop of LDM where the access of the `j`-th word aborts: the words below have been loaded (R268). -/
theorem loadWords_abort (hj : j < listSize list) (hacc : BlockAccessible s .read start j)
    (hab : s.aborts .read (wordAt start j) .word = true) :
    loadWords m (regsOf list) start s = .abort (s.loadBlock m ((regsOf list).take j) start) := by
  obtain ⟨r, rest, hsplit⟩ := regsOf_eq_take_append hj
  obtain ⟨-, hcpsr, -, -, -, -, henv, -⟩ := onlyRegs_loadBlock s m ((regsOf list).take j) start
  have hlen := length_take_regsOf hj.le
  conv_lhs => rw [hsplit]
  rw [loadWords_append (r15_notMem_take_regsOf hj) (by rwa [hlen]), hlen, loadWords]
  simp only [State.load, aborts_congr henv hcpsr, hab, if_true]

/-- The loop of STM where the access of the `j`-th word aborts: the words below have been stored (R268). -/
theorem storeWords_abort (hj : j < listSize list) (hacc : BlockAccessible s .write start j)
    (hab : s.aborts .write (wordAt start j) .word = true) :
    storeWords m (regsOf list) start s = .abort (s.storeBlock m ((regsOf list).take j) start) := by
  obtain ⟨r, rest, hsplit⟩ := regsOf_eq_take_append hj
  obtain ⟨mem, stored, hu⟩ := storeBlock_eq_setMem s m ((regsOf list).take j) start
  have hab' : (s.setMem mem stored).aborts .write (wordAt start j) .word = true := hab
  have hlen := length_take_regsOf hj.le
  conv_lhs => rw [hsplit]
  rw [storeWords_append (by rwa [hlen]), hlen, storeWords, hu]
  simp only [State.store, hab', if_true]

/-! ### The base register -/

/-- The state with the base written back where `W = 1` (R263). -/
def State.baseWritten (s : State) (m : Mode) (wb : Bool) (rn : Reg) (v : Word) : State :=
  if wb then s.setReg m rn v else s

/-- The write-back reaches nothing but the general registers. -/
theorem onlyRegs_baseWritten (h : OnlyRegs s u) (m : Mode) (wb : Bool) (rn : Reg) (v : Word) :
    OnlyRegs s (u.baseWritten m wb rn v) := by
  cases wb with
  | false => exact h
  | true => exact h.setReg m rn v

@[simp] theorem baseWritten_mem (v : Word) : (s.baseWritten m wb rn v).mem = s.mem := by
  cases wb with
  | false => rfl
  | true => exact State.setReg_mem ..

@[simp] theorem baseWritten_storedTo (v : Word) : (s.baseWritten m wb rn v).storedTo = s.storedTo := by
  cases wb with
  | false => rfl
  | true => exact State.setReg_storedTo ..

/-- The write-back changes the base register where `W = 1`, and no other (R263). -/
theorem writesIf_baseWritten (hrn : rn ≠ .r15) (v : Word) : WritesIf wb s (s.baseWritten m wb rn v) m rn v := by
  intro p
  cases wb with
  | false => simp [State.baseWritten]
  | true => simpa [State.baseWritten] using writes_setReg hrn p

/-- What a name reads after a write under one name of the same mode (R24). -/
theorem rd_of_writesIf {v : Word} {r : Reg} (h : WritesIf wb s u m rn v) (hr : r ≠ .r15) :
    u.rd m r = if wb = true ∧ r = rn then v else s.rd m r := by
  obtain ⟨p, hp⟩ := physReg_of_ne r m hr
  have hsame : physReg rn m = some p ↔ r = rn := ⟨fun h => physReg_inj _ _ _ _ hp h, fun h => h ▸ hp⟩
  rw [State.rd_of_phys _ _ _ _ hp, State.rd_of_phys _ _ _ _ hp, h p]
  simp only [hsame]

/-- The registers of other banks are not written under a name of this mode (R24). -/
theorem read_of_writesIf {v : Word} {p : PhysReg} (h : WritesIf wb s u m rn v) (hp : ∀ r, physReg r m ≠ some p) :
    u.regs.read p = s.regs.read p := by
  rw [h p, if_neg fun hrn => hp rn hrn.2]

/-- A move of the pc changes no other operand. -/
theorem rd_setPc {r : Reg} (a : Word) (hr : r ≠ .r15) : (s.setPc a).rd m r = s.rd m r := by
  obtain ⟨p, hp⟩ := physReg_of_ne r m hr
  rw [State.rd_of_phys _ _ _ _ hp, State.rd_of_phys _ _ _ _ hp, State.setPc_regs]

/-! ### The four ends of a block transfer -/

/-- A block transfer whose words are all transferred ends with the write-back and then the pc (R265, R266). -/
theorem finishBlock_done {b written : Word} {p : Option Word} (h : p = none → Room u) :
    finishBlock m wb rn b written (.done u p) =
      .next ((u.baseWritten m wb rn written).setPc (p.getD (u.pc + 4))) := by
  cases p with
  | some a => rfl
  | none =>
    obtain ⟨hpc, -, -⟩ := onlyRegs_baseWritten (.refl u) m wb rn written
    have hadv := advance_of_room (s := u.baseWritten m wb rn written) (by rw [hpc]; exact h rfl)
    rw [hpc] at hadv
    exact hadv

/-- The base at the entry of a Data Abort, in the words of R268. -/
theorem abortBaseValue_eq (ab : AbortBase) (wb : Bool) (b written : Word) :
    abortBaseValue ab wb b written = if wb = true ∧ ab = .updated then written else b := by
  cases ab with
  | restored => simp [abortBaseValue]
  | updated => simp [abortBaseValue]

section
variable (hp : Passes s m c) (hal : isAligned (s.rd m rn) 4 = true)
  (hstart : blockStart bm (s.rd m rn) (listSize list) = start)
include hp hal hstart

/-- An LDM whose words can be accessed (R265, R266). -/
theorem exec_ldm_all (hmis : ldmMisuse wb rn list = false) (hroom : inList list .r15 = false → Room s)
    (hacc : BlockAccessible s .read start (listSize list)) :
    exec (ldm bm c wb rn list) s =
      .next (((s.loadBlock m (regsOf list) start).baseWritten m wb rn
        (blockWriteBack bm (s.rd m rn) (listSize list))).setPc ((s.loadedPc list start).getD (s.pc + 4))) := by
  subst hstart
  obtain ⟨hpc, -⟩ := onlyRegs_loadBlock s m (regsOf list) (blockStart bm (s.rd m rn) (listSize list))
  rw [exec_ldm, blockTransfer_of_fits hp hmis hal hacc.1, loadWords_all hacc, finishBlock_done, hpc]
  intro hnone
  rw [Room, hpc]
  exact hroom (by simpa [State.loadedPc] using hnone)

/-- An STM whose words can be accessed (R265). -/
theorem exec_stm_all (hmis : stmMisuse wb rn list = false) (hroom : Room s)
    (hacc : BlockAccessible s .write start (listSize list)) :
    exec (stm bm c wb rn list) s =
      .next (((s.storeBlock m (regsOf list) start).baseWritten m wb rn
        (blockWriteBack bm (s.rd m rn) (listSize list))).setPc (s.pc + 4)) := by
  subst hstart
  obtain ⟨mem, stored, hu⟩ := storeBlock_eq_setMem s m (regsOf list) (blockStart bm (s.rd m rn) (listSize list))
  rw [exec_stm, blockTransfer_of_fits hp hmis hal hacc.1, storeWords_all hacc, hu]
  exact finishBlock_done fun _ => hroom

variable (hfit : start.toNat + 4 * listSize list ≤ 2 ^ 32) (hj : j < listSize list)
include hfit hj

/-- An LDM whose `j`-th word aborts (R268). -/
theorem exec_ldm_abort (hmis : ldmMisuse wb rn list = false) (hacc : BlockAccessible s .read start j)
    (hab : s.aborts .read (wordAt start j) .word = true) :
    exec (ldm bm c wb rn list) s =
      .next (((s.loadBlock m ((regsOf list).take j) start).setReg m rn
        (if wb = true ∧ s.params.abortBase = .updated then blockWriteBack bm (s.rd m rn) (listSize list)
          else s.rd m rn)).raise .dataAbort) := by
  subst hstart
  obtain ⟨-, -, -, -, -, hparams, -⟩ :=
    onlyRegs_loadBlock s m ((regsOf list).take j) (blockStart bm (s.rd m rn) (listSize list))
  rw [exec_ldm, blockTransfer_of_fits hp hmis hal hfit, loadWords_abort hj hacc hab, finishBlock, abortBaseValue_eq,
    hparams]

/-- An STM whose `j`-th word aborts (R268). -/
theorem exec_stm_abort (hmis : stmMisuse wb rn list = false) (hacc : BlockAccessible s .write start j)
    (hab : s.aborts .write (wordAt start j) .word = true) :
    exec (stm bm c wb rn list) s =
      .next (((s.storeBlock m ((regsOf list).take j) start).setReg m rn
        (if wb = true ∧ s.params.abortBase = .updated then blockWriteBack bm (s.rd m rn) (listSize list)
          else s.rd m rn)).raise .dataAbort) := by
  subst hstart
  obtain ⟨mem, stored, hu⟩ :=
    storeBlock_eq_setMem s m ((regsOf list).take j) (blockStart bm (s.rd m rn) (listSize list))
  rw [exec_stm, blockTransfer_of_fits hp hmis hal hfit, storeWords_abort hj hacc hab, finishBlock, abortBaseValue_eq,
    hu]
  rfl

end

end Sys2Proof.Machine

namespace Sys2Proof.Claims
/-! What the rules of spec/45_block_transfer.md say of the eight block transfers. -/

open Machine

variable {s u : State} {m : Mode} {c : Cond} {bm back : BlockMode} {wb : Bool} {rn r : Reg} {list : BitVec 16}
  {start v : Word} {j n : Nat}

/-! ### Complete transfers (R265 to R267) -/

/-- A listed register whose rank is below `j` is among the first `j` loaded, with the number that the bytes of its word
make (R62, R262). -/
theorem rd_loadBlock_take (hr : r ≠ .r15) (hin : inList list r = true) (hlt : rankIn list r < j) :
    ((s.loadBlock m ((regsOf list).take j) start).rd m r).toNat =
      numberAt s (wordAt start (rankIn list r)).toNat 4 := by
  rw [rd_loadBlock ((nodup_regsOf list).sublist (List.take_sublist ..)) hr
    ((List.getElem?_take_of_lt hlt).trans (regsOf_rankIn hin)), toNat_peek s _ (by decide)]

/-- Settles O33: the registers that `loadBlock` loads, the write-back and the pc. -/
theorem blockLoad : Obligations.BlockLoad := by
  intro bm s m c wb rn list hp hmis hal hroom b n start hacc
  obtain ⟨-, hrn, hbase⟩ := ldmMisuse_eq_false_iff.1 hmis
  have hloaded := onlyRegs_loadBlock s m (regsOf list) start
  have hw := writesIf_baseWritten (s := s.loadBlock m (regsOf list) start) (m := m) (wb := wb) hrn
    (blockWriteBack bm b n)
  obtain ⟨-, hcpsr, hrest⟩ := onlyRegs_baseWritten hloaded m wb rn (blockWriteBack bm b n)
  refine ⟨_, exec_ldm_all hp hal rfl hmis hroom hacc, fun r hr hin => ?_, fun r hr hin => ?_, fun p hunseen => ?_, ?_,
    hcpsr, hrest.setPc _⟩
  · have hne : ¬ (wb = true ∧ r = rn) := by
      rintro ⟨hwb, rfl⟩
      rw [hbase hwb] at hin
      cases hin
    have hrd := rd_loadBlock_take (s := s) (m := m) (start := start) hr hin (rankIn_lt_listSize hin)
    rw [← regsOf_length_eq_listSize, List.take_length] at hrd
    rw [rd_setPc _ hr, rd_of_writesIf hw hr, if_neg hne, hrd]
  · have hno : r ∉ regsOf list := fun h => by rw [mem_regsOf h] at hin; cases hin
    rw [rd_setPc _ hr, rd_of_writesIf hw hr, rd_loadBlock_of_notMem hno]
  · rw [State.setPc_regs, read_of_writesIf hw hunseen, read_loadBlock_of_unseen hunseen]
  · rw [State.setPc_pc, State.loadedPc]
    split
    next => exact ⟨_, toNat_peek s _ (by decide), rfl⟩
    next => rfl

/-- Settles O34: the words that `storeBlock` stores, the write-back and the pc. -/
theorem blockStore : Obligations.BlockStore := by
  intro bm s m c wb rn list hp hmis hal hroom hok b n start hacc
  have hrn := base_ne_r15_of_stm hmis
  obtain ⟨mem, stored, hu⟩ := storeBlock_eq_setMem s m (regsOf list) start
  obtain ⟨⟨hbytes, hothers, hmarks⟩, -⟩ := blockStored_storeBlock (m := m) (rs := regsOf list) (start := start) hok
    (regsOf_length_eq_listSize list ▸ hacc.1)
  have hw := writesIf_baseWritten (s := s.storeBlock m (regsOf list) start) (m := m) (wb := wb) hrn
    (blockWriteBack bm b n)
  have hx := exec_stm_all hp hal rfl hmis hroom hacc
  rw [regsOf_length_eq_listSize] at hothers hmarks
  obtain ⟨-, hcpsr, hspsr, -, hdraws, hinputs⟩ :=
    onlyRegs_baseWritten (.refl (s.storeBlock m (regsOf list) start)) m wb rn (blockWriteBack bm b n)
  rw [hu] at hcpsr hspsr hdraws hinputs
  refine ⟨_, hx, fun r hin j hj => ?_, fun x hxx => ?_, fun x => ?_, ?_, rfl, ?_⟩
  · rw [State.setPc_mem, baseWritten_mem]
    exact hbytes _ r (regsOf_rankIn hin) j hj
  · rw [State.setPc_mem, baseWritten_mem]
    exact hothers x hxx
  · rw [State.setPc_storedTo, baseWritten_storedTo]
    exact hmarks x
  · rw [hu] at hw ⊢
    exact hw
  · rw [hu]
    exact ⟨hcpsr, hspsr, hdraws, hinputs⟩

/-! ### Transfers that abort (R268) -/

/-- Settles O37: the first `j` registers are loaded or stored, and then the base is written. -/
theorem blockDataAbort : Obligations.BlockDataAbort := by
  intro bm s m c wb rn list j hp hal b n start base hfit hj
  constructor
  · intro hmis hacc hab
    obtain ⟨-, hrn, -⟩ := ldmMisuse_eq_false_iff.1 hmis
    refine ⟨_, _, exec_ldm_abort hp hal rfl hfit hj hmis hacc hab, entered_raise _ _, fun r hr hne hin hlt => ?_,
      fun r hr hne hno => ?_, State.rd_setReg_same _ _ _ _ hrn, fun p hunseen => ?_,
      (onlyRegs_loadBlock s m _ start).setReg m rn _⟩
    · rw [State.rd_setReg_ne _ _ _ _ _ (Ne.symm hne), rd_loadBlock_take hr hin hlt]
    · have hmem : r ∉ (regsOf list).take j := by
        rw [mem_take_regsOf]
        rintro ⟨hin, hlt⟩
        rcases hno with hno | hle
        · rw [hin] at hno
          cases hno
        · omega
      rw [State.rd_setReg_ne _ _ _ _ _ (Ne.symm hne), rd_loadBlock_of_notMem hmem]
    · rw [read_setReg_of_unseen hunseen, read_loadBlock_of_unseen hunseen]
  · intro hmis hok hacc hab
    have hrn := base_ne_r15_of_stm hmis
    have hlen := length_take_regsOf hj.le
    obtain ⟨mem, stored, hu⟩ := storeBlock_eq_setMem s m ((regsOf list).take j) start
    obtain ⟨⟨hbytes, hothers, -⟩, -⟩ := blockStored_storeBlock (m := m) (rs := (regsOf list).take j) (start := start)
      hok (by rw [hlen]; exact hacc.1)
    rw [hlen] at hothers
    have hx := exec_stm_abort hp hal rfl hfit hj hmis hacc hab
    obtain ⟨hpc, hcpsr, hspsr, -, hdraws, hinputs⟩ :=
      (OnlyRegs.refl (s.storeBlock m ((regsOf list).take j) start)).setReg m rn base
    have hw := writes_setReg (s := s.storeBlock m ((regsOf list).take j) start) (m := m) (v := base) hrn
    refine ⟨_, _, hx, entered_raise _ _, fun r hin hlt i hi => ?_, fun x hxx => ?_, ?_, ?_⟩
    · rw [State.setReg_mem]
      exact hbytes _ r ((List.getElem?_take_of_lt hlt).trans (regsOf_rankIn hin)) i hi
    · rw [State.setReg_mem]
      exact hothers x hxx
    · rw [hu] at hw ⊢
      exact hw
    · rw [hu] at hpc hcpsr hspsr hdraws hinputs ⊢
      exact ⟨hpc, hcpsr, hspsr, hdraws, hinputs⟩

/-! ### A store and the opposite load (R278) -/

/-- The opposite mode finds the block where the first mode has put it, and writes back the first base (R261). -/
theorem opposite_block (h : (bm, back) ∈ [(BlockMode.db, BlockMode.ia), (.ia, .db), (.ib, .da), (.da, .ib)])
    (b : Word) (n : Nat) :
    blockStart back (blockWriteBack bm b n) n = blockStart bm b n ∧
      blockWriteBack back (blockWriteBack bm b n) n = b := by
  simp only [List.mem_cons, Prod.mk.injEq, List.not_mem_nil, or_false] at h
  rcases h with ⟨rfl, rfl⟩ | ⟨rfl, rfl⟩ | ⟨rfl, rfl⟩ | ⟨rfl, rfl⟩
  · exact ⟨rfl, BitVec.sub_add_cancel ..⟩
  · exact ⟨BitVec.add_sub_cancel .., BitVec.add_sub_cancel ..⟩
  · exact ⟨congrArg (· + 4) (BitVec.add_sub_cancel ..), BitVec.add_sub_cancel ..⟩
  · exact ⟨rfl, BitVec.sub_add_cancel ..⟩

/-- A base that is word aligned is written back word aligned (R261). -/
theorem isAligned_blockWriteBack {b : Word} (h : isAligned b 4 = true) (bm : BlockMode) (n : Nat) :
    isAligned (blockWriteBack bm b n) 4 = true := by
  simp only [isAligned, beq_iff_eq] at h ⊢
  cases bm <;> simp only [blockWriteBack, BitVec.toNat_add, BitVec.toNat_sub, BitVec.toNat_ofNat] <;> omega

/-- Four bytes that are those of a value make that value (R62). -/
theorem numberAt_of_stored {a : Nat} (hin : SameInputs s u)
    (h : ∀ i < 4, u.mem.read (a + i) = storedByte s v 4 i) : numberAt u a 4 = v.toNat := by
  obtain ⟨hparams, -, -⟩ := hin
  calc numberAt u a 4
      = ∑ k ∈ Finset.range 4, (u.mem.read (a + k)).toNat * 256 ^ lane u.params.bigEndian 4 k := rfl
    _ = ∑ k ∈ Finset.range 4, (laneOf v (lane s.params.bigEndian 4 k)).toNat * 256 ^ lane s.params.bigEndian 4 k :=
        Finset.sum_congr rfl fun k hk => by rw [h k (Finset.mem_range.1 hk), hparams]; rfl
    _ = v.toNat % 256 ^ 4 := sum_laneOf_lane ..
    _ = v.toNat := Nat.mod_eq_of_lt v.isLt

/-- Register files that agree under the names of a mode and in the other banks agree (R24). -/
theorem sameRegs_of_rd (hseen : ∀ r, r ≠ .r15 → u.rd m r = s.rd m r)
    (hunseen : ∀ p, (∀ r, physReg r m ≠ some p) → u.regs.read p = s.regs.read p) : SameRegs s u := by
  intro p
  by_cases hp : ∃ r, physReg r m = some p
  · obtain ⟨r, hr⟩ := hp
    have hne : r ≠ .r15 := by rintro rfl; cases hr
    rw [← State.rd_of_phys _ _ _ _ hr, ← State.rd_of_phys _ _ _ _ hr, hseen r hne]
  · exact hunseen p (not_exists.1 hp)

/-- An LDM whose words can be accessed leaves the memory itself, and so each of its bytes, as it is (R265). -/
theorem exec_ldm_mem (hp : Passes s m c) (hal : isAligned (s.rd m rn) 4 = true)
    (hmis : ldmMisuse wb rn list = false) (hroom : inList list .r15 = false → Room s)
    (hacc : BlockAccessible s .read (blockStart bm (s.rd m rn) (listSize list)) (listSize list))
    (hx : exec (ldm bm c wb rn list) s = .next u) : u.mem = s.mem := by
  rw [exec_ldm_all hp hal rfl hmis hroom hacc, Host.Outcome.next.injEq] at hx
  rw [← hx, State.setPc_mem, baseWritten_mem, loadBlock_mem]

/-- Settles O38: the LDM reads from each word what the STM has put there, and its write-back undoes the STM's. -/
theorem pushPopInverse : Obligations.PushPopInverse := by
  intro bm back s m c rn list hpair hp hmis hal hok htop n start hwrite hread
  obtain ⟨-, hrn, hbase⟩ := ldmMisuse_eq_false_iff.1 hmis
  obtain ⟨t, hstm, hbytes, -, -, hw, htpc, htcpsr, htspsr, -, htin⟩ :=
    blockStore bm s m c true rn list hp (stmMisuse_of_ldm hmis) hal (by rw [Room]; omega) hok hwrite
  have hb : t.rd m rn = blockWriteBack bm (s.rd m rn) n := by
    rw [rd_of_writesIf hw hrn, if_pos ⟨rfl, rfl⟩]
  obtain ⟨hstart, hback⟩ := opposite_block hpair (s.rd m rn) n
  have hpt : Passes t m c := by
    rw [Passes, htcpsr, State.mode_congr t s htcpsr]
    exact hp
  have halt : isAligned (t.rd m rn) 4 = true := hb ▸ isAligned_blockWriteBack hal bm n
  have hpct : t.pc.toNat = s.pc.toNat + 4 := by rw [htpc]; bv_omega
  have hroomt : Room t := by rw [Room]; omega
  have hacct : BlockAccessible t .read (blockStart back (t.rd m rn) n) n := by
    rw [hb, hstart]
    exact blockAccessible_congr htin htcpsr hread
  obtain ⟨u, hldm, hlisted, hunlisted, hunseen, hpc, hcpsr, hspsr, -⟩ :=
    blockLoad back t m c true rn list hpt hmis halt (fun _ => hroomt) hacct
  rw [hb, hstart] at hlisted
  rw [hb, hback] at hunlisted
  refine ⟨t, u, hstm, hldm, sameRegs_of_rd (m := m) (fun r hr => ?_) fun p hp => ?_, hcpsr.trans htcpsr,
    hspsr.trans htspsr, exec_ldm_mem hpt halt hmis (fun _ => hroomt) hacct hldm, fun h15 => ?_⟩
  · cases hin : inList list r with
    | true =>
      have hlt := rankIn_lt_listSize hin
      have haddr : (wordAt start (rankIn list r)).toNat = start.toNat + 4 * rankIn list r :=
        toNat_wordAt (by have := hwrite.1; omega)
      refine BitVec.eq_of_toNat_eq ?_
      rw [hlisted r hr hin, haddr, numberAt_of_stored htin (hbytes r hin), storedValue, if_neg hr]
    | false =>
      rw [hunlisted r hr hin, rd_of_writesIf hw hr]
      by_cases hrr : r = rn
      · rw [if_pos ⟨rfl, hrr⟩, hrr]
      · rw [if_neg fun h => hrr h.2, if_neg fun h => hrr h.2]
  · rw [hunseen p hp, read_of_writesIf hw hp]
  · rw [if_neg (by simp [h15]), htpc, BitVec.add_assoc] at hpc
    exact hpc

/-! ### Addresses and restrictions (R261, R264) -/

/-- A number added to a word, over the integers. -/
theorem toNat_add_int (b : Word) (k : Nat) :
    ((b + BitVec.ofNat 32 k).toNat : Int) = (b.toNat + k) % 2 ^ 32 := by
  rw [BitVec.toNat_add, BitVec.toNat_ofNat]
  omega

/-- A number subtracted from a word, over the integers. -/
theorem toNat_sub_int (b : Word) (k : Nat) :
    ((b - BitVec.ofNat 32 k).toNat : Int) = (b.toNat - k) % 2 ^ 32 := by
  rw [BitVec.toNat_sub, BitVec.toNat_ofNat]
  omega

/-- Settles O35: in every mode the highest word stands `4n - 4` above the start. -/
theorem blockAddresses : Obligations.BlockAddresses := by
  intro b n h1 h16 row x
  have hrow {bm : BlockMode} {start highest back : Int}
      (hstart : ((blockStart bm b n).toNat : Int) = start % 2 ^ 32) (hhighest : highest = start + 4 * n - 4)
      (hback : ((blockWriteBack bm b n).toNat : Int) = back % 2 ^ 32) : row bm start highest back := by
    have hlast := toNat_add_int (blockStart bm b n) (4 * (n - 1))
    rw [← wordAt] at hlast
    exact ⟨hstart, by omega, hback⟩
  have hup : ((b + BitVec.ofNat 32 (4 * n)).toNat : Int) = (x + 4 * n) % 2 ^ 32 := toNat_add_int b _
  have hdown : ((b - BitVec.ofNat 32 (4 * n)).toNat : Int) = (x - 4 * n) % 2 ^ 32 := toNat_sub_int b _
  have hfour (a : Word) : ((a + 4).toNat : Int) = (a.toNat + 4) % 2 ^ 32 := toNat_add_int a 4
  have hb := b.isLt
  refine ⟨hrow ?_ rfl hup, hrow (hfour b) (by omega) hup, hrow ?_ (by omega) hdown, hrow hdown (by omega) hdown⟩
  · exact (Int.emod_eq_of_lt (by omega) (by omega)).symm
  · rw [blockStart, hfour]
    omega

/-- A block transfer that passes refuses operands that R264 turns away. -/
theorem blockTransfer_of_misuse {misuse : Bool} {loop : Mode → List Reg → Word → State → BlockEnd}
    (hp : Passes s m c) (hmis : misuse = true) :
    blockTransfer c bm wb rn list misuse s loop = .refused .blockOperands := by
  rw [blockTransfer, whenPassed_of_passed hp.1 hp.2, hmis]
  rfl

/-- A word of format LSM with bit 22 set is refused (R118). -/
theorem decode_of_userBank {w : Word} (hcond : field w 28 4 ≠ 0b1111#4) (hfmt : field w 25 3 = 0b100#3)
    (h22 : bitAt w 22 = true) : decode w = .refused .userBankBlock := by
  cases hc : condOf w with
  | none => exact absurd (condOf_eq_none_iff.1 hc) hcond
  | some c =>
    rw [decode_of_condOf hc, decodeOpcode, hfmt]
    exact if_pos h22

/-- Settles O36: the two lists of R264, and bit 22 of the format. -/
theorem blockRestrictions : Obligations.BlockRestrictions := by
  refine ⟨fun bm s m c wb rn list hp => ⟨fun hmis => ?_, fun hmis => ?_⟩, fun w => decode_of_userBank⟩
  · rw [exec_ldm, blockTransfer_of_misuse hp (ldmMisuse_iff.2 hmis)]
  · rw [exec_stm, blockTransfer_of_misuse hp (stmMisuse_iff.2 hmis)]

end Sys2Proof.Claims

namespace Sys2Proof.Claims
/-! The Software Interrupt (spec/46_swi.md): what `SWI` does, and the row of R306 that it takes. -/

open Machine

variable {s t : State} {m : Mode} {c : Cond}

/-- `SWI` that passes takes the exception; its number is not looked at (R280, R108). -/
theorem exec_swi_of_passed (hp : Passes s m c) (number : BitVec 24) :
    exec (.swi c number) s = .next (s.raise .softwareInterrupt) := by
  rw [exec, execSwi, whenPassed_of_passed hp.1 hp.2]

/-- The link value and the saved `cpsr` of a Software Interrupt are in the registers of Supervisor mode (R306, R308). -/
theorem Entered.svc_registers (h : Entered s t .softwareInterrupt) :
    t.regs.r14_svc = s.pc + 4 ∧ t.spsr.svc = s.cpsr := by
  obtain ⟨hregs, hspsr, -⟩ := h
  exact ⟨hregs .r14_svc, Option.some.inj (hspsr .supervisor)⟩

/-- Settles O45: `SWI` raises the exception, the entry procedure of R306 holds of every `raise`, and the named registers
and bits are read off its row. -/
theorem softwareInterrupt : Obligations.SoftwareInterrupt := by
  intro s m c number hp
  have hentered := entered_raise s .softwareInterrupt
  obtain ⟨hlink, hsaved⟩ := hentered.svc_registers
  have hflags : SameFlags s (s.raise .softwareInterrupt) := .raise rfl _
  have ⟨_, _, _, hmode, _, hI, hF, _, hpc, _⟩ := hentered
  exact ⟨_, exec_swi_of_passed hp number, hlink, hsaved, hmode, hI, hF, hpc, hflags, hentered⟩

end Sys2Proof.Claims

namespace Sys2Proof.Machine
/-! Writes of a status register by `MSR` (R41, R286, R288): which bits a field mask names, and what a merge takes from
the operand. -/

variable {p operand new : Word} {fields : BitVec 4}

/-- Words that agree bit by bit on a field have the same field. -/
theorem extract_congr {w u : Word} {lo len : Nat} (h : ∀ k, lo ≤ k → k < lo + len → w.getLsbD k = u.getLsbD k) :
    w.extractLsb' lo len = u.extractLsb' lo len := by
  refine BitVec.eq_of_getLsbD_eq fun i hi => ?_
  simp only [BitVec.getLsbD_extractLsb', h (lo + i) (by omega) (by omega)]

/-- A field mask names the bytes of its bits (R41, R286). -/
theorem getLsbD_byteMask (fields : BitVec 4) {k : Nat} (hk : k < 32) :
    (byteMask fields).getLsbD k = fields.getLsbD (k / 8) := by
  have h : ∀ (fields : BitVec 4) (k : Fin 32), (byteMask fields).getLsbD k = fields.getLsbD (k / 8) := by decide
  exact h fields ⟨k, hk⟩

/-- In a privileged mode the mask of an `MSR` to the `cpsr` is the bytes that the field mask names (R288). -/
theorem cpsrMask_of_privileged {m : Mode} (hm : m ≠ .user) (fields : BitVec 4) : cpsrMask m fields = byteMask fields :=
  if_neg hm

/-- In User mode the mask of an `MSR` to the `cpsr` is the `f` byte where the field mask names it (R43, R288). -/
theorem getLsbD_cpsrMask_user (fields : BitVec 4) {k : Nat} (hk : k < 32) :
    (cpsrMask .user fields).getLsbD k = (fields.getLsbD 3 && decide (24 ≤ k)) := by
  have hbyte : ∀ k : Fin 32, (0xFF000000#32).getLsbD k = decide (24 ≤ k.val) := by decide
  rw [cpsrMask, if_pos rfl, BitVec.getLsbD_and, getLsbD_byteMask fields hk, hbyte ⟨k, hk⟩]
  by_cases h24 : 24 ≤ k
  · rw [show k / 8 = 3 by omega]
  · simp [h24]

/-- A merge takes the bits of the mask from the operand and the others from the register. -/
theorem getLsbD_psrMerge {mask : Word} {k : Nat} (hk : k < 32) :
    (psrMerge p operand mask).getLsbD k = if mask.getLsbD k then operand.getLsbD k else p.getLsbD k := by
  simp only [psrMerge, BitVec.getLsbD_or, BitVec.getLsbD_and, BitVec.getLsbD_not, hk, decide_true, Bool.true_and]
  cases mask.getLsbD k <;> simp

/-- The word with the named bytes of the operand and the other bytes of the register is their merge. -/
theorem eq_psrMerge_byteMask
    (h : ∀ k < 32, new.getLsbD k = if fields.getLsbD (k / 8) then operand.getLsbD k else p.getLsbD k) :
    new = psrMerge p operand (byteMask fields) :=
  BitVec.eq_of_getLsbD_eq fun k hk => by rw [h k hk, getLsbD_psrMerge hk, getLsbD_byteMask fields hk]

/-! ### The merge of User mode (R43) -/

/-- In User mode an `MSR` to the `cpsr` leaves every field of bits 23:0 alone. -/
theorem extract_psrMerge_user_low {lo len : Nat} (h : lo + len ≤ 24) :
    (psrMerge p operand (cpsrMask .user fields)).extractLsb' lo len = p.extractLsb' lo len :=
  extract_congr fun k _ hk => getLsbD_psrMerge_of_unmasked (by omega) (by
    rw [getLsbD_cpsrMask_user fields (by omega), decide_eq_false (by omega), Bool.and_false])

/-- Without the `f` field it changes nothing. -/
theorem psrMerge_user_of_no_flags (hf : fields.getLsbD 3 = false) :
    psrMerge p operand (cpsrMask .user fields) = p :=
  BitVec.eq_of_getLsbD_eq fun k hk => getLsbD_psrMerge_of_unmasked hk (by
    rw [getLsbD_cpsrMask_user fields hk, hf, Bool.false_and])

/-- With the `f` field it takes bits 31:24 from the operand. -/
theorem getLsbD_psrMerge_user_high (hf : fields.getLsbD 3 = true) {k : Nat} (h24 : 24 ≤ k) (hk : k < 32) :
    (psrMerge p operand (cpsrMask .user fields)).getLsbD k = operand.getLsbD k := by
  rw [getLsbD_psrMerge hk, getLsbD_cpsrMask_user fields hk, hf, decide_eq_true h24]
  rfl

/-- With the `f` field the merge has the register's bits from `lo` to 27 exactly where the operand has its bits
27:24. -/
theorem extract_psrMerge_user_eq_iff (hf : fields.getLsbD 3 = true) {lo len : Nat} (h : lo + len = 24) :
    (psrMerge p operand (cpsrMask .user fields)).extractLsb' lo (4 + len) = p.extractLsb' lo (4 + len) ↔
      operand.extractLsb' 24 4 = p.extractLsb' 24 4 := by
  have hhigh : (psrMerge p operand (cpsrMask .user fields)).extractLsb' 24 4 = operand.extractLsb' 24 4 :=
    extract_congr fun k h24 hk => getLsbD_psrMerge_user_high hf h24 (by omega)
  have hsplit := field_eq_field_iff (w := psrMerge p operand (cpsrMask .user fields)) (u := p) (lo := lo) (x := 4)
    (y := len)
  simp only [field, h, hhigh, extract_psrMerge_user_low h.le, and_true] at hsplit
  exact hsplit

/-- In User mode an `MSR` to the `cpsr` leaves T alone. -/
theorem psrT_psrMerge_user : psrT (psrMerge p operand (cpsrMask .user fields)) = psrT p :=
  getLsbD_psrMerge_of_unmasked (by decide) (by
    rw [getLsbD_cpsrMask_user fields (by decide), decide_eq_false (by decide), Bool.and_false])

/-- In User mode an `MSR` to the `cpsr` leaves the mode alone. -/
theorem psrMode_psrMerge_user : psrMode (psrMerge p operand (cpsrMask .user fields)) = psrMode p := by
  rw [psrMode, psrModeBits, extract_psrMerge_user_low (by decide)]
  rfl

end Sys2Proof.Machine

namespace Sys2Proof.Claims
/-! What a step can do from User mode (R43, R319): it keeps mode, masks and `spsr`s, or it takes an exception. -/

open Machine

variable {s u v : State}

/-- The mode, I, F and T bits and every `spsr` of `v` are those of `s`. -/
def Confined (s v : State) : Prop := v.cpsr.extractLsb' 0 8 = s.cpsr.extractLsb' 0 8 ∧ v.spsr = s.spsr

/-- `v` is the entry to an exception from a state with the pc, `cpsr` and `spsr`s of `s`. -/
def EntersFrom (s v : State) : Prop := ∃ u e, u.pc = s.pc ∧ u.cpsr = s.cpsr ∧ u.spsr = s.spsr ∧ Entered u v e

/-- The same `cpsr` and `spsr`s are confined. -/
theorem Confined.of_same (hcpsr : v.cpsr = s.cpsr) (hspsr : v.spsr = s.spsr) : Confined s v := ⟨by rw [hcpsr], hspsr⟩

/-- The end of an instruction confines what was confined. -/
theorem Confined.of_advance (h : u.advance = .next v) (hu : Confined s u) : Confined s v := by
  obtain ⟨-, rfl⟩ := advance_eq_next.1 h
  exact hu

/-- A state enters every exception. -/
theorem entersFrom_raise (s : State) (e : Exc) : EntersFrom s (s.raise e) :=
  ⟨s, e, rfl, rfl, rfl, entered_raise s e⟩

/-- An `MSR` in User mode is of the `cpsr`, and of its bits 31:24 (R43, R285, R288). -/
theorem msr_user_confined {spsr : Bool} {fields : BitVec 4} {operand : Word}
    (h : s.msr .user spsr fields operand = .next v) : Confined s v := by
  rcases msr_eq_next h with ⟨-, -, -, hspsr⟩ | ⟨-, new, rfl, -, -, -, ha⟩
  · cases hspsr
  · exact .of_advance ha ⟨extract_psrMerge_user_low (by decide), rfl⟩

/-- Every effect of an instruction in User mode is confined or enters an exception; the return from one needs an
`spsr` (R157). -/
theorem confined_of_effect (h : Effect s .user v) : Confined s v ∨ EntersFrom s v := by
  cases h with
  | plain regs t ha => exact .inl (.of_advance ha (.of_same rfl rfl))
  | flags regs n z cf v draws t ha =>
    exact .inl (.of_advance ha ⟨extract_psrSetFlags n z cf v s.cpsr 0 8 (by decide), rfl⟩)
  | jump regs a ha => exact .inl (.of_same rfl rfl)
  | branch regs offset => exact .inl (.of_same rfl rfl)
  | store regs mem stored t hm ha => exact .inl (.of_advance ha (.of_same rfl rfl))
  | exception regs mem stored e hm => exact .inr (entersFrom_raise ((s.setMem mem stored).setRegs regs) e)
  | ret result t ha =>
    obtain ⟨new, hnew, -⟩ := exceptionReturn_eq_next.1 ha
    cases hnew
  | psr spsr fields operand t ha => exact .inl (msr_user_confined ha)

/-- Before the environment's move a step from User mode is confined or enters an exception. -/
theorem stepCore_confined (hm : s.mode = some .user) (h : stepCore s = .next v) : Confined s v ∨ EntersFrom s v := by
  rcases stepCore_eq_next h with
    ⟨e, -, -, rfl⟩ | ⟨-, -, rfl⟩ | ⟨w, -, -, -, rfl⟩ | ⟨w, -, -, -, ha⟩ | ⟨w, i, -, -, -, hi⟩
  · exact .inr (entersFrom_raise s e)
  · exact .inr (entersFrom_raise s _)
  · exact .inr (entersFrom_raise s _)
  · exact .inl (.of_advance ha (.of_same rfl rfl))
  · obtain ⟨m, hmode, heffect⟩ := exec_effect hi
    obtain rfl := Option.some.inj (hm.symm.trans hmode)
    exact confined_of_effect heffect

/-- Settles O53: a case for each way a step can answer a next state, the effects of the instructions among them. -/
theorem userModeConfined : Obligations.UserModeConfined := by
  intro s t hm h
  obtain ⟨v, hv, rfl⟩ := step_eq_next.1 h
  exact ⟨v, rfl, stepCore_confined hm hv⟩

end Sys2Proof.Claims

namespace Sys2Proof.Claims
/-! The transfers of a status register (spec/47_psr_transfer.md): what `MRS` and `MSR` come to, and what they leave. -/

open Machine

variable {s : State} {m : Mode} {c : Cond} {fields : BitVec 4} {operand : Word}

/-! ### What the instructions come to -/

/-- `MRS` of the `cpsr` that passes (R287). -/
theorem exec_mrs_cpsr (hp : Passes s m c) {rd : Reg} (hrd : rd ≠ .r15) :
    exec (.mrs c false rd) s = (s.setReg m rd s.cpsr).advance := by
  rw [exec, execMrs, whenPassed_of_passed hp.1 hp.2, if_neg hrd]
  rfl

/-- `MRS` of the `spsr` that passes, in a mode that has one (R287). -/
theorem exec_mrs_spsr (hp : Passes s m c) {rd : Reg} (hrd : rd ≠ .r15) {v : Word} (hv : s.spsr.read m = some v) :
    exec (.mrs c true rd) s = (s.setReg m rd v).advance := by
  rw [exec, execMrs, whenPassed_of_passed hp.1 hp.2, if_neg hrd]
  simp only [if_true, hv]

/-- The register form of `MSR` that passes transfers its register (R290). -/
theorem exec_msrReg_of_passed (hp : Passes s m c) (spsr : Bool) (fields : BitVec 4) {rm : Reg} (hrm : rm ≠ .r15) :
    exec (.msrReg c spsr fields rm) s = s.msr m spsr fields (s.rd m rm) := by
  rw [exec, execMsrReg, whenPassed_of_passed hp.1 hp.2, if_neg hrm]

/-- The immediate form of `MSR` that passes transfers its immediate (R291). -/
theorem exec_msrImm_of_passed (hp : Passes s m c) (spsr : Bool) (fields rot : BitVec 4) (imm8 : BitVec 8) :
    exec (.msrImm c spsr fields rot imm8) s = s.msr m spsr fields (rotatedImm rot imm8) := by
  rw [exec, execMsrImm, whenPassed_of_passed hp.1 hp.2]

/-- What holds of every transfer of an operand by `MSR` holds of both its forms. -/
theorem msr_forms {wanted : Instr → Word → Prop} {spsr : Bool} {rm : Reg} {rot : BitVec 4} {imm8 : BitVec 8}
    (hp : Passes s m c)
    (h : ∀ i operand, exec i s = s.msr m spsr fields operand → wanted i operand) :
    (rm ≠ .r15 → wanted (.msrReg c spsr fields rm) (s.rd m rm)) ∧
      wanted (.msrImm c spsr fields rot imm8) (rotatedImm rot imm8) :=
  ⟨fun hrm => h _ _ (exec_msrReg_of_passed hp spsr fields hrm), h _ _ (exec_msrImm_of_passed hp spsr fields rot imm8)⟩

/-! ### MRS -/

/-- The end of `MRS`: one register written, the pc moved on, and the frame. -/
theorem setReg_advance_of_room (m : Mode) {rd : Reg} (hroom : Room s) (hrd : rd ≠ .r15) (v : Word) :
    ∃ t, (s.setReg m rd v).advance = .next t ∧ Writes s t m rd v ∧ t.pc = s.pc + 4 ∧ t.cpsr = s.cpsr ∧
      SameRest s t := by
  have hpc : (s.setReg m rd v).pc = s.pc := State.setReg_pc ..
  exact ⟨_, advance_of_room (by rwa [hpc]), (writes_setReg hrd).setPc _, by rw [State.setPc_pc, hpc],
    State.setReg_cpsr .., ((SameRest.refl s).setReg m rd v).setPc _⟩

/-- Settles O39: `MRS` of either status register is a register write. -/
theorem mrsReads : Obligations.MrsReads := by
  intro s m c rd hp hroom hrd
  constructor
  · rw [exec_mrs_cpsr hp hrd]
    exact setReg_advance_of_room m hroom hrd s.cpsr
  · intro v hv
    rw [exec_mrs_spsr hp hrd hv]
    exact setReg_advance_of_room m hroom hrd v

/-! ### MSR to the cpsr -/

/-- An `MSR` to the `cpsr` that no check turns away writes the merge and moves on (R288). -/
theorem msr_cpsr_of_allowed (hroom : Room s) (h : MsrAllowed s m false fields operand) :
    s.msr m false fields operand =
      .next ((s.setCpsr (psrMerge s.cpsr operand (cpsrMask m fields))).setPc (s.pc + 4)) := by
  obtain ⟨hR, hT, hM⟩ := h
  have hadvance : s.msr m false fields operand = (s.setCpsr (psrMerge s.cpsr operand (cpsrMask m fields))).advance := by
    simp [State.msr, State.msrCpsr, hR, hT, hM]
  exact hadvance.trans (advance_of_room hroom)

/-- An `MSR` to the `cpsr` that would change a reserved bit is refused (R42, R288). -/
theorem msr_cpsr_of_reserved
    (h : psrReserved (psrMerge s.cpsr operand (cpsrMask m fields)) ≠ psrReserved s.cpsr) :
    s.msr m false fields operand = .refused .wouldChangeReserved := by
  simp [State.msr, State.msrCpsr, h]

/-- An `MSR` to the `cpsr` that a check turns away is refused (R288). -/
theorem msr_cpsr_of_not_allowed (h : ¬ MsrAllowed s m false fields operand) :
    ∃ r, s.msr m false fields operand = .refused r := by
  by_cases hR : psrReserved (psrMerge s.cpsr operand (cpsrMask m fields)) = psrReserved s.cpsr
  · cases hT : psrT (psrMerge s.cpsr operand (cpsrMask m fields)) with
    | true => exact ⟨.wouldSetThumb, by simp [State.msr, State.msrCpsr, hR, hT]⟩
    | false =>
      have hM : psrMode (psrMerge s.cpsr operand (cpsrMask m fields)) = none :=
        by_contra fun hM => h ⟨hR, hT, hM⟩
      exact ⟨.wouldSetIllegalMode, by simp [State.msr, State.msrCpsr, hR, hT, hM]⟩
  · exact ⟨_, msr_cpsr_of_reserved hR⟩

/-- Settles O40: the word wanted is the merge under the field mask, and the checks on it are those of the model. -/
theorem msrPrivileged : Obligations.MsrPrivileged := by
  intro s m c fields rm rot imm8 new hp hroom hm wanted
  refine msr_forms (wanted := wanted) hp fun i operand hx hnew => ?_
  obtain rfl : new = psrMerge s.cpsr operand (cpsrMask m fields) := by
    rw [cpsrMask_of_privileged hm]
    exact eq_psrMerge_byteMask hnew
  split
  next h =>
    exact ⟨_, hx.trans (msr_cpsr_of_allowed hroom h), rfl, rfl, fun _ => rfl, ((SameRest.refl s).setCpsr _).setPc _⟩
  next h =>
    obtain ⟨r, hr⟩ := msr_cpsr_of_not_allowed h
    exact ⟨r, hx.trans hr⟩

/-- In User mode the reserved bits are the only check that can turn an `MSR` to the `cpsr` away (R43). -/
theorem msrAllowed_user (hm : s.mode = some .user) (hT : psrT s.cpsr = false)
    (hR : psrReserved (psrMerge s.cpsr operand (cpsrMask .user fields)) = psrReserved s.cpsr) :
    MsrAllowed s .user false fields operand := by
  refine ⟨hR, psrT_psrMerge_user.trans hT, ?_⟩
  have hmode : psrMode s.cpsr = some .user := hm
  rw [psrMode_psrMerge_user, hmode]
  simp

/-- Settles O41: without `f` the merge is the `cpsr` itself, with `f` bits 31:24 of it are the operand's. -/
theorem msrUser : Obligations.MsrUser := by
  intro s c fields rm rot imm8 hp hroom hT wanted
  refine msr_forms (wanted := wanted) hp fun i operand hx => ⟨fun hf => ?_, fun hf hkeep => ?_, fun hf hchange => ?_⟩
  · have hmerge := psrMerge_user_of_no_flags (p := s.cpsr) (operand := operand) hf
    have hallowed : MsrAllowed s .user false fields operand := msrAllowed_user hp.1 hT (by rw [hmerge])
    exact ⟨_, hx.trans (msr_cpsr_of_allowed hroom hallowed), hmerge, rfl, fun _ => rfl,
      ((SameRest.refl s).setCpsr _).setPc _⟩
  · have hreserved := (extract_psrMerge_user_eq_iff hf (lo := 8) (len := 16) rfl).2 hkeep
    have hcontrol := (extract_psrMerge_user_eq_iff hf (lo := 0) (len := 24) rfl).2 hkeep
    exact ⟨_, hx.trans (msr_cpsr_of_allowed hroom (msrAllowed_user hp.1 hT hreserved)),
      ⟨getLsbD_psrMerge_user_high hf (by decide) (by decide), getLsbD_psrMerge_user_high hf (by decide) (by decide),
        getLsbD_psrMerge_user_high hf (by decide) (by decide), getLsbD_psrMerge_user_high hf (by decide) (by decide)⟩,
      hcontrol, rfl, fun _ => rfl, ((SameRest.refl s).setCpsr _).setPc _⟩
  · exact hx.trans (msr_cpsr_of_reserved fun hreserved =>
      hchange ((extract_psrMerge_user_eq_iff hf (lo := 8) (len := 16) rfl).1 hreserved))

/-! ### MSR to the spsr -/

/-- An `MSR` to the `spsr` of a mode that has one writes the merge and moves on (R289). -/
theorem msr_spsr_of_room (hroom : Room s) {old : Word} (hold : s.spsr.read m = some old) :
    s.msr m true fields operand =
      .next ((s.setSpsr (s.spsr.write m (psrMerge old operand (byteMask fields)))).setPc (s.pc + 4)) := by
  simp only [State.msr, if_true, State.msrSpsr, hold]
  exact advance_of_room hroom

/-- A write of the `spsr` of a mode that has one reads back in that mode and leaves the others (R24, R40). -/
theorem spsr_read_write {x : Spsrs} {old : Word} (hold : x.read m = some old) (new : Word) (m' : Mode) :
    (x.write m new).read m' = if m' = m then some new else x.read m' := by
  split
  next h =>
    have hspsr : m.hasSpsr = true := by
      rw [← Bool.not_eq_false, ← Spsrs.read_eq_none x m, hold]
      simp
    rw [h, Spsrs.read_write_same _ _ _ hspsr]
  next h => exact Spsrs.read_write_ne _ _ _ _ (Ne.symm h)

/-- Settles O42: the merge under the field mask goes to the `spsr`, without a check on its value. -/
theorem msrSpsr : Obligations.MsrSpsr := by
  intro s m c fields rm rot imm8 old hp hroom hold wanted
  refine msr_forms (wanted := wanted) hp fun i operand hx =>
    ⟨_, _, hx.trans (msr_spsr_of_room hroom hold), fun k hk => ?_, spsr_read_write hold _, rfl, rfl,
      fun _ => rfl, .refl s, rfl, .refl s⟩
  rw [getLsbD_psrMerge hk, getLsbD_byteMask fields hk]

/-! ### Refusals -/

/-- User and System mode have no `spsr` to read (R24, R285). -/
theorem spsr_read_of_user_or_system (x : Spsrs) (h : m = .user ∨ m = .system) : x.read m = none := by
  rcases h with rfl | rfl <;> rfl

/-- An `MSR` to the `spsr` of a mode without one is refused (R285, R292). -/
theorem msr_spsr_of_none (hnone : s.spsr.read m = none) : s.msr m true fields operand = .refused .noSpsr := by
  simp only [State.msr, if_true, State.msrSpsr, hnone]

/-- `MRS` of the `spsr` in a mode without one is refused (R285, R292). -/
theorem exec_mrs_of_none (hp : Passes s m c) {rd : Reg} (hrd : rd ≠ .r15) (hnone : s.spsr.read m = none) :
    exec (.mrs c true rd) s = .refused .noSpsr := by
  rw [exec, execMrs, whenPassed_of_passed hp.1 hp.2, if_neg hrd]
  simp only [if_true, hnone]

/-- Settles O43: r15 is refused first, and then the `spsr` that is not there. -/
theorem psrTransferRefusals : Obligations.PsrTransferRefusals := by
  intro s m c spsr fields rot imm8 r hp
  refine ⟨whenPassed_of_passed hp.1 hp.2, whenPassed_of_passed hp.1 hp.2, fun hm hr => ?_⟩
  have hnone := spsr_read_of_user_or_system s.spsr hm
  exact ⟨exec_mrs_of_none hp hr hnone, (exec_msrReg_of_passed hp true fields hr).trans (msr_spsr_of_none hnone),
    (exec_msrImm_of_passed hp true fields rot imm8).trans (msr_spsr_of_none hnone)⟩

end Sys2Proof.Claims

namespace Sys2Proof.Machine
/-! The exceptions that a step takes around the instruction (R309, R311 to R315), and the return from a handler
(R316). -/

open Claims

variable {s : State} {e : Exc}

/-! ### The entry procedure -/

/-- Settles O44: the entry procedure is `raise`. -/
theorem entryTable : Obligations.EntryTable := entered_raise

/-! ### Interrupts -/

/-- FIQ is taken where its line is high and F is 0 (R311, R315). -/
theorem interrupt_eq_fiq (hline : s.env.fiqLine = true) (hF : psrF s.cpsr = false) : s.interrupt = some .fiq := by
  simp [State.interrupt, hline, hF]

/-- IRQ is taken where FIQ is not, its line is high and I is 0 (R312, R315). -/
theorem interrupt_eq_irq (hfiq : s.env.fiqLine = false ∨ psrF s.cpsr = true) (hline : s.env.irqLine = true)
    (hI : psrI s.cpsr = false) : s.interrupt = some .irq := by
  have hf : (s.env.fiqLine && !psrF s.cpsr) = false := by
    rcases hfiq with h | h <;> simp [h]
  simp [State.interrupt, hf, hline, hI]

/-- A step that takes an interrupt enters it, before anything is fetched (R45 step 2). -/
theorem step_of_interrupt (h : s.interrupt = some e) : ∃ u, step s = .next u.tick ∧ Entered s u e :=
  ⟨s.raise e, by simp only [step, stepCore, h, tickOut], entered_raise s e⟩

/-- Settles O46: the interrupt sampled in each of the three cases. -/
theorem interruptsTaken : Obligations.InterruptsTaken := fun _ =>
  ⟨fun hline hF => step_of_interrupt (interrupt_eq_fiq hline hF),
    fun hfiq hline hI => step_of_interrupt (interrupt_eq_irq hfiq hline hI), interrupt_eq_none⟩

/-! ### Prefetch Abort -/

/-- A fetch from a legal state aborts where the oracle says so (R45 steps 3 to 5, R70). -/
theorem fetch_eq_abort (h : s.legal = true) (hab : s.aborts .fetch s.pc .word = true) : s.fetch = .abort := by
  obtain ⟨hal, hm, hT, -⟩ := legal_iff.1 h
  have hm' : s.mode ≠ none := Option.isSome_iff_ne_none.1 hm
  simp [State.fetch, hT, psrJ_of_legal h, hal, hm', hab]

/-- Settles O47: the step raises Prefetch Abort and issues nothing. -/
theorem prefetchAbort : Obligations.PrefetchAbort := by
  intro s hirq hlegal hab
  exact ⟨s.raise .prefetchAbort, by simp only [step, stepCore, hirq, fetch_eq_abort hlegal hab, tickOut],
    entered_raise s _⟩

/-! ### The return from a handler (R316) -/

/-- In the handler r14 is the link value (R302, R306). -/
theorem rd_r14_raise (s : State) (e : Exc) : (s.raise e).rd e.mode .r14 = s.pc + e.lrOffset := by
  obtain ⟨-, -, hlr, -⟩ := entryRow_eq e
  rw [State.rd_of_phys _ _ _ _ hlr, State.raise_regs, State.setReg_regs _ _ _ _ _ hlr, Regs.read_write_same]

/-- The handler runs in the mode of its exception, where the condition `al` passes (R306). -/
theorem passes_raise (s : State) (e : Exc) : Passes (s.raise e) e.mode .al := by
  refine ⟨?_, rfl⟩
  rw [State.mode, State.raise_cpsr, psrMode_entryPsr]

/-- The exception return of a handler passes every check of R157 where the state before the entry was legal, and puts
that state's `cpsr` back (R303). -/
theorem exceptionReturn_raise {resume : Word} (h : s.legal = true) (ha : isAligned resume 4 = true) :
    (s.raise e).exceptionReturn e.mode resume = .next (((s.raise e).setCpsr s.cpsr).setPc resume) := by
  obtain ⟨-, hm, hT, -⟩ := legal_iff.1 h
  obtain ⟨-, -, -, -, -, hspsr⟩ := entryRow_eq e
  have hsaved : (s.raise e).spsr.read e.mode = some s.cpsr := by
    rw [State.raise_spsr, Spsrs.read_write_same _ _ _ hspsr]
  have hreserved : psrReserved s.cpsr = psrReserved (s.raise e).cpsr := by
    rw [State.raise_cpsr, psrReserved_entryPsr]
  exact exceptionReturn_eq_next.2 ⟨s.cpsr, hsaved, hT, psrJ_of_legal h, hm, hreserved, ha, rfl⟩

/-- The word `w`, run as the first instruction of the handler of `e`, restores the `cpsr` and every register but the
handler's r14, and resumes at `resume` (R316). -/
def UndoesEntry (s : State) (e : Exc) (w resume : Word) : Prop :=
  ∃ i t, decode w = .instr i ∧ exec i (s.raise e) = .next t ∧ t.cpsr = s.cpsr ∧ t.pc = resume ∧
    (∀ p, p ≠ (entryRow e).2.2.1 → t.regs.read p = s.regs.read p) ∧ SameMemory s t

/-- A data-processing instruction with `S` and destination r15 whose result in the handler is an aligned address undoes
the entry and resumes there. -/
theorem undoesEntry_of_result {k : Dest} {rn : Reg} {o : Operand2} {w resume : Word} (h : s.legal = true)
    (hw : encode (k.instr .al true .r15 rn o) = w) (hmis : o.pcMisuse (k.regs .r15 rn) = false)
    (ha : isAligned resume 4 = true)
    (hv : k.Result ((s.raise e).rd e.mode rn) ((s.raise e).operand2 e.mode o).value (psrC (s.raise e).cpsr) resume) :
    UndoesEntry s e w resume := by
  have hexec := (exec_dest_r15_of_passed (st := true) (passes_raise s e) hmis hv).trans (exceptionReturn_raise h ha)
  refine ⟨_, _, decode_of_encode_eq hw, hexec, rfl, rfl, fun p hp => ?_, (SameMemory.refl s).raise e⟩
  obtain ⟨hregs, -⟩ := entered_raise s e
  exact (hregs p).trans (if_neg hp)

/-- `MOVS pc,r14` resumes at the link value (R316). -/
theorem undoesEntry_movs (h : s.legal = true) {resume : Word} (hlink : s.pc + e.lrOffset = resume)
    (ha : isAligned resume 4 = true) : UndoesEntry s e 0xE1B0F00E resume := by
  refine undoesEntry_of_result (k := .logical .mov) (rn := .r0) (o := .shiftImm .r14 .lsl 0) h rfl rfl ha fun i _ => ?_
  have hoperand : ((s.raise e).operand2 e.mode (.shiftImm .r14 .lsl 0)).value = resume :=
    (rd_r14_raise s e).trans hlink
  rw [hoperand]
  rfl

/-- An 8-bit immediate without rotation (R103). -/
theorem rotatedImm_zero (imm8 : BitVec 8) : rotatedImm 0 imm8 = imm8.setWidth 32 :=
  BitVec.eq_of_getLsbD_eq fun i hi => by
    rw [rotatedImm, getLsbD_ror _ _ hi, show (i + 2 * (0 : BitVec 4).toNat) % 32 = i from Nat.mod_eq_of_lt hi]

/-- `SUBS pc,r14,#imm8` resumes `imm8` below the link value (R316). -/
theorem undoesEntry_subs {imm8 : BitVec 8} {w : Word} (h : s.legal = true)
    (hw : encode (.sub .al true .r15 .r14 (.imm 0 imm8)) = w) (hlink : e.lrOffset = imm8.setWidth 32) :
    UndoesEntry s e w s.pc := by
  obtain ⟨ha, -⟩ := legal_iff.1 h
  refine undoesEntry_of_result (k := .arith .sub) (rn := .r14) (o := .imm 0 imm8) h hw rfl ha ?_
  have hoperand : ((s.raise e).operand2 e.mode (.imm 0 imm8)).value = e.lrOffset :=
    (rotatedImm_zero imm8).trans hlink.symm
  rw [rd_r14_raise, hoperand]
  have hpc := s.pc.isLt
  simp only [Dest.Result, Arith.exact, BitVec.toNat_add]
  omega

/-- Settles O48: `MOVS` for the exceptions that resume at the link value, `SUBS` for those that resume below it. -/
theorem returnUndoesEntry : Obligations.ReturnUndoesEntry := by
  intro s e h
  obtain ⟨ha, -⟩ := legal_iff.1 h
  cases e with
  | softwareInterrupt | undefinedInstruction => exact undoesEntry_movs h rfl (isAligned_add ha rfl)
  | irq | fiq | prefetchAbort => exact undoesEntry_subs (imm8 := 4) h rfl rfl
  | dataAbort => exact undoesEntry_subs (imm8 := 8) h rfl rfl

end Sys2Proof.Machine
